-- ==== Sys2Proof/Word.lean ====
section
/-! DEFINITION. The word types of the WBB block and their plainest arithmetic. Spec: `00_scope.md` R4
(`WORD_BITS`, `ADDR_BITS`) and R5 (notation), `30_encoding.md` R50, `20_memory.md` R30. -/

namespace Sys2Proof

/-- One 32-bit word of a command or a response packet (R4 `WORD_BITS`, R50). -/
abbrev Word := BitVec 32

/-- One 8-bit byte of memory, of the palette, or of a canonical pixel (R30). -/
abbrev Byte := BitVec 8

/-- A byte address or a slice length, in `U(64)` (R4 `ADDR_BITS`, R31). -/
abbrev Addr := BitVec 64

/-- A command or a response: a packet of 32-bit words, the header or the status word first (R50, R55). -/
abbrev Packet := List Word

end Sys2Proof
end

