-- ==== Sys2Proof/Config.lean ====
section
/-! DEFINITION. The types of the block's parameters (`00_scope.md` R4) and the free values of the model.
The values the parameters take are in `Sys2Proof/Machine/Params.lean`. The free values are constants
without a body: nothing can be proved of the number each one is. -/

namespace Sys2Proof

/-- A bit field of a 32-bit word: its least significant bit and its width. -/
structure BitField where
  lo : Nat
  width : Nat
deriving DecidableEq, Repr

/-- `PXF_LAYOUT`: the places of the fields of a pixel-format word (`43_pixfmt.md` R180). `depth0` is the
depth code of channel 0, and the code of channel `k` lies `4k` bits above it. The reserved bits are two
fields, `reservedHi` above `reservedLo`. -/
structure PxfLayout where
  reservedHi : BitField
  model : BitField
  reservedLo : BitField
  transp : BitField
  bigEndian : BitField
  float : BitField
  planesM1 : BitField
  indexCode : BitField
  depth0 : BitField
deriving DecidableEq, Repr

/-- `STATUS_CODES`: the seven status words the block can answer (`60_exceptions.md` R261). -/
structure StatusCodes where
  ok : Word
  badCommand : Word
  badArgument : Word
  badPaletteLength : Word
  unsupportedOption : Word
  notPrepared : Word
  memFault : Word
deriving DecidableEq, Repr

/-- The block's parameters, one record, as `00_scope.md` R4 asks. -/
structure Params where
  wordBits : Nat
  addrBits : Nat
  paletteBytes : Nat
  numWidths : List Nat
  rngWidths : List Nat
  rctWidths : List Nat
  pxfLayout : PxfLayout
  statusCodes : StatusCodes
  maxBpp : Nat
deriving DecidableEq, Repr

/-- The blend mode of the swizzler (`44_swizzler.md` R201): 0 is `SRC`, 1 is `SRC_OVER`. -/
inductive BlendMode where
  | src
  | srcOver
deriving DecidableEq, Repr, Inhabited

/-- The 1024 bytes of `SWZ.SRCPAL` (`10_state.md` R14). -/
abbrev Palette := Vector Byte 1024

/-! The free values: what a register that the spec calls unspecified holds (`44_swizzler.md` R208,
`60_exceptions.md` R262, `70_reset_and_hazards.md` R290, `93_implementation_defined.md` U1 and U2).
Each is applied to the counter `State.draws`, which every use advances. -/

/-- An unspecified value of `SWZ.SRCFMT`. -/
opaque Config.freeSrcFmt : Nat → Word
/-- An unspecified value of `SWZ.DSTFMT`. -/
opaque Config.freeDstFmt : Nat → Word
/-- An unspecified value of `SWZ.BLEND`. -/
opaque Config.freeBlend : Nat → BlendMode
/-- An unspecified value of `SWZ.SBPP`. -/
opaque Config.freeSbpp : Nat → BitVec 3
/-- An unspecified value of `SWZ.DBPP`. -/
opaque Config.freeDbpp : Nat → BitVec 3
/-- An unspecified value of `SWZ.SRCPAL`. -/
opaque Config.freeSrcPal : Nat → Palette

end Sys2Proof
end

