-- ==== Sys2Proof/Machine/Params.lean ====
section
/-! DEFINITION. The values of the block's parameters (`00_scope.md` R4), in one record. -/

namespace Sys2Proof.Machine

/-- `PXF_LAYOUT` (`43_pixfmt.md` R180). PRESUMED: the places inside bits 27:16 are from the family's
early library releases, as the spec itself says (its passage G1); log entry 8. -/
def pxfLayout : PxfLayout where
  reservedHi := ⟨31, 1⟩
  model := ⟨28, 3⟩
  reservedLo := ⟨26, 2⟩
  transp := ⟨24, 2⟩
  bigEndian := ⟨23, 1⟩
  float := ⟨22, 1⟩
  planesM1 := ⟨20, 2⟩
  indexCode := ⟨16, 4⟩
  depth0 := ⟨0, 4⟩

/-- `STATUS_CODES` (`60_exceptions.md` R261): bit 31 the error flag, bits 30:24 the code, the rest 0 (R260). -/
def statusCodes : StatusCodes where
  ok := 0x00000000
  badCommand := 0x81000000
  badArgument := 0x82000000
  badPaletteLength := 0x83000000
  unsupportedOption := 0x84000000
  notPrepared := 0x85000000
  memFault := 0x86000000

/-- The parameters of this block (R4). -/
def params : Params where
  wordBits := 32
  addrBits := 64
  paletteBytes := 1024
  numWidths := [8, 16, 32, 64]
  rngWidths := [32, 64]
  rctWidths := [32]
  pxfLayout := pxfLayout
  statusCodes := statusCodes
  maxBpp := 4

end Sys2Proof.Machine
end

