-- ==== Sys2Proof/Machine/Flags.lean ====
section
/-! DEFINITION. The block has no flag and no condition code (`10_state.md` R13). What other machines keep in flags is
here a word of the response: the status word (`60_exceptions.md` R260, R261) and the boolean result
(`30_encoding.md` R56). -/

namespace Sys2Proof.Machine

/-- The status of a response (R261). -/
inductive Status where
  /-- The command completed. -/
  | ok
  /-- The packet is illegal. -/
  | badCommand
  /-- `lowmask` past its table, or a slice that wraps. -/
  | badArgument
  /-- A palette slice of a length other than 1024 beside an indexed format. -/
  | badPaletteLength
  /-- The triple of formats and blend mode is not supported. -/
  | unsupportedOption
  /-- SWZ.SWIZZLE in the Unprepared state. -/
  | notPrepared
  /-- The memory port refused a byte. -/
  | memFault
deriving DecidableEq, Repr

/-- The status word (R261). -/
def Status.word (s : Status) : Word :=
  match s with
  | .ok => params.statusCodes.ok
  | .badCommand => params.statusCodes.badCommand
  | .badArgument => params.statusCodes.badArgument
  | .badPaletteLength => params.statusCodes.badPaletteLength
  | .unsupportedOption => params.statusCodes.unsupportedOption
  | .notPrepared => params.statusCodes.notPrepared
  | .memFault => params.statusCodes.memFault

/-- A boolean result word (R56). -/
def boolWord (b : Bool) : Word := if b then 1 else 0

end Sys2Proof.Machine
end

