-- ==== Sys2Proof/Syntax.lean ====
section
/-! DEFINITION. The 64 commands of the WBB block and the shapes of their operands (`30_encoding.md` R54, R57).
A scalar operand of 8, 16 or 32 bits is kept as its whole operand word: which bits of it count is part of the
meaning (R52; log entry 14). A 64-bit operand is assembled from its two words (R53). -/

namespace Sys2Proof

/-- A one-dimensional range of `w`-bit bounds (R54, R130): `lo` is `min_incl`; `hi` is `max_incl` in a closed
flavour and `max_excl` in a half-open one. -/
structure Range (w : Nat) where
  lo : BitVec w
  hi : BitVec w
deriving DecidableEq, Repr

/-- A rectangle of 32-bit bounds (R54, R160): `maxX`, `maxY` are inclusive in the closed flavour and exclusive in
the half-open one. -/
structure Rect where
  minX : Word
  minY : Word
  maxX : Word
  maxY : Word
deriving DecidableEq, Repr

/-- A borrowed window into the host's memory (`20_memory.md` R31): `len` bytes from address `ptr`. -/
structure Slice where
  ptr : Addr
  len : Addr
deriving DecidableEq, Repr

/-- The bound kind `K` of a range or a rectangle (R51): `ii` closed, `ie` half-open. -/
inductive BoundKind where
  | ii
  | ie
deriving DecidableEq, Repr

/-- One command of the block: one constructor per row of the opcode map (R57). -/
inductive Instr where
  -- NUM, unit 1 (`40_numeric.md`)
  /-- `min.w8`, header 0x100 (R101). -/
  | minW8 (x : Word) (y : Word)
  /-- `min.w16`, header 0x101 (R102). -/
  | minW16 (x : Word) (y : Word)
  /-- `min.w32`, header 0x102 (R103). -/
  | minW32 (x : Word) (y : Word)
  /-- `min.w64`, header 0x103 (R104). -/
  | minW64 (x : BitVec 64) (y : BitVec 64)
  /-- `max.w8`, header 0x110 (R105). -/
  | maxW8 (x : Word) (y : Word)
  /-- `max.w16`, header 0x111 (R106). -/
  | maxW16 (x : Word) (y : Word)
  /-- `max.w32`, header 0x112 (R107). -/
  | maxW32 (x : Word) (y : Word)
  /-- `max.w64`, header 0x113 (R108). -/
  | maxW64 (x : BitVec 64) (y : BitVec 64)
  /-- `sadd.w8`, header 0x120 (R109). -/
  | saddW8 (x : Word) (y : Word)
  /-- `sadd.w16`, header 0x121 (R110). -/
  | saddW16 (x : Word) (y : Word)
  /-- `sadd.w32`, header 0x122 (R111). -/
  | saddW32 (x : Word) (y : Word)
  /-- `sadd.w64`, header 0x123 (R112). -/
  | saddW64 (x : BitVec 64) (y : BitVec 64)
  /-- `ssub.w8`, header 0x130 (R113). -/
  | ssubW8 (x : Word) (y : Word)
  /-- `ssub.w16`, header 0x131 (R114). -/
  | ssubW16 (x : Word) (y : Word)
  /-- `ssub.w32`, header 0x132 (R115). -/
  | ssubW32 (x : Word) (y : Word)
  /-- `ssub.w64`, header 0x133 (R116). -/
  | ssubW64 (x : BitVec 64) (y : BitVec 64)
  /-- `bswap.w8`, header 0x140 (R117). -/
  | bswapW8 (x : Word)
  /-- `bswap.w16`, header 0x141 (R118). -/
  | bswapW16 (x : Word)
  /-- `bswap.w32`, header 0x142 (R119). -/
  | bswapW32 (x : Word)
  /-- `bswap.w64`, header 0x143 (R120). -/
  | bswapW64 (x : BitVec 64)
  /-- `lowmask.w8`, header 0x150 (R121). -/
  | lowmaskW8 (n : Word)
  /-- `lowmask.w16`, header 0x151 (R122). -/
  | lowmaskW16 (n : Word)
  /-- `lowmask.w32`, header 0x152 (R123). -/
  | lowmaskW32 (n : Word)
  /-- `lowmask.w64`, header 0x153 (R124). -/
  | lowmaskW64 (n : Word)
  -- RNG, unit 2 (`41_range.md`)
  /-- `rng.isempty.ii32`, header 0x202 (R132). -/
  | rngIsemptyIi32 (r : Range 32)
  /-- `rng.isempty.ie32`, header 0x206 (R133). -/
  | rngIsemptyIe32 (r : Range 32)
  /-- `rng.isempty.ii64`, header 0x203 (R134). -/
  | rngIsemptyIi64 (r : Range 64)
  /-- `rng.isempty.ie64`, header 0x207 (R135). -/
  | rngIsemptyIe64 (r : Range 64)
  /-- `rng.equals.ii32`, header 0x212 (R136). -/
  | rngEqualsIi32 (r : Range 32) (s : Range 32)
  /-- `rng.equals.ie32`, header 0x216 (R137). -/
  | rngEqualsIe32 (r : Range 32) (s : Range 32)
  /-- `rng.equals.ii64`, header 0x213 (R138). -/
  | rngEqualsIi64 (r : Range 64) (s : Range 64)
  /-- `rng.equals.ie64`, header 0x217 (R139). -/
  | rngEqualsIe64 (r : Range 64) (s : Range 64)
  /-- `rng.contains.ii32`, header 0x222 (R140). -/
  | rngContainsIi32 (r : Range 32) (p : Word)
  /-- `rng.contains.ie32`, header 0x226 (R141). -/
  | rngContainsIe32 (r : Range 32) (p : Word)
  /-- `rng.contains.ii64`, header 0x223 (R142). -/
  | rngContainsIi64 (r : Range 64) (p : BitVec 64)
  /-- `rng.contains.ie64`, header 0x227 (R143). -/
  | rngContainsIe64 (r : Range 64) (p : BitVec 64)
  /-- `rng.isect.ii32`, header 0x232 (R144). -/
  | rngIsectIi32 (r : Range 32) (s : Range 32)
  /-- `rng.isect.ie32`, header 0x236 (R145). -/
  | rngIsectIe32 (r : Range 32) (s : Range 32)
  /-- `rng.isect.ii64`, header 0x233 (R146). -/
  | rngIsectIi64 (r : Range 64) (s : Range 64)
  /-- `rng.isect.ie64`, header 0x237 (R147). -/
  | rngIsectIe64 (r : Range 64) (s : Range 64)
  /-- `rng.union.ii32`, header 0x242 (R148). -/
  | rngUnionIi32 (r : Range 32) (s : Range 32)
  /-- `rng.union.ie32`, header 0x246 (R149). -/
  | rngUnionIe32 (r : Range 32) (s : Range 32)
  /-- `rng.union.ii64`, header 0x243 (R150). -/
  | rngUnionIi64 (r : Range 64) (s : Range 64)
  /-- `rng.union.ie64`, header 0x247 (R151). -/
  | rngUnionIe64 (r : Range 64) (s : Range 64)
  /-- `rng.length.ie32`, header 0x256 (R152). -/
  | rngLengthIe32 (r : Range 32)
  /-- `rng.length.ie64`, header 0x257 (R153). -/
  | rngLengthIe64 (r : Range 64)
  -- RCT, unit 3 (`42_rect.md`)
  /-- `rct.isempty.ii32`, header 0x302 (R161). -/
  | rctIsemptyIi32 (r : Rect)
  /-- `rct.isempty.ie32`, header 0x306 (R162). -/
  | rctIsemptyIe32 (r : Rect)
  /-- `rct.equals.ii32`, header 0x312 (R163). -/
  | rctEqualsIi32 (r : Rect) (s : Rect)
  /-- `rct.equals.ie32`, header 0x316 (R164). -/
  | rctEqualsIe32 (r : Rect) (s : Rect)
  /-- `rct.contains.ii32`, header 0x322 (R165). -/
  | rctContainsIi32 (r : Rect) (x : Word) (y : Word)
  /-- `rct.contains.ie32`, header 0x326 (R166). -/
  | rctContainsIe32 (r : Rect) (x : Word) (y : Word)
  /-- `rct.isect.ii32`, header 0x332 (R167). -/
  | rctIsectIi32 (r : Rect) (s : Rect)
  /-- `rct.isect.ie32`, header 0x336 (R168). -/
  | rctIsectIe32 (r : Rect) (s : Rect)
  /-- `rct.union.ii32`, header 0x342 (R169). -/
  | rctUnionIi32 (r : Rect) (s : Rect)
  /-- `rct.union.ie32`, header 0x346 (R170). -/
  | rctUnionIe32 (r : Rect) (s : Rect)
  /-- `rct.width.ie32`, header 0x356 (R171). -/
  | rctWidthIe32 (r : Rect)
  /-- `rct.height.ie32`, header 0x366 (R172). -/
  | rctHeightIe32 (r : Rect)
  -- PXF, unit 4 (`43_pixfmt.md`)
  /-- `pxf.isvalid`, header 0x400 (R185). -/
  | pxfIsvalid (f : Word)
  /-- `pxf.isindexed`, header 0x410 (R186). -/
  | pxfIsindexed (f : Word)
  /-- `pxf.numplanes`, header 0x420 (R187). -/
  | pxfNumplanes (f : Word)
  /-- `pxf.depth`, header 0x430 plus `aux` in bits 15:12 (R51, R188) (R188). -/
  | pxfDepth (aux : BitVec 4) (f : Word)
  -- SWZ, unit 5 (`44_swizzler.md`)
  /-- `swz.prepare`, header 0x500 (R201). -/
  | swzPrepare (dstFormat : Word) (dstPalette : Slice) (srcFormat : Word) (srcPalette : Slice) (blend : Word)
  /-- `swz.swizzle`, header 0x510 (R209). -/
  | swzSwizzle (dst : Slice) (dstPalette : Slice) (src : Slice)
deriving DecidableEq, Repr

end Sys2Proof
end

