-- ==== Sys2Proof/Machine/State.lean ====
section
/-! DEFINITION. The machine's state as plain data (`10_state.md` R10 to R19). The spec's own state is the
swizzler's registers; memory, the command channel and the response channel are the other parts of the spec's step
(R10) and stand here because a step of the model is a function of one state (log entry 1). -/

namespace Sys2Proof.Machine

/-- Why the machine stops without a response. There is no such case: the block has no trap, and an error is a
response after which it takes the next command (`60_exceptions.md` R262, R263, R265). Nobody raises a fault; that
there is none is safe, because every step then has to answer a next state. -/
inductive Fault where
deriving DecidableEq, Repr

/-- Why the model gives a command no meaning. -/
inductive Refusal where
  /-- An arm of `exec` whose command has no meaning yet. No arm raises it. Safe: it stops the run. -/
  | notModelled (mnemonic : String)
deriving DecidableEq, Repr

/-- `SWZ.STATE`, 1 bit (R14, `44_swizzler.md` R200). -/
inductive SwzState where
  /-- 0: no PREPARE has succeeded since reset or since the last failed one. -/
  | unprepared
  /-- 1: the other registers hold a supported triple. -/
  | prepared
deriving DecidableEq, Repr

/-- The swizzler's registers (R14). -/
structure Swizzler where
  /-- `SWZ.STATE`. -/
  state : SwzState
  /-- `SWZ.SRCFMT`, a pixel-format word. -/
  srcFmt : Word
  /-- `SWZ.DSTFMT`, a pixel-format word. -/
  dstFmt : Word
  /-- `SWZ.BLEND`, 1 bit. -/
  blend : BlendMode
  /-- `SWZ.SBPP`, bytes per source pixel. -/
  sbpp : BitVec 3
  /-- `SWZ.DBPP`, bytes per destination pixel. -/
  dbpp : BitVec 3
  /-- `SWZ.SRCPAL[0..1023]`. -/
  srcPal : Palette
deriving DecidableEq, Repr

/-- The host's byte-addressed memory (`20_memory.md` R30): the bytes that are backed, as (address, byte) pairs with
strictly rising addresses. An address that is not listed is not backed: the memory port refuses it (R40 (a), R43;
log entry 6). -/
structure Memory where
  cells : List Host.Cell
deriving DecidableEq, Repr

/-- One move of the host (R10, R19, R40; log entries 1, 4, 5). -/
inductive HostEvent where
  /-- The host sends a command packet (R50). -/
  | command (p : Packet)
  /-- Between two commands the host sets one byte of its memory, or takes the byte's backing away (R17, R40). -/
  | setMem (a : Addr) (b : Option Byte)
  /-- The host resets the block (R19, `70_reset_and_hazards.md` R290). -/
  | reset
deriving DecidableEq, Repr

/-- The state of the machine. -/
structure State where
  /-- The swizzler's registers (R14). -/
  swz : Swizzler
  /-- The host's memory (R17, R30). -/
  mem : Memory
  /-- The host's moves still to come, oldest first. -/
  inbox : List HostEvent
  /-- The responses emitted so far, oldest first (`30_encoding.md` R55). -/
  outbox : List Packet
  /-- The model's own: the number of the next use of the free values of `Config` (log entries 9, 10). -/
  draws : Nat
deriving DecidableEq, Repr

/-- The swizzler after reset (R19, R290): Unprepared. The other registers are unspecified, and the values here are
the model's. DESIGN CHOICE, log entry 7. -/
def Swizzler.reset : Swizzler where
  state := .unprepared
  srcFmt := 0
  dstFmt := 0
  blend := .src
  sbpp := 0
  dbpp := 0
  srcPal := Vector.replicate 1024 0

/-- The machine right after reset (R19, R290): Unprepared, no command in progress, no response pending, no memory
listed. -/
def State.reset : State where
  swz := Swizzler.reset
  mem := ⟨[]⟩
  inbox := []
  outbox := []
  draws := 0

end Sys2Proof.Machine
end

