-- ==== Sys2Proof/Machine/Memory.lean ====
section
/-! DEFINITION. The memory port (`20_memory.md` R30 to R43). Every access is one byte (R33); wider accesses are
sequences of byte accesses at ascending addresses, and end at the first byte the port refuses (R43). -/

namespace Sys2Proof.Machine

/-- What a list of cells holds at an address. -/
def lookup : List Host.Cell → Nat → Option Byte
  | [], _ => none
  | (k, b) :: rest, a => if k = a then some b else lookup rest a

/-- A list of cells with the byte at one address replaced where it is listed. -/
def replaceCell (a : Nat) (b : Byte) : List Host.Cell → List Host.Cell
  | [] => []
  | (k, v) :: rest => (if k = a then (k, b) else (k, v)) :: replaceCell a b rest

/-- A list of cells with one address taken out. -/
def removeCell (a : Nat) : List Host.Cell → List Host.Cell
  | [] => []
  | (k, v) :: rest => if k = a then removeCell a rest else (k, v) :: removeCell a rest

/-- A cell put in its place in a list with rising addresses that does not list its address. -/
def insertCell (a : Nat) (b : Byte) : List Host.Cell → List Host.Cell
  | [] => [(a, b)]
  | (k, v) :: rest => if a < k then (a, b) :: (k, v) :: rest else (k, v) :: insertCell a b rest

/-- The canonical form: addresses strictly rising and inside `U(64)` (R30). An unlisted address reads as no byte, so
no listed byte can equal what an unlisted address reads as. -/
abbrev Memory.wf (m : Memory) : Prop :=
  m.cells.Pairwise (fun p q => p.1 < q.1) ∧ ∀ c ∈ m.cells, c.1 < 2 ^ 64

/-- Read one byte; none where the port refuses the access (R33, R43). -/
def Memory.read (m : Memory) (a : Nat) : Option Byte := lookup m.cells a

/-- Write one byte; none where the port refuses the access (R33, R43). -/
def Memory.write (m : Memory) (a : Nat) (b : Byte) : Option Memory :=
  match m.read a with
  | some _ => some ⟨replaceCell a b m.cells⟩
  | none => none

/-- `MemRead`: `n` byte reads at `a, a+1, ...` (R6, R33); none as soon as one is refused. -/
def Memory.readBytes (m : Memory) (a : Nat) : Nat → Option (List Byte)
  | 0 => some []
  | n + 1 =>
    match m.read a with
    | none => none
    | some b => (m.readBytes (a + 1) n).map (b :: ·)

/-- `MemWrite`: byte writes at `a, a+1, ...` (R6, R33). The answer is the memory left and whether every byte was
accepted; bytes written before a refused one stay written (R43). -/
def Memory.writeBytes (m : Memory) (a : Nat) : List Byte → Memory × Bool
  | [] => (m, true)
  | b :: bs =>
    match m.write a b with
    | none => (m, false)
    | some m' => m'.writeBytes (a + 1) bs

/-- The host sets the byte at an address, or takes the address out of the backed ones (R17, R40). -/
def Memory.hostSet (m : Memory) (a : Nat) (b : Option Byte) : Memory :=
  match b with
  | none => ⟨removeCell a m.cells⟩
  | some v => ⟨insertCell a v (removeCell a m.cells)⟩

/-- The little-endian unsigned integer of some bytes (R6 `MemRead`, R34). -/
def leNat : List Byte → Nat
  | [] => 0
  | b :: bs => b.toNat + 256 * leNat bs

/-- The `n` low bytes of an integer, least significant first (R6 `MemWrite`, R34). -/
def leBytes (v : Nat) : Nat → List Byte
  | 0 => []
  | n + 1 => BitVec.ofNat 8 v :: leBytes (v / 256) n

/-- The slice runs past the end of the address space (R32): `ptr + len > 2^64` on unbounded integers. -/
def sliceWraps (s : Slice) : Bool := decide (s.ptr.toNat + s.len.toNat > 2 ^ params.addrBits)

end Sys2Proof.Machine
end

