-- ==== Sys2Proof/WellFormed.lean ====
section
/-! DEFINITION. Which terms of `Instr` stand for a command. Every operand word may hold anything (R52) and a slice,
a format or a blend word is judged by the command itself, not by its encoding, so the one check is on the header:
the channel index of `pxf.depth` (`30_encoding.md` R51: AUX bits 15:14 are 0; R58). -/

namespace Sys2Proof

/-- The command is one the opcode map can encode (R51, R57, R58). -/
def Instr.wf (i : Instr) : Bool :=
  match i with
  | .minW8 _ _ => true
  | .minW16 _ _ => true
  | .minW32 _ _ => true
  | .minW64 _ _ => true
  | .maxW8 _ _ => true
  | .maxW16 _ _ => true
  | .maxW32 _ _ => true
  | .maxW64 _ _ => true
  | .saddW8 _ _ => true
  | .saddW16 _ _ => true
  | .saddW32 _ _ => true
  | .saddW64 _ _ => true
  | .ssubW8 _ _ => true
  | .ssubW16 _ _ => true
  | .ssubW32 _ _ => true
  | .ssubW64 _ _ => true
  | .bswapW8 _ => true
  | .bswapW16 _ => true
  | .bswapW32 _ => true
  | .bswapW64 _ => true
  | .lowmaskW8 _ => true
  | .lowmaskW16 _ => true
  | .lowmaskW32 _ => true
  | .lowmaskW64 _ => true
  | .rngIsemptyIi32 _ => true
  | .rngIsemptyIe32 _ => true
  | .rngIsemptyIi64 _ => true
  | .rngIsemptyIe64 _ => true
  | .rngEqualsIi32 _ _ => true
  | .rngEqualsIe32 _ _ => true
  | .rngEqualsIi64 _ _ => true
  | .rngEqualsIe64 _ _ => true
  | .rngContainsIi32 _ _ => true
  | .rngContainsIe32 _ _ => true
  | .rngContainsIi64 _ _ => true
  | .rngContainsIe64 _ _ => true
  | .rngIsectIi32 _ _ => true
  | .rngIsectIe32 _ _ => true
  | .rngIsectIi64 _ _ => true
  | .rngIsectIe64 _ _ => true
  | .rngUnionIi32 _ _ => true
  | .rngUnionIe32 _ _ => true
  | .rngUnionIi64 _ _ => true
  | .rngUnionIe64 _ _ => true
  | .rngLengthIe32 _ => true
  | .rngLengthIe64 _ => true
  | .rctIsemptyIi32 _ => true
  | .rctIsemptyIe32 _ => true
  | .rctEqualsIi32 _ _ => true
  | .rctEqualsIe32 _ _ => true
  | .rctContainsIi32 _ _ _ => true
  | .rctContainsIe32 _ _ _ => true
  | .rctIsectIi32 _ _ => true
  | .rctIsectIe32 _ _ => true
  | .rctUnionIi32 _ _ => true
  | .rctUnionIe32 _ _ => true
  | .rctWidthIe32 _ => true
  | .rctHeightIe32 _ => true
  | .pxfIsvalid _ => true
  | .pxfIsindexed _ => true
  | .pxfNumplanes _ => true
  | .pxfDepth aux _ => decide (aux.toNat < 4)
  | .swzPrepare _ _ _ _ _ => true
  | .swzSwizzle _ _ _ => true

end Sys2Proof
end

