-- ==== Sys2Proof/Decode.lean ====
section
/-! DEFINITION. The decoder of command packets, total on every list of words (`30_encoding.md` R57, R58), and after
it the encoder. The opcode map is `rows`, one row per mnemonic, written from R57. -/

namespace Sys2Proof

/-- Why a packet is illegal (R58). The block answers each of the three with `ERR_BAD_COMMAND`. -/
inductive DecodeError where
  /-- The packet has no words. -/
  | emptyPacket
  /-- The header equals no header value of R57. -/
  | unknownHeader
  /-- The packet's length differs from the command length R57 gives for its header. -/
  | wrongLength
deriving DecidableEq, Repr

/-- A 64-bit value from its two words, the low word first in the packet (R53): `{hi, lo}`. -/
def join (lo hi : Word) : BitVec 64 := hi ++ lo

/-- The low word of a 64-bit value (R53). -/
def lo32 (x : BitVec 64) : Word := x.extractLsb' 0 32

/-- The high word of a 64-bit value (R53). -/
def hi32 (x : BitVec 64) : Word := x.extractLsb' 32 32

/-! How each operand list of R54 is read from the operand words (the header is passed first, for `pxf.depth`). -/

/-- One scalar of 32 bits or fewer. -/
def one32 (f : Word → Instr) : Word → List Word → Option Instr
  | _, [x] => some (f x)
  | _, _ => none

/-- One 64-bit scalar. -/
def one64 (f : BitVec 64 → Instr) : Word → List Word → Option Instr
  | _, [x0, x1] => some (f (join x0 x1))
  | _, _ => none

/-- Two scalars of 32 bits or fewer. -/
def two32 (f : Word → Word → Instr) : Word → List Word → Option Instr
  | _, [x, y] => some (f x y)
  | _, _ => none

/-- Two 64-bit scalars. -/
def two64 (f : BitVec 64 → BitVec 64 → Instr) : Word → List Word → Option Instr
  | _, [x0, x1, y0, y1] => some (f (join x0 x1) (join y0 y1))
  | _, _ => none

/-- One range of 32-bit bounds. -/
def range32 (f : Range 32 → Instr) : Word → List Word → Option Instr
  | _, [a, b] => some (f ⟨a, b⟩)
  | _, _ => none

/-- One range of 64-bit bounds. -/
def range64 (f : Range 64 → Instr) : Word → List Word → Option Instr
  | _, [a0, a1, b0, b1] => some (f ⟨join a0 a1, join b0 b1⟩)
  | _, _ => none

/-- Two ranges of 32-bit bounds. -/
def ranges32 (f : Range 32 → Range 32 → Instr) : Word → List Word → Option Instr
  | _, [a, b, c, d] => some (f ⟨a, b⟩ ⟨c, d⟩)
  | _, _ => none

/-- Two ranges of 64-bit bounds. -/
def ranges64 (f : Range 64 → Range 64 → Instr) : Word → List Word → Option Instr
  | _, [a0, a1, b0, b1, c0, c1, d0, d1] =>
    some (f ⟨join a0 a1, join b0 b1⟩ ⟨join c0 c1, join d0 d1⟩)
  | _, _ => none

/-- A range of 32-bit bounds and a point. -/
def rangePoint32 (f : Range 32 → Word → Instr) : Word → List Word → Option Instr
  | _, [a, b, p] => some (f ⟨a, b⟩ p)
  | _, _ => none

/-- A range of 64-bit bounds and a point. -/
def rangePoint64 (f : Range 64 → BitVec 64 → Instr) : Word → List Word → Option Instr
  | _, [a0, a1, b0, b1, p0, p1] => some (f ⟨join a0 a1, join b0 b1⟩ (join p0 p1))
  | _, _ => none

/-- One rectangle. -/
def rect (f : Rect → Instr) : Word → List Word → Option Instr
  | _, [a, b, c, d] => some (f ⟨a, b, c, d⟩)
  | _, _ => none

/-- Two rectangles. -/
def rects (f : Rect → Rect → Instr) : Word → List Word → Option Instr
  | _, [a, b, c, d, a', b', c', d'] => some (f ⟨a, b, c, d⟩ ⟨a', b', c', d'⟩)
  | _, _ => none

/-- A rectangle and a point. -/
def rectPoint (f : Rect → Word → Word → Instr) : Word → List Word → Option Instr
  | _, [a, b, c, d, x, y] => some (f ⟨a, b, c, d⟩ x y)
  | _, _ => none

/-- `pxf.depth`: the AUX field, header bits 15:12, and the format word (R51, R188). -/
def depth (f : BitVec 4 → Word → Instr) : Word → List Word → Option Instr
  | h, [x] => some (f (h.extractLsb' 12 4) x)
  | _, _ => none

/-- `swz.prepare`: `dst_format`, `dst_palette`, `src_format`, `src_palette`, `blend` (R57, R201). -/
def prepare : Word → List Word → Option Instr
  | _, [df, dp0, dp1, dl0, dl1, sf, sp0, sp1, sl0, sl1, bl] =>
    some (.swzPrepare df ⟨join dp0 dp1, join dl0 dl1⟩ sf ⟨join sp0 sp1, join sl0 sl1⟩ bl)
  | _, _ => none

/-- `swz.swizzle`: `dst`, `dst_palette`, `src` (R57, R209). -/
def swizzle : Word → List Word → Option Instr
  | _, [d0, d1, dl0, dl1, p0, p1, pl0, pl1, s0, s1, sl0, sl1] =>
    some (.swzSwizzle ⟨join d0 d1, join dl0 dl1⟩ ⟨join p0 p1, join pl0 pl1⟩
      ⟨join s0 s1, join sl0 sl1⟩)
  | _, _ => none

/-- One row of the opcode map (R57): the header value, the bits of the header that must equal it, the number of
command words, the number of response words, and how the operands are read. -/
structure Row where
  header : Word
  mask : Word
  cmdWords : Nat
  rspWords : Nat
  make : Word → List Word → Option Instr

/-- The header mask of every row but `pxf.depth` (R57). -/
def fullMask : Word := 0xFFFFFFFF

/-- The header mask of `pxf.depth`: bits 13:12 carry the channel index (R57). -/
def depthMask : Word := 0xFFFFCFFF

/-- The rows of NUM, unit 1 (`40_numeric.md`), in the order of R57. -/
def numRows : List Row := [
  ⟨0x100, fullMask, 3, 2, two32 .minW8⟩,
  ⟨0x101, fullMask, 3, 2, two32 .minW16⟩,
  ⟨0x102, fullMask, 3, 2, two32 .minW32⟩,
  ⟨0x103, fullMask, 5, 3, two64 .minW64⟩,
  ⟨0x110, fullMask, 3, 2, two32 .maxW8⟩,
  ⟨0x111, fullMask, 3, 2, two32 .maxW16⟩,
  ⟨0x112, fullMask, 3, 2, two32 .maxW32⟩,
  ⟨0x113, fullMask, 5, 3, two64 .maxW64⟩,
  ⟨0x120, fullMask, 3, 2, two32 .saddW8⟩,
  ⟨0x121, fullMask, 3, 2, two32 .saddW16⟩,
  ⟨0x122, fullMask, 3, 2, two32 .saddW32⟩,
  ⟨0x123, fullMask, 5, 3, two64 .saddW64⟩,
  ⟨0x130, fullMask, 3, 2, two32 .ssubW8⟩,
  ⟨0x131, fullMask, 3, 2, two32 .ssubW16⟩,
  ⟨0x132, fullMask, 3, 2, two32 .ssubW32⟩,
  ⟨0x133, fullMask, 5, 3, two64 .ssubW64⟩,
  ⟨0x140, fullMask, 2, 2, one32 .bswapW8⟩,
  ⟨0x141, fullMask, 2, 2, one32 .bswapW16⟩,
  ⟨0x142, fullMask, 2, 2, one32 .bswapW32⟩,
  ⟨0x143, fullMask, 3, 3, one64 .bswapW64⟩,
  ⟨0x150, fullMask, 2, 2, one32 .lowmaskW8⟩,
  ⟨0x151, fullMask, 2, 2, one32 .lowmaskW16⟩,
  ⟨0x152, fullMask, 2, 2, one32 .lowmaskW32⟩,
  ⟨0x153, fullMask, 2, 3, one32 .lowmaskW64⟩]

/-- The rows of RNG, unit 2 (`41_range.md`), in the order of R57. -/
def rngRows : List Row := [
  ⟨0x202, fullMask, 3, 2, range32 .rngIsemptyIi32⟩,
  ⟨0x206, fullMask, 3, 2, range32 .rngIsemptyIe32⟩,
  ⟨0x203, fullMask, 5, 2, range64 .rngIsemptyIi64⟩,
  ⟨0x207, fullMask, 5, 2, range64 .rngIsemptyIe64⟩,
  ⟨0x212, fullMask, 5, 2, ranges32 .rngEqualsIi32⟩,
  ⟨0x216, fullMask, 5, 2, ranges32 .rngEqualsIe32⟩,
  ⟨0x213, fullMask, 9, 2, ranges64 .rngEqualsIi64⟩,
  ⟨0x217, fullMask, 9, 2, ranges64 .rngEqualsIe64⟩,
  ⟨0x222, fullMask, 4, 2, rangePoint32 .rngContainsIi32⟩,
  ⟨0x226, fullMask, 4, 2, rangePoint32 .rngContainsIe32⟩,
  ⟨0x223, fullMask, 7, 2, rangePoint64 .rngContainsIi64⟩,
  ⟨0x227, fullMask, 7, 2, rangePoint64 .rngContainsIe64⟩,
  ⟨0x232, fullMask, 5, 3, ranges32 .rngIsectIi32⟩,
  ⟨0x236, fullMask, 5, 3, ranges32 .rngIsectIe32⟩,
  ⟨0x233, fullMask, 9, 5, ranges64 .rngIsectIi64⟩,
  ⟨0x237, fullMask, 9, 5, ranges64 .rngIsectIe64⟩,
  ⟨0x242, fullMask, 5, 3, ranges32 .rngUnionIi32⟩,
  ⟨0x246, fullMask, 5, 3, ranges32 .rngUnionIe32⟩,
  ⟨0x243, fullMask, 9, 5, ranges64 .rngUnionIi64⟩,
  ⟨0x247, fullMask, 9, 5, ranges64 .rngUnionIe64⟩,
  ⟨0x256, fullMask, 3, 2, range32 .rngLengthIe32⟩,
  ⟨0x257, fullMask, 5, 3, range64 .rngLengthIe64⟩]

/-- The rows of RCT, unit 3 (`42_rect.md`), in the order of R57. -/
def rctRows : List Row := [
  ⟨0x302, fullMask, 5, 2, rect .rctIsemptyIi32⟩,
  ⟨0x306, fullMask, 5, 2, rect .rctIsemptyIe32⟩,
  ⟨0x312, fullMask, 9, 2, rects .rctEqualsIi32⟩,
  ⟨0x316, fullMask, 9, 2, rects .rctEqualsIe32⟩,
  ⟨0x322, fullMask, 7, 2, rectPoint .rctContainsIi32⟩,
  ⟨0x326, fullMask, 7, 2, rectPoint .rctContainsIe32⟩,
  ⟨0x332, fullMask, 9, 5, rects .rctIsectIi32⟩,
  ⟨0x336, fullMask, 9, 5, rects .rctIsectIe32⟩,
  ⟨0x342, fullMask, 9, 5, rects .rctUnionIi32⟩,
  ⟨0x346, fullMask, 9, 5, rects .rctUnionIe32⟩,
  ⟨0x356, fullMask, 5, 2, rect .rctWidthIe32⟩,
  ⟨0x366, fullMask, 5, 2, rect .rctHeightIe32⟩]

/-- The rows of PXF, unit 4 (`43_pixfmt.md`), in the order of R57. -/
def pxfRows : List Row := [
  ⟨0x400, fullMask, 2, 2, one32 .pxfIsvalid⟩,
  ⟨0x410, fullMask, 2, 2, one32 .pxfIsindexed⟩,
  ⟨0x420, fullMask, 2, 2, one32 .pxfNumplanes⟩,
  ⟨0x430, depthMask, 2, 2, depth .pxfDepth⟩]

/-- The rows of SWZ, unit 5 (`44_swizzler.md`), in the order of R57. -/
def swzRows : List Row := [
  ⟨0x500, fullMask, 12, 1, prepare⟩,
  ⟨0x510, fullMask, 13, 3, swizzle⟩]

/-- The opcode map (R57). -/
def rows : List Row := numRows ++ rngRows ++ rctRows ++ pxfRows ++ swzRows

/-- The row a header belongs to; none if the header is reserved (R57, R59). -/
def findRow (h : Word) : Option Row := rows.find? fun r => h &&& r.mask == r.header

/-- Read one packet: a command with its exact length, or the reason it is illegal (R58, R60). -/
def decode (p : Packet) : Except DecodeError Instr :=
  match p with
  | [] => .error .emptyPacket
  | h :: ops =>
    match findRow h with
    | none => .error .unknownHeader
    | some r =>
      if p.length = r.cmdWords then
        match r.make h ops with
        | some i => .ok i
        | none => .error .wrongLength
      else .error .wrongLength

/-- The number of words of the command with this header (R57, R60); none if the header is reserved. -/
def cmdWords (h : Word) : Option Nat := (findRow h).map (·.cmdWords)

/-- The number of words of the response to the command with this header (R55, R57). -/
def rspWords (h : Word) : Option Nat := (findRow h).map (·.rspWords)

/-- The words of a command: its header, then its operand words (R51 to R54, R57). It is written from the opcode
map's tables, not from `rows`. -/
def encode (i : Instr) : Packet :=
  match i with
  | .minW8 x y => [0x100, x, y]
  | .minW16 x y => [0x101, x, y]
  | .minW32 x y => [0x102, x, y]
  | .minW64 x y => [0x103, lo32 x, hi32 x, lo32 y, hi32 y]
  | .maxW8 x y => [0x110, x, y]
  | .maxW16 x y => [0x111, x, y]
  | .maxW32 x y => [0x112, x, y]
  | .maxW64 x y => [0x113, lo32 x, hi32 x, lo32 y, hi32 y]
  | .saddW8 x y => [0x120, x, y]
  | .saddW16 x y => [0x121, x, y]
  | .saddW32 x y => [0x122, x, y]
  | .saddW64 x y => [0x123, lo32 x, hi32 x, lo32 y, hi32 y]
  | .ssubW8 x y => [0x130, x, y]
  | .ssubW16 x y => [0x131, x, y]
  | .ssubW32 x y => [0x132, x, y]
  | .ssubW64 x y => [0x133, lo32 x, hi32 x, lo32 y, hi32 y]
  | .bswapW8 x => [0x140, x]
  | .bswapW16 x => [0x141, x]
  | .bswapW32 x => [0x142, x]
  | .bswapW64 x => [0x143, lo32 x, hi32 x]
  | .lowmaskW8 n => [0x150, n]
  | .lowmaskW16 n => [0x151, n]
  | .lowmaskW32 n => [0x152, n]
  | .lowmaskW64 n => [0x153, n]
  | .rngIsemptyIi32 r => [0x202, r.lo, r.hi]
  | .rngIsemptyIe32 r => [0x206, r.lo, r.hi]
  | .rngIsemptyIi64 r => [0x203, lo32 r.lo, hi32 r.lo, lo32 r.hi, hi32 r.hi]
  | .rngIsemptyIe64 r => [0x207, lo32 r.lo, hi32 r.lo, lo32 r.hi, hi32 r.hi]
  | .rngEqualsIi32 r s => [0x212, r.lo, r.hi, s.lo, s.hi]
  | .rngEqualsIe32 r s => [0x216, r.lo, r.hi, s.lo, s.hi]
  | .rngEqualsIi64 r s => [0x213, lo32 r.lo, hi32 r.lo, lo32 r.hi, hi32 r.hi, lo32 s.lo, hi32 s.lo, lo32 s.hi, hi32 s.hi]
  | .rngEqualsIe64 r s => [0x217, lo32 r.lo, hi32 r.lo, lo32 r.hi, hi32 r.hi, lo32 s.lo, hi32 s.lo, lo32 s.hi, hi32 s.hi]
  | .rngContainsIi32 r p => [0x222, r.lo, r.hi, p]
  | .rngContainsIe32 r p => [0x226, r.lo, r.hi, p]
  | .rngContainsIi64 r p => [0x223, lo32 r.lo, hi32 r.lo, lo32 r.hi, hi32 r.hi, lo32 p, hi32 p]
  | .rngContainsIe64 r p => [0x227, lo32 r.lo, hi32 r.lo, lo32 r.hi, hi32 r.hi, lo32 p, hi32 p]
  | .rngIsectIi32 r s => [0x232, r.lo, r.hi, s.lo, s.hi]
  | .rngIsectIe32 r s => [0x236, r.lo, r.hi, s.lo, s.hi]
  | .rngIsectIi64 r s => [0x233, lo32 r.lo, hi32 r.lo, lo32 r.hi, hi32 r.hi, lo32 s.lo, hi32 s.lo, lo32 s.hi, hi32 s.hi]
  | .rngIsectIe64 r s => [0x237, lo32 r.lo, hi32 r.lo, lo32 r.hi, hi32 r.hi, lo32 s.lo, hi32 s.lo, lo32 s.hi, hi32 s.hi]
  | .rngUnionIi32 r s => [0x242, r.lo, r.hi, s.lo, s.hi]
  | .rngUnionIe32 r s => [0x246, r.lo, r.hi, s.lo, s.hi]
  | .rngUnionIi64 r s => [0x243, lo32 r.lo, hi32 r.lo, lo32 r.hi, hi32 r.hi, lo32 s.lo, hi32 s.lo, lo32 s.hi, hi32 s.hi]
  | .rngUnionIe64 r s => [0x247, lo32 r.lo, hi32 r.lo, lo32 r.hi, hi32 r.hi, lo32 s.lo, hi32 s.lo, lo32 s.hi, hi32 s.hi]
  | .rngLengthIe32 r => [0x256, r.lo, r.hi]
  | .rngLengthIe64 r => [0x257, lo32 r.lo, hi32 r.lo, lo32 r.hi, hi32 r.hi]
  | .rctIsemptyIi32 r => [0x302, r.minX, r.minY, r.maxX, r.maxY]
  | .rctIsemptyIe32 r => [0x306, r.minX, r.minY, r.maxX, r.maxY]
  | .rctEqualsIi32 r s => [0x312, r.minX, r.minY, r.maxX, r.maxY, s.minX, s.minY, s.maxX, s.maxY]
  | .rctEqualsIe32 r s => [0x316, r.minX, r.minY, r.maxX, r.maxY, s.minX, s.minY, s.maxX, s.maxY]
  | .rctContainsIi32 r x y => [0x322, r.minX, r.minY, r.maxX, r.maxY, x, y]
  | .rctContainsIe32 r x y => [0x326, r.minX, r.minY, r.maxX, r.maxY, x, y]
  | .rctIsectIi32 r s => [0x332, r.minX, r.minY, r.maxX, r.maxY, s.minX, s.minY, s.maxX, s.maxY]
  | .rctIsectIe32 r s => [0x336, r.minX, r.minY, r.maxX, r.maxY, s.minX, s.minY, s.maxX, s.maxY]
  | .rctUnionIi32 r s => [0x342, r.minX, r.minY, r.maxX, r.maxY, s.minX, s.minY, s.maxX, s.maxY]
  | .rctUnionIe32 r s => [0x346, r.minX, r.minY, r.maxX, r.maxY, s.minX, s.minY, s.maxX, s.maxY]
  | .rctWidthIe32 r => [0x356, r.minX, r.minY, r.maxX, r.maxY]
  | .rctHeightIe32 r => [0x366, r.minX, r.minY, r.maxX, r.maxY]
  | .pxfIsvalid f => [0x400, f]
  | .pxfIsindexed f => [0x410, f]
  | .pxfNumplanes f => [0x420, f]
  | .pxfDepth aux f => [(0x430 : Word) + (aux.setWidth 32 <<< 12), f]
  | .swzPrepare dstFormat dstPalette srcFormat srcPalette blend => [0x500, dstFormat, lo32 dstPalette.ptr, hi32 dstPalette.ptr, lo32 dstPalette.len, hi32 dstPalette.len, srcFormat, lo32 srcPalette.ptr, hi32 srcPalette.ptr, lo32 srcPalette.len, hi32 srcPalette.len, blend]
  | .swzSwizzle dst dstPalette src => [0x510, lo32 dst.ptr, hi32 dst.ptr, lo32 dst.len, hi32 dst.len, lo32 dstPalette.ptr, hi32 dstPalette.ptr, lo32 dstPalette.len, hi32 dstPalette.len, lo32 src.ptr, hi32 src.ptr, lo32 src.len, hi32 src.len]

/-- The first `n` words of an instruction of which the bits `w`, `nbits` of them, are given: the header is the low word,
and every bit above `nbits` is 0. -/
def tableWords : (n nbits w : Nat) → Packet
  | 0, _, _ => []
  | n + 1, nbits, w => BitVec.ofNat 32 (w % 2 ^ min nbits 32) :: tableWords n (nbits - 32) (w / 2 ^ 32)

/-- The packet that carries the bits `w` of an instruction whose row gives `nbits` of them: a packet has the length its
header calls for (the transport gives every packet its length, R50), the words above `nbits` being zero; a packet with a
reserved header has the words `nbits` covers. -/
def tablePacket (nbits w : Nat) : Packet :=
  let given := max 1 ((nbits + 31) / 32)
  tableWords (max given ((cmdWords (BitVec.ofNat 32 (w % 2 ^ min nbits 32))).getD given)) nbits w

/-- What the decoder reads from the instruction whose bits are `w` (bit 0 the least significant of the header). -/
def decodeTableWord (nbits w : Nat) : Option Instr :=
  match decode (tablePacket nbits w) with
  | .ok i => some i
  | .error _ => none

end Sys2Proof
end

