-- ==== Sys2Proof/Machine/Operands.lean ====
section
/-! DEFINITION. How a scalar operand's value is taken from its word and how a scalar result is packed into words
(`30_encoding.md` R52, R53). -/

namespace Sys2Proof.Machine

/-- The value of a scalar operand of `w` bits, `w` at most 32: `word[w-1:0]`, the bits above ignored (R52). -/
def scalar (w : Nat) (x : Word) : BitVec w := x.setWidth w

/-- The words of a scalar result of `w` bits: one word, zero-extended, up to 32 bits (R52), else two words, the low
one first (R53). -/
def packScalar {w : Nat} (v : BitVec w) : List Word :=
  if w ≤ 32 then [v.setWidth 32] else [v.extractLsb' 0 32, v.extractLsb' 32 32]

/-- The words of a range result, its fields in order (R54, R130). -/
def packRange {w : Nat} (r : Range w) : List Word := packScalar r.lo ++ packScalar r.hi

/-- The words of a rectangle result, its fields in order (R54, R160). -/
def packRect (r : Rect) : List Word := [r.minX, r.minY, r.maxX, r.maxY]

end Sys2Proof.Machine
end

