-- ==== Sys2Proof/Machine/Ops.lean ====
section
/-! DEFINITION. The operations every command shares: emitting a response, taking an error, and what the host's own
moves do. -/

namespace Sys2Proof.Machine

/-- What a command or a step answers. -/
abbrev Result := Host.Outcome State Fault Refusal

/-- The state with one more response emitted (`30_encoding.md` R55). -/
def State.emit (s : State) (p : Packet) : State :=
  ⟨s.swz, s.mem, s.inbox, s.outbox ++ [p], s.draws⟩

/-- `respond(OK, results)`: end the command with its results (R55, R6). -/
def answer (results : List Word) (s : State) : Result :=
  .next (s.emit (Status.ok.word :: results))

/-- `respond(OK, b)` with a boolean result (R56). -/
def answerBool (b : Bool) (s : State) : Result := answer [boolWord b] s

/-- `respond(e, results)`: taking an error, the block's whole exception entry (`60_exceptions.md` R262, R265): the
command stops and its response has the error status and these result words. The state effects of R262 are in `s`
already. There is no return from it (R266): the next command starts fresh. -/
def takeError (e : Status) (results : List Word) (s : State) : Result :=
  .next (s.emit (e.word :: results))

/-- `fail(e)` of a command with `n` result words: they are all 0 (R262, R6). -/
def fail (e : Status) (n : Nat) (s : State) : Result := takeError e (List.replicate n 0) s

/-- Unprepared, with every other register unspecified: free values (`44_swizzler.md` R208, `60_exceptions.md` R262,
R290; log entry 9). -/
def unspecified (n : Nat) : Swizzler where
  state := .unprepared
  srcFmt := Config.freeSrcFmt n
  dstFmt := Config.freeDstFmt n
  blend := Config.freeBlend n
  sbpp := Config.freeSbpp n
  dbpp := Config.freeDbpp n
  srcPal := Config.freeSrcPal n

/-- The state with the swizzler Unprepared and its other registers unspecified (R208, R290). -/
def State.unprepare (s : State) : State :=
  ⟨unspecified s.draws, s.mem, s.inbox, s.outbox, s.draws + 1⟩

/-- The state with the swizzler's registers written. -/
def State.setSwz (s : State) (z : Swizzler) : State := ⟨z, s.mem, s.inbox, s.outbox, s.draws⟩

/-- The state with the memory written. -/
def State.setMemory (s : State) (m : Memory) : State := ⟨s.swz, m, s.inbox, s.outbox, s.draws⟩

/-- The state with the host's moves still to come replaced. -/
def State.setInbox (s : State) (q : List HostEvent) : State := ⟨s.swz, s.mem, q, s.outbox, s.draws⟩

/-- The answer to an illegal packet: the status word alone; no state changes and no memory access is made
(`30_encoding.md` R58, R55). -/
def rejectPacket (s : State) : Result := takeError .badCommand [] s

/-- The host's change of one byte of its memory (R17, R40; log entry 4). -/
def hostSetMem (a : Addr) (b : Option Byte) (s : State) : Result :=
  .next (s.setMemory (s.mem.hostSet a.toNat b))

/-- Reset of a running block: Unprepared, the other registers unspecified, memory not touched (R19, R290; log
entries 5 and 9). -/
def hostReset (s : State) : Result := .next s.unprepare

/-- With no move of the host waiting the block is idle (`60_exceptions.md` R263; log entry 3). -/
def idle (s : State) : Result := .next s

end Sys2Proof.Machine
end

