-- ==== Sys2Proof/Machine/Num.lean ====
section
/-! DEFINITION. The NUM unit (`40_numeric.md` R100 to R126). -/

namespace Sys2Proof.Machine

/-- The lesser of two unsigned values (R101 to R104). -/
def umin {w : Nat} (x y : BitVec w) : BitVec w := if x < y then x else y

/-- The greater of two unsigned values (R105 to R108). -/
def umax {w : Nat} (x y : BitVec w) : BitVec w := if x > y then x else y

/-- Saturating add: the sum on unbounded integers, or the greatest value where it does not fit (R109 to R112). -/
def satAdd {w : Nat} (x y : BitVec w) : BitVec w :=
  if x.toNat + y.toNat > 2 ^ w - 1 then BitVec.ofNat w (2 ^ w - 1) else BitVec.ofNat w (x.toNat + y.toNat)

/-- Saturating subtract: 0 where the difference is negative (R113 to R116). -/
def satSub {w : Nat} (x y : BitVec w) : BitVec w := if x < y then 0 else x - y

/-- The two bytes of a value in reverse order (R118). -/
def bswap16 (x : BitVec 16) : BitVec 16 := x.extractLsb' 0 8 ++ x.extractLsb' 8 8

/-- The four bytes of a value in reverse order (R119). -/
def bswap32 (x : BitVec 32) : BitVec 32 :=
  x.extractLsb' 0 8 ++ x.extractLsb' 8 8 ++ x.extractLsb' 16 8 ++ x.extractLsb' 24 8

/-- The eight bytes of a value in reverse order (R120). -/
def bswap64 (x : BitVec 64) : BitVec 64 :=
  x.extractLsb' 0 8 ++ x.extractLsb' 8 8 ++ x.extractLsb' 16 8 ++ x.extractLsb' 24 8
    ++ x.extractLsb' 32 8 ++ x.extractLsb' 40 8 ++ x.extractLsb' 48 8 ++ x.extractLsb' 56 8

/-- Entry `n` of the low-bits mask table of width `w` (R121 to R124): `n` is the whole operand word, and an index past
the table's end is `ERR_BAD_ARGUMENT`. -/
def lowmask (w : Nat) (n : Word) (s : State) : Result :=
  if n.toNat > w then fail .badArgument (packScalar (0 : BitVec w)).length s
  else answer (packScalar (BitVec.ofNat w (2 ^ n.toNat - 1))) s

/-- `min.w8` (R101). -/
def execMinW8 (x y : Word) (s : State) : Result :=
  answer (packScalar (umin (scalar 8 x) (scalar 8 y))) s

/-- `min.w16` (R102). -/
def execMinW16 (x y : Word) (s : State) : Result :=
  answer (packScalar (umin (scalar 16 x) (scalar 16 y))) s

/-- `min.w32` (R103). -/
def execMinW32 (x y : Word) (s : State) : Result :=
  answer (packScalar (umin (scalar 32 x) (scalar 32 y))) s

/-- `min.w64` (R104). -/
def execMinW64 (x y : BitVec 64) (s : State) : Result :=
  answer (packScalar (umin x y)) s

/-- `max.w8` (R105). -/
def execMaxW8 (x y : Word) (s : State) : Result :=
  answer (packScalar (umax (scalar 8 x) (scalar 8 y))) s

/-- `max.w16` (R106). -/
def execMaxW16 (x y : Word) (s : State) : Result :=
  answer (packScalar (umax (scalar 16 x) (scalar 16 y))) s

/-- `max.w32` (R107). -/
def execMaxW32 (x y : Word) (s : State) : Result :=
  answer (packScalar (umax (scalar 32 x) (scalar 32 y))) s

/-- `max.w64` (R108). -/
def execMaxW64 (x y : BitVec 64) (s : State) : Result :=
  answer (packScalar (umax x y)) s

/-- `sadd.w8` (R109). -/
def execSaddW8 (x y : Word) (s : State) : Result :=
  answer (packScalar (satAdd (scalar 8 x) (scalar 8 y))) s

/-- `sadd.w16` (R110). -/
def execSaddW16 (x y : Word) (s : State) : Result :=
  answer (packScalar (satAdd (scalar 16 x) (scalar 16 y))) s

/-- `sadd.w32` (R111). -/
def execSaddW32 (x y : Word) (s : State) : Result :=
  answer (packScalar (satAdd (scalar 32 x) (scalar 32 y))) s

/-- `sadd.w64` (R112). -/
def execSaddW64 (x y : BitVec 64) (s : State) : Result :=
  answer (packScalar (satAdd x y)) s

/-- `ssub.w8` (R113). -/
def execSsubW8 (x y : Word) (s : State) : Result :=
  answer (packScalar (satSub (scalar 8 x) (scalar 8 y))) s

/-- `ssub.w16` (R114). -/
def execSsubW16 (x y : Word) (s : State) : Result :=
  answer (packScalar (satSub (scalar 16 x) (scalar 16 y))) s

/-- `ssub.w32` (R115). -/
def execSsubW32 (x y : Word) (s : State) : Result :=
  answer (packScalar (satSub (scalar 32 x) (scalar 32 y))) s

/-- `ssub.w64` (R116). -/
def execSsubW64 (x y : BitVec 64) (s : State) : Result :=
  answer (packScalar (satSub x y)) s

/-- `bswap.w8` (R117). -/
def execBswapW8 (x : Word) (s : State) : Result :=
  answer (packScalar (scalar 8 x)) s

/-- `bswap.w16` (R118). -/
def execBswapW16 (x : Word) (s : State) : Result :=
  answer (packScalar (bswap16 (scalar 16 x))) s

/-- `bswap.w32` (R119). -/
def execBswapW32 (x : Word) (s : State) : Result :=
  answer (packScalar (bswap32 (scalar 32 x))) s

/-- `bswap.w64` (R120). -/
def execBswapW64 (x : BitVec 64) (s : State) : Result :=
  answer (packScalar (bswap64 x)) s

/-- `lowmask.w8` (R121). -/
def execLowmaskW8 (n : Word) (s : State) : Result :=
  lowmask 8 n s

/-- `lowmask.w16` (R122). -/
def execLowmaskW16 (n : Word) (s : State) : Result :=
  lowmask 16 n s

/-- `lowmask.w32` (R123). -/
def execLowmaskW32 (n : Word) (s : State) : Result :=
  lowmask 32 n s

/-- `lowmask.w64` (R124). -/
def execLowmaskW64 (n : Word) (s : State) : Result :=
  lowmask 64 n s

end Sys2Proof.Machine
end

