-- ==== Sys2Proof/Machine/PixFmt.lean ====
section
/-! DEFINITION. The pixel-format word: its fields, the depth table, and what the swizzler admits (`43_pixfmt.md` R180
to R184, `44_swizzler.md` R203 to R206, R216). -/

namespace Sys2Proof.Machine

/-- The value of a bit field of a word (`00_scope.md` R5, `v[hi:lo]`). -/
def bits (b : BitField) (f : Word) : Nat := f.toNat / 2 ^ b.lo % 2 ^ b.width

/-- `pf_res(f)`: the reserved bits `{f[31], f[27:26]}` (R180). -/
def pfRes (f : Word) : Nat :=
  bits params.pxfLayout.reservedHi f * 2 ^ params.pxfLayout.reservedLo.width
    + bits params.pxfLayout.reservedLo f

/-- `pf_model(f)`: the colour model (R180, R181). -/
def pfModel (f : Word) : Nat := bits params.pxfLayout.model f

/-- `pf_transp(f)`: the transparency code (R180, R182). -/
def pfTransp (f : Word) : Nat := bits params.pxfLayout.transp f

/-- `pf_bigendian(f)` (R180). -/
def pfBigEndian (f : Word) : Nat := bits params.pxfLayout.bigEndian f

/-- `pf_float(f)` (R180). -/
def pfFloat (f : Word) : Nat := bits params.pxfLayout.float f

/-- `pf_planes_m1(f)`: the plane count less 1 (R180). -/
def pfPlanesM1 (f : Word) : Nat := bits params.pxfLayout.planesM1 f

/-- `pf_index_code(f)`: the depth code of the palette index, 0 where the format is not indexed (R180). -/
def pfIndexCode (f : Word) : Nat := bits params.pxfLayout.indexCode f

/-- `pf_depth_code(f, k)`: the depth code of channel `k` (R180). -/
def pfDepthCode (f : Word) (k : Nat) : Nat :=
  bits ⟨params.pxfLayout.depth0.lo + 4 * k, params.pxfLayout.depth0.width⟩ f

/-- `DEPTH_LUT`: the depth in bits of each depth code (R183). -/
def depthLut : List Nat := [0, 1, 2, 3, 4, 5, 6, 7, 8, 10, 12, 16, 24, 32, 48, 64]

/-- `d_k`: the depth in bits of channel `k` (R183, R203). -/
def chanDepth (f : Word) (k : Nat) : Nat := depthLut.getD (pfDepthCode f k) 0

/-- A format is indexed when its index depth code is not 0 (R186, R202). -/
def isIndexed (f : Word) : Bool := pfIndexCode f != 0

/-- The number of planes: 0 for the zero word, else the plane-count field plus 1 (R187). -/
def numPlanes (f : Word) : Nat := if f = 0 then 0 else pfPlanesM1 f + 1

/-- `nchan(f)`: colour channels plus the extra channel (R203). -/
def nchan (f : Word) : Nat :=
  (if pfModel f = 1 then 1 else 3) + (if pfTransp f = 0 then 0 else 1)

/-- The bits of a pixel of a direct format: `d_0 + d_1 + d_2 + d_3` (R203, R206). -/
def pixelBits (f : Word) : Nat := chanDepth f 0 + chanDepth f 1 + chanDepth f 2 + chanDepth f 3

/-- The check of R203 on channel `k`: a present channel has 1 to 8 bits, an absent one the depth code 0. -/
def chanOk (f : Word) (k : Nat) : Bool :=
  if k < nchan f then decide (1 ≤ chanDepth f k ∧ chanDepth f k ≤ 8) else pfDepthCode f k == 0

/-- The conditions R203 and R204 share: not the zero word, no reserved bit, little-endian, integer, one plane. -/
def plainFormat (f : Word) : Bool :=
  f != 0 && pfRes f == 0 && pfBigEndian f == 0 && pfFloat f == 0 && pfPlanesM1 f == 0

/-- `direct_ok(f)`: the admitted direct formats (R203). -/
def directOk (f : Word) : Bool :=
  plainFormat f && pfIndexCode f == 0
    && (pfModel f == 1 || pfModel f == 2 || pfModel f == 3)
    && chanOk f 0 && chanOk f 1 && chanOk f 2 && chanOk f 3
    && pixelBits f % 8 == 0

/-- `indexed_ok(f)`: the admitted indexed source formats (R204). -/
def indexedOk (f : Word) : Bool :=
  plainFormat f && pfIndexCode f == 8 && (pfModel f == 2 || pfModel f == 3)
    && pfDepthCode f 0 == 8 && pfDepthCode f 1 == 8 && pfDepthCode f 2 == 8
    && pfDepthCode f 3 == (if pfTransp f = 0 then 0 else 8)

/-- `src_ok(f)` (R205). -/
def srcOk (f : Word) : Bool := directOk f || indexedOk f

/-- `supported(src_format, dst_format, blend)`, `blend` the whole operand word (R205). -/
def supported (srcFormat dstFormat blend : Word) : Bool :=
  (blend == 0 || blend == 1) && directOk dstFormat && srcOk srcFormat
    && (pfModel dstFormat != 1 || pfModel srcFormat == 1)

/-- `bpp(f)`: bytes per pixel (R206). -/
def bpp (f : Word) : Nat := if indexedOk f then 1 else pixelBits f / 8

/-- The alpha kind of a format (R216). -/
inductive AlphaKind where
  | opaqueKind
  | nonpremul
  | premul
deriving DecidableEq, Repr

/-- `alpha_kind(f)` (R216). -/
def alphaKind (f : Word) : AlphaKind :=
  if pfTransp f = 2 then .nonpremul else if pfTransp f = 3 then .premul else .opaqueKind

end Sys2Proof.Machine
end

