-- ==== Sys2Proof/Machine/Pxf.lean ====
section
/-! DEFINITION. The PXF unit: the accessors of a pixel-format word, total on every word (`43_pixfmt.md` R184 to
R188). -/

namespace Sys2Proof.Machine

/-- `pxf.isvalid` (R185). -/
def execPxfIsvalid (f : Word) (s : State) : Result := answerBool (f != 0) s

/-- `pxf.isindexed` (R186). -/
def execPxfIsindexed (f : Word) (s : State) : Result := answerBool (isIndexed f) s

/-- `pxf.numplanes` (R187). -/
def execPxfNumplanes (f : Word) (s : State) : Result := answer [BitVec.ofNat 32 (numPlanes f)] s

/-- `pxf.depth.k` (R188): the channel index `k` is header bits 13:12, the low two bits of AUX (R51). -/
def execPxfDepth (aux : BitVec 4) (f : Word) (s : State) : Result :=
  answer [BitVec.ofNat 32 (chanDepth f (aux.toNat % 4))] s

end Sys2Proof.Machine
end

