-- ==== Sys2Proof/Machine/Rng.lean ====
section
/-! DEFINITION. The RNG unit: one-dimensional ranges (`41_range.md` R130 to R154). -/

namespace Sys2Proof.Machine

/-- `empty_ii` and `empty_ie` (R131). -/
def rangeEmpty {w : Nat} (k : BoundKind) (r : Range w) : Bool :=
  match k with
  | .ii => decide (r.lo > r.hi)
  | .ie => decide (r.lo ≥ r.hi)

/-- Two ranges are equal when their fields are or when both are empty (R136 to R139). -/
def rangeEquals {w : Nat} (k : BoundKind) (r s : Range w) : Bool :=
  (r.lo == s.lo && r.hi == s.hi) || (rangeEmpty k r && rangeEmpty k s)

/-- A range contains its lower bound and, if closed, its upper one (R140 to R143). -/
def rangeContains {w : Nat} (k : BoundKind) (r : Range w) (p : BitVec w) : Bool :=
  match k with
  | .ii => decide (r.lo ≤ p) && decide (p ≤ r.hi)
  | .ie => decide (r.lo ≤ p) && decide (p < r.hi)

/-- The greater of the lower bounds and the lesser of the upper bounds (R144 to R147); both bound kinds alike. -/
def rangeIsect {w : Nat} (r s : Range w) : Range w := ⟨umax r.lo s.lo, umin r.hi s.hi⟩

/-- The other operand verbatim where one is empty, the first tested first; else the hull (R148 to R151). -/
def rangeUnion {w : Nat} (k : BoundKind) (r s : Range w) : Range w :=
  if rangeEmpty k r then s else if rangeEmpty k s then r
  else ⟨umin r.lo s.lo, umax r.hi s.hi⟩

/-- The length of a half-open range: the saturating difference of its bounds (R152, R153). -/
def rangeLength {w : Nat} (r : Range w) : BitVec w := satSub r.hi r.lo

/-- `rng.isempty.ii32` (R132). -/
def execRngIsemptyIi32 (r : Range 32) (s : State) : Result :=
  answerBool (rangeEmpty .ii r) s

/-- `rng.isempty.ie32` (R133). -/
def execRngIsemptyIe32 (r : Range 32) (s : State) : Result :=
  answerBool (rangeEmpty .ie r) s

/-- `rng.isempty.ii64` (R134). -/
def execRngIsemptyIi64 (r : Range 64) (s : State) : Result :=
  answerBool (rangeEmpty .ii r) s

/-- `rng.isempty.ie64` (R135). -/
def execRngIsemptyIe64 (r : Range 64) (s : State) : Result :=
  answerBool (rangeEmpty .ie r) s

/-- `rng.equals.ii32` (R136). -/
def execRngEqualsIi32 (r t : Range 32) (s : State) : Result :=
  answerBool (rangeEquals .ii r t) s

/-- `rng.equals.ie32` (R137). -/
def execRngEqualsIe32 (r t : Range 32) (s : State) : Result :=
  answerBool (rangeEquals .ie r t) s

/-- `rng.equals.ii64` (R138). -/
def execRngEqualsIi64 (r t : Range 64) (s : State) : Result :=
  answerBool (rangeEquals .ii r t) s

/-- `rng.equals.ie64` (R139). -/
def execRngEqualsIe64 (r t : Range 64) (s : State) : Result :=
  answerBool (rangeEquals .ie r t) s

/-- `rng.contains.ii32` (R140). -/
def execRngContainsIi32 (r : Range 32) (p : Word) (s : State) : Result :=
  answerBool (rangeContains .ii r (scalar 32 p)) s

/-- `rng.contains.ie32` (R141). -/
def execRngContainsIe32 (r : Range 32) (p : Word) (s : State) : Result :=
  answerBool (rangeContains .ie r (scalar 32 p)) s

/-- `rng.contains.ii64` (R142). -/
def execRngContainsIi64 (r : Range 64) (p : BitVec 64) (s : State) : Result :=
  answerBool (rangeContains .ii r p) s

/-- `rng.contains.ie64` (R143). -/
def execRngContainsIe64 (r : Range 64) (p : BitVec 64) (s : State) : Result :=
  answerBool (rangeContains .ie r p) s

/-- `rng.isect.ii32` (R144). -/
def execRngIsectIi32 (r t : Range 32) (s : State) : Result :=
  answer (packRange (rangeIsect r t)) s

/-- `rng.isect.ie32` (R145). -/
def execRngIsectIe32 (r t : Range 32) (s : State) : Result :=
  answer (packRange (rangeIsect r t)) s

/-- `rng.isect.ii64` (R146). -/
def execRngIsectIi64 (r t : Range 64) (s : State) : Result :=
  answer (packRange (rangeIsect r t)) s

/-- `rng.isect.ie64` (R147). -/
def execRngIsectIe64 (r t : Range 64) (s : State) : Result :=
  answer (packRange (rangeIsect r t)) s

/-- `rng.union.ii32` (R148). -/
def execRngUnionIi32 (r t : Range 32) (s : State) : Result :=
  answer (packRange (rangeUnion .ii r t)) s

/-- `rng.union.ie32` (R149). -/
def execRngUnionIe32 (r t : Range 32) (s : State) : Result :=
  answer (packRange (rangeUnion .ie r t)) s

/-- `rng.union.ii64` (R150). -/
def execRngUnionIi64 (r t : Range 64) (s : State) : Result :=
  answer (packRange (rangeUnion .ii r t)) s

/-- `rng.union.ie64` (R151). -/
def execRngUnionIe64 (r t : Range 64) (s : State) : Result :=
  answer (packRange (rangeUnion .ie r t)) s

/-- `rng.length.ie32` (R152). -/
def execRngLengthIe32 (r : Range 32) (s : State) : Result :=
  answer (packScalar (rangeLength r)) s

/-- `rng.length.ie64` (R153). -/
def execRngLengthIe64 (r : Range 64) (s : State) : Result :=
  answer (packScalar (rangeLength r)) s

end Sys2Proof.Machine
end

