-- ==== Sys2Proof/Machine/Rct.lean ====
section
/-! DEFINITION. The RCT unit: two-dimensional rectangles (`42_rect.md` R160 to R175). X increases right and Y
increases down (R173), which changes no arithmetic. -/

namespace Sys2Proof.Machine

/-- The X axis of a rectangle as a range (R160). -/
def xAxis (r : Rect) : Range 32 := ⟨r.minX, r.maxX⟩

/-- The Y axis of a rectangle as a range (R160). -/
def yAxis (r : Rect) : Range 32 := ⟨r.minY, r.maxY⟩

/-- The rectangle of two axes (R160). -/
def ofAxes (x y : Range 32) : Rect := ⟨x.lo, y.lo, x.hi, y.hi⟩

/-- A rectangle is empty when either axis is (R174). -/
def rectEmpty (k : BoundKind) (r : Rect) : Bool := rangeEmpty k (xAxis r) || rangeEmpty k (yAxis r)

/-- Two rectangles are equal when their fields are or when both are empty as a whole (R163, R164). -/
def rectEquals (k : BoundKind) (r s : Rect) : Bool :=
  (r.minX == s.minX && r.minY == s.minY && r.maxX == s.maxX && r.maxY == s.maxY)
    || (rectEmpty k r && rectEmpty k s)

/-- A rectangle contains a point when both axes do (R165, R166). -/
def rectContains (k : BoundKind) (r : Rect) (x y : Word) : Bool :=
  rangeContains k (xAxis r) x && rangeContains k (yAxis r) y

/-- Each axis intersected on its own (R167, R168). -/
def rectIsect (r s : Rect) : Rect :=
  ofAxes (rangeIsect (xAxis r) (xAxis s)) (rangeIsect (yAxis r) (yAxis s))

/-- The other operand verbatim where one is empty as a whole, the first tested first; else the bounding box (R169,
R170). -/
def rectUnion (k : BoundKind) (r s : Rect) : Rect :=
  if rectEmpty k r then s else if rectEmpty k s then r
  else ⟨umin r.minX s.minX, umin r.minY s.minY, umax r.maxX s.maxX, umax r.maxY s.maxY⟩

/-- `rct.isempty.ii32` (R161). -/
def execRctIsemptyIi32 (r : Rect) (s : State) : Result :=
  answerBool (rectEmpty .ii r) s

/-- `rct.isempty.ie32` (R162). -/
def execRctIsemptyIe32 (r : Rect) (s : State) : Result :=
  answerBool (rectEmpty .ie r) s

/-- `rct.equals.ii32` (R163). -/
def execRctEqualsIi32 (r t : Rect) (s : State) : Result :=
  answerBool (rectEquals .ii r t) s

/-- `rct.equals.ie32` (R164). -/
def execRctEqualsIe32 (r t : Rect) (s : State) : Result :=
  answerBool (rectEquals .ie r t) s

/-- `rct.contains.ii32` (R165). -/
def execRctContainsIi32 (r : Rect) (x y : Word) (s : State) : Result :=
  answerBool (rectContains .ii r (scalar 32 x) (scalar 32 y)) s

/-- `rct.contains.ie32` (R166). -/
def execRctContainsIe32 (r : Rect) (x y : Word) (s : State) : Result :=
  answerBool (rectContains .ie r (scalar 32 x) (scalar 32 y)) s

/-- `rct.isect.ii32` (R167). -/
def execRctIsectIi32 (r t : Rect) (s : State) : Result :=
  answer (packRect (rectIsect r t)) s

/-- `rct.isect.ie32` (R168). -/
def execRctIsectIe32 (r t : Rect) (s : State) : Result :=
  answer (packRect (rectIsect r t)) s

/-- `rct.union.ii32` (R169). -/
def execRctUnionIi32 (r t : Rect) (s : State) : Result :=
  answer (packRect (rectUnion .ii r t)) s

/-- `rct.union.ie32` (R170). -/
def execRctUnionIe32 (r t : Rect) (s : State) : Result :=
  answer (packRect (rectUnion .ie r t)) s

/-- `rct.width.ie32` (R171). -/
def execRctWidthIe32 (r : Rect) (s : State) : Result :=
  answer (packScalar (rangeLength (xAxis r))) s

/-- `rct.height.ie32` (R172). -/
def execRctHeightIe32 (r : Rect) (s : State) : Result :=
  answer (packScalar (rangeLength (yAxis r))) s

end Sys2Proof.Machine
end

