-- ==== Sys2Proof/Machine/Pixel.lean ====
section
/-! DEFINITION. One pixel: widening and narrowing, the canonical pixel, premultiplying, the two blend modes, and the
pixel word (`44_swizzler.md` R213 to R221). -/

namespace Sys2Proof.Machine

/-- The canonical pixel: four 8-bit values (R215). -/
structure Pixel where
  r : Byte
  g : Byte
  b : Byte
  a : Byte
deriving DecidableEq, Repr

/-- The loop of `widen8` (R214): repeat the `d`-bit pattern `v` until 8 bits or more are filled. `acc` is what is
filled, `n` how many bits. A depth of at least 1 ends it within 8 turns. -/
def widenLoop (v d : Nat) : (turns acc n : Nat) → Nat × Nat
  | 0, acc, n => (acc, n)
  | t + 1, acc, n => if n < 8 then widenLoop v d t (acc * 2 ^ d + v) (n + d) else (acc, n)

/-- `widen8(v, d)`: a `d`-bit channel value as 8 bits (R214). -/
def widen8 (v d : Nat) : Nat :=
  (widenLoop v d 8 0 0).1 / 2 ^ ((widenLoop v d 8 0 0).2 - 8)

/-- `narrow(v8, d)`: the top `d` bits of an 8-bit channel value (R214). -/
def narrow (v8 d : Nat) : Nat := v8 / 2 ^ (8 - d)

/-- The place of channel `k` in the pixel word: the depths of the channels below it (R213, R221). -/
def chanOffset (f : Word) : Nat → Nat
  | 0 => 0
  | k + 1 => chanOffset f k + chanDepth f k

/-- `unpack(f, w)`: channel `k` of the pixel word `w`, widened to 8 bits; an absent channel is 0 (R213). -/
def unpack (f : Word) (w : Nat) (k : Nat) : Byte :=
  if k < nchan f then
    BitVec.ofNat 8 (widen8 (w / 2 ^ chanOffset f k % 2 ^ chanDepth f k) (chanDepth f k))
  else 0

/-- Palette entry `idx`, channel `k`: `SWZ.SRCPAL[4*idx + k]` (R213). -/
def paletteChan (pal : Palette) (idx : Byte) (k : Nat) : Byte := pal.toList.getD (4 * idx.toNat + k) 0

/-- `canon(f, ch)`: the channels of a format as a canonical pixel (R215). The extra channel is the alpha only where
the transparency code is 2 or 3, and alpha is 255 otherwise. -/
def canon (f : Word) (ch : Nat → Byte) : Pixel :=
  let alpha := fun (extra : Byte) => if pfTransp f = 2 ∨ pfTransp f = 3 then extra else 255
  if pfModel f = 1 then ⟨ch 0, ch 0, ch 0, alpha (ch 1)⟩
  else if pfModel f = 2 then ⟨ch 2, ch 1, ch 0, alpha (ch 3)⟩
  else ⟨ch 0, ch 1, ch 2, alpha (ch 3)⟩

/-- `div255r(t)`: `t/255` rounded to the nearest integer (R217). -/
def div255r (t : Nat) : Nat := (t + 127) / 255

/-- `premul(c, a)` (R217). -/
def premul (c a : Byte) : Byte := BitVec.ofNat 8 (div255r (c.toNat * a.toNat))

/-- `premul_px` (R217). -/
def premulPx (p : Pixel) : Pixel := ⟨premul p.r p.a, premul p.g p.a, premul p.b p.a, p.a⟩

/-- `unpremul(c, a)`: 0 for a transparent pixel, else rounded and clamped to 255 (R218). -/
def unpremul (c a : Byte) : Byte :=
  if a = 0 then 0 else BitVec.ofNat 8 (min 255 ((c.toNat * 255 + a.toNat / 2) / a.toNat))

/-- `unpremul_px` (R218). -/
def unpremulPx (p : Pixel) : Pixel := ⟨unpremul p.r p.a, unpremul p.g p.a, unpremul p.b p.a, p.a⟩

/-- `src_convert(S, sk, dk)`: the pixel that `SRC` stores (R219). -/
def srcConvert (p : Pixel) (sk dk : AlphaKind) : Pixel :=
  match sk, dk with
  | .opaqueKind, _ => p
  | .nonpremul, .nonpremul => p
  | .nonpremul, .premul => premulPx p
  | .nonpremul, .opaqueKind => premulPx p
  | .premul, .premul => p
  | .premul, .nonpremul => unpremulPx p
  | .premul, .opaqueKind => p

/-- A pixel premultiplied where its kind is NONPREMUL (R220, `P` and `Q`). -/
def premultiplied (p : Pixel) (k : AlphaKind) : Pixel :=
  match k with
  | .nonpremul => premulPx p
  | .premul => p
  | .opaqueKind => p

/-- One channel of `R` (R220): `sadd8(P.c, div255r(Q.c * ia))`. -/
def overChan (p q ia : Byte) : Byte := satAdd p (BitVec.ofNat 8 (div255r (q.toNat * ia.toNat)))

/-- `src_over(S, sk, D, dk)`: the pixel that `SRC_OVER` stores (R220). -/
def srcOver (p : Pixel) (sk : AlphaKind) (d : Pixel) (dk : AlphaKind) : Pixel :=
  let s := premultiplied p sk
  let q := premultiplied d dk
  let ia : Byte := 255 - s.a
  let res : Pixel :=
    ⟨overChan s.r q.r ia, overChan s.g q.g ia, overChan s.b q.b ia, overChan s.a q.a ia⟩
  match dk with
  | .nonpremul => unpremulPx res
  | .premul => res
  | .opaqueKind => res

/-- The channels a canonical pixel stores in a format, in the format's order (R221). `e` is the alpha where the
transparency code is 2 or 3, and all ones in an `X` channel. -/
def storeChan (f : Word) (p : Pixel) (k : Nat) : Byte :=
  let e : Byte := if pfTransp f = 2 ∨ pfTransp f = 3 then p.a else 255
  if pfModel f = 1 then [p.r, e].getD k 0
  else if pfModel f = 2 then [p.b, p.g, p.r, e].getD k 0
  else [p.r, p.g, p.b, e].getD k 0

/-- `pack(f, p)` over the channels below `n`: each narrowed to its depth and put at its place (R221). -/
def packChans (f : Word) (p : Pixel) : Nat → Nat
  | 0 => 0
  | n + 1 =>
    packChans f p n + narrow (storeChan f p n).toNat (chanDepth f n) * 2 ^ chanOffset f n

/-- `pack(f, p)`: the destination pixel word (R221). -/
def pack (f : Word) (p : Pixel) : Nat := packChans f p (nchan f)

end Sys2Proof.Machine
end

