-- ==== Sys2Proof/Machine/Swz.lean ====
section
/-! DEFINITION. The SWZ unit: the pixel swizzler (`44_swizzler.md` R200 to R226). -/

namespace Sys2Proof.Machine

/-- The palette of 1024 bytes read in ascending order (R207). -/
def paletteOfBytes (l : List Byte) : Palette :=
  ⟨((List.range 1024).map fun j => l.getD j 0).toArray, by simp⟩

/-- `SWZ.BLEND <- blend[0]` (R201 step 5). -/
def blendOfWord (blend : Word) : BlendMode := if blend.toNat % 2 = 1 then .srcOver else .src

/-- A format that is indexed is paired with a palette slice of a length other than 1024 (R202). -/
def badPaletteLength (format : Word) (palette : Slice) : Bool :=
  isIndexed format && palette.len.toNat != params.paletteBytes

/-- `fail(e)` of SWZ.PREPARE: Unprepared, the other registers unspecified, no result words (R201, R208, R262). -/
def failPrepare (e : Status) (s : State) : Result := fail e 0 s.unprepare

/-- Step 5 of SWZ.PREPARE (R201): the registers of the Prepared state. -/
def preparedWith (srcFormat dstFormat blend : Word) (pal : Palette) : Swizzler where
  state := .prepared
  srcFmt := srcFormat
  dstFmt := dstFormat
  blend := blendOfWord blend
  sbpp := BitVec.ofNat 3 (bpp srcFormat)
  dbpp := BitVec.ofNat 3 (bpp dstFormat)
  srcPal := pal

/-- `swz.prepare` (R201 to R208): the checks in the order of R201, then the palette capture where the source format
is indexed, then the registers. -/
def execSwzPrepare (dstFormat : Word) (dstPalette : Slice) (srcFormat : Word) (srcPalette : Slice)
    (blend : Word) (s : State) : Result :=
  if badPaletteLength dstFormat dstPalette then failPrepare .badPaletteLength s
  else if badPaletteLength srcFormat srcPalette then failPrepare .badPaletteLength s
  else if !supported srcFormat dstFormat blend then failPrepare .unsupportedOption s
  else if isIndexed srcFormat then
    if srcPalette.ptr.toNat + params.paletteBytes > 2 ^ params.addrBits then failPrepare .badArgument s
    else
      match s.mem.readBytes srcPalette.ptr.toNat params.paletteBytes with
      | none => failPrepare .memFault s
      | some bytes =>
        answer [] (s.setSwz (preparedWith srcFormat dstFormat blend (paletteOfBytes bytes)))
  else answer [] (s.setSwz (preparedWith srcFormat dstFormat blend s.swz.srcPal))

/-- The address of source pixel `i` (R213). -/
def srcAddr (z : Swizzler) (src : Nat) (i : Nat) : Nat := src + i * z.sbpp.toNat

/-- The address of destination pixel `i` (R221). -/
def dstAddr (z : Swizzler) (dst : Nat) (i : Nat) : Nat := dst + i * z.dbpp.toNat

/-- The canonical source pixel of its bytes: palette lookup where the source is indexed, else a direct sample (R213,
R215). -/
def sourcePixel (z : Swizzler) (bytes : List Byte) : Pixel :=
  if isIndexed z.srcFmt then canon z.srcFmt (paletteChan z.srcPal (bytes.getD 0 0))
  else canon z.srcFmt (unpack z.srcFmt (leNat bytes))

/-- The canonical destination pixel of its bytes (R220). -/
def destPixel (z : Swizzler) (bytes : List Byte) : Pixel :=
  canon z.dstFmt (unpack z.dstFmt (leNat bytes))

/-- The bytes a canonical pixel is stored as (R221). -/
def storedBytes (z : Swizzler) (p : Pixel) : List Byte := leBytes (pack z.dstFmt p) z.dbpp.toNat

/-- `convert_pixel(i)` (R212, R213 to R221): read the source pixel; under SRC_OVER read the destination pixel; write
the destination pixel. The answer is the memory left and whether every access was accepted. -/
def convertPixel (z : Swizzler) (dst src : Nat) (i : Nat) (m : Memory) : Memory × Bool :=
  match m.readBytes (srcAddr z src i) z.sbpp.toNat with
  | none => (m, false)
  | some sb =>
    match z.blend with
    | .src =>
      m.writeBytes (dstAddr z dst i)
        (storedBytes z (srcConvert (sourcePixel z sb) (alphaKind z.srcFmt) (alphaKind z.dstFmt)))
    | .srcOver =>
      match m.readBytes (dstAddr z dst i) z.dbpp.toNat with
      | none => (m, false)
      | some db =>
        m.writeBytes (dstAddr z dst i)
          (storedBytes z
            (srcOver (sourcePixel z sb) (alphaKind z.srcFmt) (destPixel z db) (alphaKind z.dstFmt)))

/-- Pixels `i, i+1, ...`, `n` of them, in ascending order (R209 step 4, R212). The answer is the memory left and the
index of the pixel at which an access was refused, if one was (R225). -/
def convertPixels (z : Swizzler) (dst src : Nat) : (n i : Nat) → Memory → Memory × Option Nat
  | 0, _, m => (m, none)
  | n + 1, i, m =>
    match convertPixel z dst src i m with
    | (m', true) => convertPixels z dst src n (i + 1) m'
    | (m', false) => (m', some i)

/-- The number of whole pixels both slices hold (R210). -/
def pixelCount (z : Swizzler) (dst src : Slice) : Nat :=
  min (dst.len.toNat / z.dbpp.toNat) (src.len.toNat / z.sbpp.toNat)

/-- The 64-bit `count` result (R209). -/
def packCount (n : Nat) : List Word := packScalar (BitVec.ofNat 64 n)

/-- `swz.swizzle` (R209 to R225). The destination palette is ignored (R222). -/
def execSwzSwizzle (dst _dstPalette src : Slice) (s : State) : Result :=
  match s.swz.state with
  | .unprepared => fail .notPrepared 2 s
  | .prepared =>
    if sliceWraps dst || sliceWraps src then fail .badArgument 2 s
    else
      match convertPixels s.swz dst.ptr.toNat src.ptr.toNat (pixelCount s.swz dst src) 0 s.mem with
      | (m, none) => answer (packCount (pixelCount s.swz dst src)) (s.setMemory m)
      | (m, some i) => takeError .memFault (packCount i) (s.setMemory m)

end Sys2Proof.Machine
end

