-- ==== Sys2Proof/Machine/Dispatch.lean ====
section
/-! DEFINITION. One arm per command: each calls the command's own meaning. -/

namespace Sys2Proof.Machine

def exec (i : Instr) (s : State) : Host.Outcome State Fault Refusal :=
  match i with
  | .minW8 x y => Sys2Proof.Machine.execMinW8 x y s
  | .minW16 x y => Sys2Proof.Machine.execMinW16 x y s
  | .minW32 x y => Sys2Proof.Machine.execMinW32 x y s
  | .minW64 x y => Sys2Proof.Machine.execMinW64 x y s
  | .maxW8 x y => Sys2Proof.Machine.execMaxW8 x y s
  | .maxW16 x y => Sys2Proof.Machine.execMaxW16 x y s
  | .maxW32 x y => Sys2Proof.Machine.execMaxW32 x y s
  | .maxW64 x y => Sys2Proof.Machine.execMaxW64 x y s
  | .saddW8 x y => Sys2Proof.Machine.execSaddW8 x y s
  | .saddW16 x y => Sys2Proof.Machine.execSaddW16 x y s
  | .saddW32 x y => Sys2Proof.Machine.execSaddW32 x y s
  | .saddW64 x y => Sys2Proof.Machine.execSaddW64 x y s
  | .ssubW8 x y => Sys2Proof.Machine.execSsubW8 x y s
  | .ssubW16 x y => Sys2Proof.Machine.execSsubW16 x y s
  | .ssubW32 x y => Sys2Proof.Machine.execSsubW32 x y s
  | .ssubW64 x y => Sys2Proof.Machine.execSsubW64 x y s
  | .bswapW8 x => Sys2Proof.Machine.execBswapW8 x s
  | .bswapW16 x => Sys2Proof.Machine.execBswapW16 x s
  | .bswapW32 x => Sys2Proof.Machine.execBswapW32 x s
  | .bswapW64 x => Sys2Proof.Machine.execBswapW64 x s
  | .lowmaskW8 n => Sys2Proof.Machine.execLowmaskW8 n s
  | .lowmaskW16 n => Sys2Proof.Machine.execLowmaskW16 n s
  | .lowmaskW32 n => Sys2Proof.Machine.execLowmaskW32 n s
  | .lowmaskW64 n => Sys2Proof.Machine.execLowmaskW64 n s
  | .rngIsemptyIi32 r => Sys2Proof.Machine.execRngIsemptyIi32 r s
  | .rngIsemptyIe32 r => Sys2Proof.Machine.execRngIsemptyIe32 r s
  | .rngIsemptyIi64 r => Sys2Proof.Machine.execRngIsemptyIi64 r s
  | .rngIsemptyIe64 r => Sys2Proof.Machine.execRngIsemptyIe64 r s
  | .rngEqualsIi32 r t => Sys2Proof.Machine.execRngEqualsIi32 r t s
  | .rngEqualsIe32 r t => Sys2Proof.Machine.execRngEqualsIe32 r t s
  | .rngEqualsIi64 r t => Sys2Proof.Machine.execRngEqualsIi64 r t s
  | .rngEqualsIe64 r t => Sys2Proof.Machine.execRngEqualsIe64 r t s
  | .rngContainsIi32 r p => Sys2Proof.Machine.execRngContainsIi32 r p s
  | .rngContainsIe32 r p => Sys2Proof.Machine.execRngContainsIe32 r p s
  | .rngContainsIi64 r p => Sys2Proof.Machine.execRngContainsIi64 r p s
  | .rngContainsIe64 r p => Sys2Proof.Machine.execRngContainsIe64 r p s
  | .rngIsectIi32 r t => Sys2Proof.Machine.execRngIsectIi32 r t s
  | .rngIsectIe32 r t => Sys2Proof.Machine.execRngIsectIe32 r t s
  | .rngIsectIi64 r t => Sys2Proof.Machine.execRngIsectIi64 r t s
  | .rngIsectIe64 r t => Sys2Proof.Machine.execRngIsectIe64 r t s
  | .rngUnionIi32 r t => Sys2Proof.Machine.execRngUnionIi32 r t s
  | .rngUnionIe32 r t => Sys2Proof.Machine.execRngUnionIe32 r t s
  | .rngUnionIi64 r t => Sys2Proof.Machine.execRngUnionIi64 r t s
  | .rngUnionIe64 r t => Sys2Proof.Machine.execRngUnionIe64 r t s
  | .rngLengthIe32 r => Sys2Proof.Machine.execRngLengthIe32 r s
  | .rngLengthIe64 r => Sys2Proof.Machine.execRngLengthIe64 r s
  | .rctIsemptyIi32 r => Sys2Proof.Machine.execRctIsemptyIi32 r s
  | .rctIsemptyIe32 r => Sys2Proof.Machine.execRctIsemptyIe32 r s
  | .rctEqualsIi32 r t => Sys2Proof.Machine.execRctEqualsIi32 r t s
  | .rctEqualsIe32 r t => Sys2Proof.Machine.execRctEqualsIe32 r t s
  | .rctContainsIi32 r x y => Sys2Proof.Machine.execRctContainsIi32 r x y s
  | .rctContainsIe32 r x y => Sys2Proof.Machine.execRctContainsIe32 r x y s
  | .rctIsectIi32 r t => Sys2Proof.Machine.execRctIsectIi32 r t s
  | .rctIsectIe32 r t => Sys2Proof.Machine.execRctIsectIe32 r t s
  | .rctUnionIi32 r t => Sys2Proof.Machine.execRctUnionIi32 r t s
  | .rctUnionIe32 r t => Sys2Proof.Machine.execRctUnionIe32 r t s
  | .rctWidthIe32 r => Sys2Proof.Machine.execRctWidthIe32 r s
  | .rctHeightIe32 r => Sys2Proof.Machine.execRctHeightIe32 r s
  | .pxfIsvalid f => Sys2Proof.Machine.execPxfIsvalid f s
  | .pxfIsindexed f => Sys2Proof.Machine.execPxfIsindexed f s
  | .pxfNumplanes f => Sys2Proof.Machine.execPxfNumplanes f s
  | .pxfDepth aux f => Sys2Proof.Machine.execPxfDepth aux f s
  | .swzPrepare dstFormat dstPalette srcFormat srcPalette blend => Sys2Proof.Machine.execSwzPrepare dstFormat dstPalette srcFormat srcPalette blend s
  | .swzSwizzle dst dstPalette src => Sys2Proof.Machine.execSwzSwizzle dst dstPalette src s

end Sys2Proof.Machine
end

