-- ==== Sys2Proof/Machine/Step.lean ====
section
/-! DEFINITION. One step of the machine: the host's oldest waiting move (`10_state.md` R10, `70_reset_and_hazards.md`
R295). -/

namespace Sys2Proof.Machine

/-- One step. A command packet is one whole command, from the packet to its response (R10); the host's change of
memory and its reset are steps of their own; with nothing waiting the block is idle. -/
def step (s : State) : Host.Outcome State Fault Refusal :=
  match s.inbox with
  | [] => idle s
  | .command p :: rest =>
    match decode p with
    | .ok i => exec i (s.setInbox rest)
    | .error _ => rejectPacket (s.setInbox rest)
  | .setMem a b :: rest => hostSetMem a b (s.setInbox rest)
  | .reset :: rest => hostReset (s.setInbox rest)

/-- The state in which the host's next move is to send the packet with the bits `w` (log entry 2). -/
def State.withFetchWord (s : State) (nbits w : Nat) : State :=
  s.setInbox (.command (tablePacket nbits w) :: s.inbox)

end Sys2Proof.Machine
end

