-- ==== Sys2Proof/Safety.lean ====
section
/-! DEFINITION. The terms in which claims about the machine are stated: what the spec requires of every state, what a
footprint is, and which packets are legal. -/

namespace Sys2Proof.Machine

/-- The word that names a blend mode (`44_swizzler.md` R201). -/
def blendWord (b : BlendMode) : Word :=
  match b with
  | .src => 0
  | .srcOver => 1

/-- The invariant of the Prepared state (`10_state.md` R16), as far as it speaks of one state. -/
abbrev Swizzler.ok (z : Swizzler) : Prop :=
  z.state = .prepared →
    supported z.srcFmt z.dstFmt (blendWord z.blend) = true
      ∧ z.sbpp.toNat = bpp z.srcFmt ∧ z.dbpp.toNat = bpp z.dstFmt

/-- What every reachable state keeps: the memory is in canonical form and the swizzler keeps R16. -/
abbrev State.inv (s : State) : Prop := s.mem.wf ∧ s.swz.ok

/-- Every one of the `n` bytes from address `a` is backed: the memory port accepts each access (`20_memory.md` R40 (a),
R43). -/
abbrev Memory.backed (m : Memory) (a n : Nat) : Prop := ∀ j, j < n → (m.read (a + j)).isSome = true

/-- Two memories hold the same at each of the `n` addresses from `a`: the same byte, or both none. -/
abbrev Memory.sameOn (m m' : Memory) (a n : Nat) : Prop := ∀ j, j < n → m.read (a + j) = m'.read (a + j)

/-- Two memories back the same of the `n` addresses from `a`. -/
abbrev Memory.backedAlike (m m' : Memory) (a n : Nat) : Prop :=
  ∀ j, j < n → (m.read (a + j)).isSome = (m'.read (a + j)).isSome

/-- The slice does not run past the end of the address space (R32). -/
abbrev sliceFits (s : Slice) : Prop := s.ptr.toNat + s.len.toNat ≤ 2 ^ 64

/-- The two words of a 64-bit number, the low one first (`30_encoding.md` R53). -/
def wordsOf (n : Nat) : List Word := [BitVec.ofNat 32 (n % 2 ^ 32), BitVec.ofNat 32 (n / 2 ^ 32)]

/-- The pixel that SWZ.SWIZZLE stores for one pixel, from the source bytes and the destination bytes it held before
(`44_swizzler.md` section 4, `convert_pixel`). -/
def converted (z : Swizzler) (sb db : List Byte) : List Byte :=
  storedBytes z
    (match z.blend with
      | .src => srcConvert (sourcePixel z sb) (alphaKind z.srcFmt) (alphaKind z.dstFmt)
      | .srcOver =>
        srcOver (sourcePixel z sb) (alphaKind z.srcFmt) (destPixel z db) (alphaKind z.dstFmt))

/-- Two states that no command sequence can tell apart (`10_state.md` R15, `70_reset_and_hazards.md` R290): the same
memory, channels and `SWZ.STATE`; the other registers alike where the Prepared state uses them, the palette only where
the source format is indexed. -/
def State.alike (s t : State) : Prop :=
  s.mem = t.mem ∧ s.inbox = t.inbox ∧ s.outbox = t.outbox ∧ s.swz.state = t.swz.state
    ∧ (s.swz.state = .prepared →
        s.swz.srcFmt = t.swz.srcFmt ∧ s.swz.dstFmt = t.swz.dstFmt ∧ s.swz.blend = t.swz.blend
          ∧ s.swz.sbpp = t.swz.sbpp ∧ s.swz.dbpp = t.swz.dbpp
          ∧ (isIndexed s.swz.srcFmt = true → s.swz.srcPal = t.swz.srcPal))

/-- R57 as numbers, unit 1: header value, command words, response words. -/
def numTable : List (Nat × Nat × Nat) := [
  (0x100, 3, 2), (0x101, 3, 2), (0x102, 3, 2), (0x103, 5, 3), (0x110, 3, 2), (0x111, 3, 2),
  (0x112, 3, 2), (0x113, 5, 3), (0x120, 3, 2), (0x121, 3, 2), (0x122, 3, 2), (0x123, 5, 3),
  (0x130, 3, 2), (0x131, 3, 2), (0x132, 3, 2), (0x133, 5, 3), (0x140, 2, 2), (0x141, 2, 2),
  (0x142, 2, 2), (0x143, 3, 3), (0x150, 2, 2), (0x151, 2, 2), (0x152, 2, 2), (0x153, 2, 3)]

/-- R57 as numbers, unit 2: header value, command words, response words. -/
def rngTable : List (Nat × Nat × Nat) := [
  (0x202, 3, 2), (0x206, 3, 2), (0x203, 5, 2), (0x207, 5, 2), (0x212, 5, 2), (0x216, 5, 2),
  (0x213, 9, 2), (0x217, 9, 2), (0x222, 4, 2), (0x226, 4, 2), (0x223, 7, 2), (0x227, 7, 2),
  (0x232, 5, 3), (0x236, 5, 3), (0x233, 9, 5), (0x237, 9, 5), (0x242, 5, 3), (0x246, 5, 3),
  (0x243, 9, 5), (0x247, 9, 5), (0x256, 3, 2), (0x257, 5, 3)]

/-- R57 as numbers, unit 3: header value, command words, response words. -/
def rctTable : List (Nat × Nat × Nat) := [
  (0x302, 5, 2), (0x306, 5, 2), (0x312, 9, 2), (0x316, 9, 2), (0x322, 7, 2), (0x326, 7, 2),
  (0x332, 9, 5), (0x336, 9, 5), (0x342, 9, 5), (0x346, 9, 5), (0x356, 5, 2), (0x366, 5, 2)]

/-- R57 as numbers, unit 4: header value, command words, response words. -/
def pxfTable : List (Nat × Nat × Nat) := [
  (0x400, 2, 2), (0x410, 2, 2), (0x420, 2, 2), (0x430, 2, 2), (0x1430, 2, 2), (0x2430, 2, 2),
  (0x3430, 2, 2)]

/-- R57 as numbers, unit 5: header value, command words, response words. -/
def swzTable : List (Nat × Nat × Nat) := [
  (0x500, 12, 1), (0x510, 13, 3)]

/-- The opcode map as numbers (R57), written apart from the decoder's own rows. -/
def commandTable : List (Nat × Nat × Nat) := numTable ++ rngTable ++ rctTable ++ pxfTable ++ swzTable

/-- A packet is legal when its header is one of the map's and its length is the one the map gives that header (R58). -/
def legal (p : Packet) : Prop :=
  ∃ row ∈ commandTable, p.head? = some (BitVec.ofNat 32 row.1) ∧ p.length = row.2.1

end Sys2Proof.Machine
end

