-- ==== Sys2Proof/Certificates/Slice0/Obligations.lean ====
section
/-! DEFINITION. The statements about the WBB block that are offered for proof. Each docstring names the rules of the
spec it formalises. A response is written out as its words, the status word first. -/

open Sys2Proof Sys2Proof.Machine

/-! ## Encoding -/

/-- Decoding the words of a well-formed command gives the command back, with every operand at every value (R51 to R54,
R57). -/
def Obligations.DecodeOfEncode : Prop :=
  ∀ i : Instr, i.wf = true → decode (encode i) = .ok i

/-- A packet that decodes is the one encoding of the command it decodes to: no bit of a packet is dropped (R57, R60). -/
def Obligations.EncodeOfDecode : Prop :=
  ∀ (p : Packet) (i : Instr), decode p = .ok i → i.wf = true ∧ encode i = p

/-- R58: a packet that is empty, has a header the map does not list, or has another length than the map gives its header
is answered with the one word ERR_BAD_COMMAND and changes nothing; every other packet is one of the commands. -/
def Obligations.IllegalPacketAnswersBadCommand : Prop :=
  (∀ (s : State) (p : Packet) (rest : List HostEvent),
    s.inbox = .command p :: rest → ¬ legal p →
      step s = .next { s with inbox := rest, outbox := s.outbox ++ [[0x81000000]] })
  ∧ ∀ p : Packet, legal p → ∃ i : Instr, i.wf = true ∧ encode i = p ∧ decode p = .ok i

/-- A few packets written out from R51 to R54 decode to the commands they stand for, one of each unit. -/
def Obligations.WrittenPacketsDecode : Prop :=
  decode [0x120, 0x1FF, 0x101] = .ok (.saddW8 0x1FF 0x101)
  ∧ decode [0x103, 0x00000000, 0x00000001, 0xFFFFFFFF, 0x00000000]
      = .ok (.minW64 0x0000000100000000 0x00000000FFFFFFFF)
  ∧ decode [0x227, 1, 0, 2, 0, 3, 4] = .ok (.rngContainsIe64 ⟨1, 2⟩ 0x0000000400000003)
  ∧ decode [0x336, 1, 2, 3, 4, 5, 6, 7, 8] = .ok (.rctIsectIe32 ⟨1, 2, 3, 4⟩ ⟨5, 6, 7, 8⟩)
  ∧ decode [0x2430, 0x20000565] = .ok (.pxfDepth 2 0x20000565)
  ∧ decode [0x510, 0x1000, 0, 8, 0, 0, 0, 0, 0, 0x2000, 0, 7, 0]
      = .ok (.swzSwizzle ⟨0x1000, 8⟩ ⟨0, 0⟩ ⟨0x2000, 7⟩)

/-- Every command answers a next state with one more response, whose length is the one R57 gives the command's header and
whose status is one of R261's; the host's moves to come are untouched (R55, R57, R261, R262). -/
def Obligations.ResponseLengthIsFixed : Prop :=
  ∀ (i : Instr) (s : State), i.wf = true →
    ∃ (t : State) (status : Word) (results : List Word) (row : Nat × Nat × Nat),
      exec i s = .next t ∧ t.outbox = s.outbox ++ [status :: results] ∧ t.inbox = s.inbox
      ∧ row ∈ commandTable ∧ (encode i).head? = some (BitVec.ofNat 32 row.1)
      ∧ (encode i).length = row.2.1 ∧ results.length + 1 = row.2.2
      ∧ status ∈ [0x00000000#32, 0x82000000, 0x83000000, 0x84000000, 0x85000000, 0x86000000]

/-- The bits of an operand word above the operand's width change nothing (R52), for every narrow operand. -/
def Obligations.UpperOperandBitsAreIgnored : Prop :=
  ∀ (s : State) (x y x' y' : Word),
    (x.toNat % 2 ^ 8 = x'.toNat % 2 ^ 8 → y.toNat % 2 ^ 8 = y'.toNat % 2 ^ 8 →
      exec (.minW8 x y) s = exec (.minW8 x' y') s ∧ exec (.maxW8 x y) s = exec (.maxW8 x' y') s
      ∧ exec (.saddW8 x y) s = exec (.saddW8 x' y') s ∧ exec (.ssubW8 x y) s = exec (.ssubW8 x' y') s
      ∧ exec (.bswapW8 x) s = exec (.bswapW8 x') s)
    ∧ (x.toNat % 2 ^ 16 = x'.toNat % 2 ^ 16 → y.toNat % 2 ^ 16 = y'.toNat % 2 ^ 16 →
      exec (.minW16 x y) s = exec (.minW16 x' y') s ∧ exec (.maxW16 x y) s = exec (.maxW16 x' y') s
      ∧ exec (.saddW16 x y) s = exec (.saddW16 x' y') s
      ∧ exec (.ssubW16 x y) s = exec (.ssubW16 x' y') s
      ∧ exec (.bswapW16 x) s = exec (.bswapW16 x') s)

/-! ## The step -/

/-- When the packet the host sends next decodes to a command, the step is the command's meaning, with the packet taken
from the host's moves. -/
def Obligations.StepRunsTheDecodedCommand : Prop :=
  ∀ (s : State) (p : Packet) (rest : List HostEvent) (i : Instr),
    s.inbox = .command p :: rest → decode p = .ok i → step s = exec i { s with inbox := rest }

/-- With no move of the host waiting a step changes nothing: the block acts only in response to a command packet (R263).
That an idle step is a step at all is the model's choice, log entry 3. -/
def Obligations.IdleStepChangesNothing : Prop :=
  ∀ s : State, s.inbox = [] → step s = .next s

/-- The host's change of a byte of memory between two commands sets that byte, or takes its backing away, and changes
nothing else. Host moves as steps are the model's choice, log entry 4. -/
def Obligations.HostSetsOneByte : Prop :=
  ∀ (s : State) (a : Addr) (b : Option Byte) (rest : List HostEvent),
    s.inbox = .setMem a b :: rest →
      ∃ m : Memory, step s = .next { s with inbox := rest, mem := m }
        ∧ m.read a.toNat = b ∧ ∀ x : Nat, x ≠ a.toNat → m.read x = s.mem.read x

/-- After reset the swizzler is Unprepared, no command is in progress and no response is pending; a reset of a running
block leaves it Unprepared and touches neither the memory nor the channels (R19, R290). The reset move is the model's
choice, log entry 5. -/
def Obligations.ResetLeavesUnprepared : Prop :=
  (State.reset.swz.state = .unprepared ∧ State.reset.inbox = [] ∧ State.reset.outbox = [])
  ∧ ∀ (s : State) (rest : List HostEvent), s.inbox = .reset :: rest →
      ∃ (z : Swizzler) (k : Nat), z.state = .unprepared
        ∧ step s = .next { s with inbox := rest, swz := z, draws := k }

/-- No step faults or is refused: from every state there is a next state (R262, R263, R265: an error is a response, after
which the block is ready for the next command). -/
def Obligations.EveryStepAnswersANextState : Prop :=
  ∀ s : State, ∃ t : State, step s = .next t

/-- Every command packet, legal or not, is taken from the host's moves and answered with exactly one response of at least
one word; no other step emits a response (R10, R263, R295). -/
def Obligations.OneResponsePerCommand : Prop :=
  (∀ (s : State) (p : Packet) (rest : List HostEvent), s.inbox = .command p :: rest →
    ∃ (t : State) (status : Word) (results : List Word),
      step s = .next t ∧ t.inbox = rest ∧ t.outbox = s.outbox ++ [status :: results])
  ∧ ∀ s t : State, (∀ p rest, s.inbox ≠ .command p :: rest) → step s = .next t →
      t.outbox = s.outbox ∧ t.inbox = s.inbox.tail

/-! ## NUM -/

/-- R101 to R104: `min` answers the lesser of the two unsigned operands. -/
def Obligations.MinAnswersTheLesser : Prop :=
  ∀ s : State,
    (∀ x y : Word, decode [0x100, x, y] = .ok (.minW8 x y)
      ∧ exec (.minW8 x y) s
          = .next { s with outbox := s.outbox ++
              [[0, BitVec.ofNat 32 (min (x.toNat % 2 ^ 8) (y.toNat % 2 ^ 8))]] })
    ∧ (∀ x y : Word, decode [0x101, x, y] = .ok (.minW16 x y)
      ∧ exec (.minW16 x y) s
          = .next { s with outbox := s.outbox ++
              [[0, BitVec.ofNat 32 (min (x.toNat % 2 ^ 16) (y.toNat % 2 ^ 16))]] })
    ∧ (∀ x y : Word, decode [0x102, x, y] = .ok (.minW32 x y)
      ∧ exec (.minW32 x y) s
          = .next { s with outbox := s.outbox ++ [[0, BitVec.ofNat 32 (min x.toNat y.toNat)]] })
    ∧ ∀ x y : BitVec 64,
        decode [0x103, x.extractLsb' 0 32, x.extractLsb' 32 32, y.extractLsb' 0 32, y.extractLsb' 32 32]
          = .ok (.minW64 x y)
        ∧ exec (.minW64 x y) s
            = .next { s with outbox := s.outbox ++ [0 :: wordsOf (min x.toNat y.toNat)] }

/-- R105 to R108: `max` answers the greater of the two unsigned operands. -/
def Obligations.MaxAnswersTheGreater : Prop :=
  ∀ s : State,
    (∀ x y : Word, decode [0x110, x, y] = .ok (.maxW8 x y)
      ∧ exec (.maxW8 x y) s
          = .next { s with outbox := s.outbox ++
              [[0, BitVec.ofNat 32 (max (x.toNat % 2 ^ 8) (y.toNat % 2 ^ 8))]] })
    ∧ (∀ x y : Word, decode [0x111, x, y] = .ok (.maxW16 x y)
      ∧ exec (.maxW16 x y) s
          = .next { s with outbox := s.outbox ++
              [[0, BitVec.ofNat 32 (max (x.toNat % 2 ^ 16) (y.toNat % 2 ^ 16))]] })
    ∧ (∀ x y : Word, decode [0x112, x, y] = .ok (.maxW32 x y)
      ∧ exec (.maxW32 x y) s
          = .next { s with outbox := s.outbox ++ [[0, BitVec.ofNat 32 (max x.toNat y.toNat)]] })
    ∧ ∀ x y : BitVec 64,
        decode [0x113, x.extractLsb' 0 32, x.extractLsb' 32 32, y.extractLsb' 0 32, y.extractLsb' 32 32]
          = .ok (.maxW64 x y)
        ∧ exec (.maxW64 x y) s
            = .next { s with outbox := s.outbox ++ [0 :: wordsOf (max x.toNat y.toNat)] }

/-- R109 to R112: `sadd` answers the sum of unbounded integers, or the greatest value of the width where the sum does not
fit. -/
def Obligations.SaddSaturates : Prop :=
  ∀ s : State,
    (∀ x y : Word, decode [0x120, x, y] = .ok (.saddW8 x y)
      ∧ exec (.saddW8 x y) s
          = .next { s with outbox := s.outbox ++
              [[0, BitVec.ofNat 32 (min (x.toNat % 2 ^ 8 + y.toNat % 2 ^ 8) 255)]] })
    ∧ (∀ x y : Word, decode [0x121, x, y] = .ok (.saddW16 x y)
      ∧ exec (.saddW16 x y) s
          = .next { s with outbox := s.outbox ++
              [[0, BitVec.ofNat 32 (min (x.toNat % 2 ^ 16 + y.toNat % 2 ^ 16) 65535)]] })
    ∧ (∀ x y : Word, decode [0x122, x, y] = .ok (.saddW32 x y)
      ∧ exec (.saddW32 x y) s
          = .next { s with outbox := s.outbox ++
              [[0, BitVec.ofNat 32 (min (x.toNat + y.toNat) 0xFFFFFFFF)]] })
    ∧ ∀ x y : BitVec 64,
        decode [0x123, x.extractLsb' 0 32, x.extractLsb' 32 32, y.extractLsb' 0 32, y.extractLsb' 32 32]
          = .ok (.saddW64 x y)
        ∧ exec (.saddW64 x y) s
            = .next { s with outbox := s.outbox ++
                [0 :: wordsOf (min (x.toNat + y.toNat) (2 ^ 64 - 1))] }

/-- R113 to R116: `ssub` answers the first operand less the second, or 0 where that is negative. -/
def Obligations.SsubStopsAtZero : Prop :=
  ∀ s : State,
    (∀ x y : Word, decode [0x130, x, y] = .ok (.ssubW8 x y)
      ∧ exec (.ssubW8 x y) s
          = .next { s with outbox := s.outbox ++
              [[0, BitVec.ofNat 32 (if x.toNat % 2 ^ 8 < y.toNat % 2 ^ 8 then 0
                else x.toNat % 2 ^ 8 - y.toNat % 2 ^ 8)]] })
    ∧ (∀ x y : Word, decode [0x131, x, y] = .ok (.ssubW16 x y)
      ∧ exec (.ssubW16 x y) s
          = .next { s with outbox := s.outbox ++
              [[0, BitVec.ofNat 32 (if x.toNat % 2 ^ 16 < y.toNat % 2 ^ 16 then 0
                else x.toNat % 2 ^ 16 - y.toNat % 2 ^ 16)]] })
    ∧ (∀ x y : Word, decode [0x132, x, y] = .ok (.ssubW32 x y)
      ∧ exec (.ssubW32 x y) s
          = .next { s with outbox := s.outbox ++
              [[0, BitVec.ofNat 32 (if x.toNat < y.toNat then 0 else x.toNat - y.toNat)]] })
    ∧ ∀ x y : BitVec 64,
        decode [0x133, x.extractLsb' 0 32, x.extractLsb' 32 32, y.extractLsb' 0 32, y.extractLsb' 32 32]
          = .ok (.ssubW64 x y)
        ∧ exec (.ssubW64 x y) s
            = .next { s with outbox := s.outbox ++
                [0 :: wordsOf (if x.toNat < y.toNat then 0 else x.toNat - y.toNat)] }

/-- R117 to R120: `bswap` answers the number whose bytes are the operand's in reverse order. -/
def Obligations.BswapReversesTheBytes : Prop :=
  ∀ s : State,
    (∀ x : Word, decode [0x140, x] = .ok (.bswapW8 x)
      ∧ exec (.bswapW8 x) s
          = .next { s with outbox := s.outbox ++ [[0, BitVec.ofNat 32 (x.toNat % 2 ^ 8)]] })
    ∧ (∀ x : Word, decode [0x141, x] = .ok (.bswapW16 x)
      ∧ exec (.bswapW16 x) s
          = .next { s with outbox := s.outbox ++
              [[0, BitVec.ofNat 32 (leNat (leBytes x.toNat 2).reverse)]] })
    ∧ (∀ x : Word, decode [0x142, x] = .ok (.bswapW32 x)
      ∧ exec (.bswapW32 x) s
          = .next { s with outbox := s.outbox ++
              [[0, BitVec.ofNat 32 (leNat (leBytes x.toNat 4).reverse)]] })
    ∧ ∀ x : BitVec 64,
        decode [0x143, x.extractLsb' 0 32, x.extractLsb' 32 32] = .ok (.bswapW64 x)
        ∧ exec (.bswapW64 x) s
            = .next { s with outbox := s.outbox ++ [0 :: wordsOf (leNat (leBytes x.toNat 8).reverse)] }

/-- R121 to R124: `lowmask` answers the value whose `n` low bits are ones, `n` the whole operand word, and
ERR_BAD_ARGUMENT with result words 0 past the width. -/
def Obligations.LowmaskAnswersTheMask : Prop :=
  ∀ (s : State) (n : Word),
    (decode [0x150, n] = .ok (.lowmaskW8 n)
      ∧ exec (.lowmaskW8 n) s
          = .next { s with outbox := s.outbox ++
              [if n.toNat > 8 then [0x82000000, 0] else [0, BitVec.ofNat 32 (2 ^ n.toNat - 1)]] })
    ∧ (decode [0x151, n] = .ok (.lowmaskW16 n)
      ∧ exec (.lowmaskW16 n) s
          = .next { s with outbox := s.outbox ++
              [if n.toNat > 16 then [0x82000000, 0] else [0, BitVec.ofNat 32 (2 ^ n.toNat - 1)]] })
    ∧ (decode [0x152, n] = .ok (.lowmaskW32 n)
      ∧ exec (.lowmaskW32 n) s
          = .next { s with outbox := s.outbox ++
              [if n.toNat > 32 then [0x82000000, 0] else [0, BitVec.ofNat 32 (2 ^ n.toNat - 1)]] })
    ∧ decode [0x153, n] = .ok (.lowmaskW64 n)
      ∧ exec (.lowmaskW64 n) s
          = .next { s with outbox := s.outbox ++
              [if n.toNat > 64 then [0x82000000, 0, 0] else 0 :: wordsOf (2 ^ n.toNat - 1)] }

/-- R126: the integer laws of the unit's operations, at every width. -/
def Obligations.NumLaws : Prop :=
  (∀ (w : Nat) (x y : BitVec w),
    (umin x y).toNat = min x.toNat y.toNat ∧ (umax x y).toNat = max x.toNat y.toNat
    ∧ (satAdd x y).toNat = min (x.toNat + y.toNat) (2 ^ w - 1)
    ∧ ((satSub x y).toNat : Int) = max ((x.toNat : Int) - y.toNat) 0
    ∧ satAdd x 0 = x ∧ satSub x 0 = x ∧ satSub x x = 0 ∧ satAdd x y = satAdd y x)
  ∧ (∀ x : BitVec 16, bswap16 (bswap16 x) = x) ∧ (∀ x : BitVec 32, bswap32 (bswap32 x) = x)
  ∧ ∀ x : BitVec 64, bswap64 (bswap64 x) = x

/-! ## RNG -/

/-- R132 to R135: emptiness of a range. -/
def Obligations.RngIsemptyAnswersEmptiness : Prop :=
  ∀ s : State,
    (∀ a b : Word, decode [0x202, a, b] = .ok (.rngIsemptyIi32 ⟨a, b⟩)
      ∧ exec (.rngIsemptyIi32 ⟨a, b⟩) s
          = .next { s with outbox := s.outbox ++ [[0, if a.toNat > b.toNat then 1 else 0]] })
    ∧ (∀ a b : Word, decode [0x206, a, b] = .ok (.rngIsemptyIe32 ⟨a, b⟩)
      ∧ exec (.rngIsemptyIe32 ⟨a, b⟩) s
          = .next { s with outbox := s.outbox ++ [[0, if a.toNat ≥ b.toNat then 1 else 0]] })
    ∧ (∀ a b : BitVec 64,
        decode [0x203, a.extractLsb' 0 32, a.extractLsb' 32 32, b.extractLsb' 0 32, b.extractLsb' 32 32]
          = .ok (.rngIsemptyIi64 ⟨a, b⟩)
        ∧ exec (.rngIsemptyIi64 ⟨a, b⟩) s
            = .next { s with outbox := s.outbox ++ [[0, if a.toNat > b.toNat then 1 else 0]] })
    ∧ ∀ a b : BitVec 64,
        decode [0x207, a.extractLsb' 0 32, a.extractLsb' 32 32, b.extractLsb' 0 32, b.extractLsb' 32 32]
          = .ok (.rngIsemptyIe64 ⟨a, b⟩)
        ∧ exec (.rngIsemptyIe64 ⟨a, b⟩) s
            = .next { s with outbox := s.outbox ++ [[0, if a.toNat ≥ b.toNat then 1 else 0]] }

/-- R136 to R139: two ranges are equal when their fields are, or when both are empty. -/
def Obligations.RngEqualsJoinsTheEmptyRanges : Prop :=
  ∀ s : State,
    (∀ a b c d : Word, decode [0x212, a, b, c, d] = .ok (.rngEqualsIi32 ⟨a, b⟩ ⟨c, d⟩)
      ∧ exec (.rngEqualsIi32 ⟨a, b⟩ ⟨c, d⟩) s
          = .next { s with outbox := s.outbox ++
              [[0, if (a = c ∧ b = d) ∨ (a.toNat > b.toNat ∧ c.toNat > d.toNat) then 1 else 0]] })
    ∧ (∀ a b c d : Word, decode [0x216, a, b, c, d] = .ok (.rngEqualsIe32 ⟨a, b⟩ ⟨c, d⟩)
      ∧ exec (.rngEqualsIe32 ⟨a, b⟩ ⟨c, d⟩) s
          = .next { s with outbox := s.outbox ++
              [[0, if (a = c ∧ b = d) ∨ (a.toNat ≥ b.toNat ∧ c.toNat ≥ d.toNat) then 1 else 0]] })
    ∧ (∀ a b c d : BitVec 64,
        decode [0x213, a.extractLsb' 0 32, a.extractLsb' 32 32, b.extractLsb' 0 32, b.extractLsb' 32 32,
            c.extractLsb' 0 32, c.extractLsb' 32 32, d.extractLsb' 0 32, d.extractLsb' 32 32]
          = .ok (.rngEqualsIi64 ⟨a, b⟩ ⟨c, d⟩)
        ∧ exec (.rngEqualsIi64 ⟨a, b⟩ ⟨c, d⟩) s
            = .next { s with outbox := s.outbox ++
                [[0, if (a = c ∧ b = d) ∨ (a.toNat > b.toNat ∧ c.toNat > d.toNat) then 1 else 0]] })
    ∧ ∀ a b c d : BitVec 64,
        decode [0x217, a.extractLsb' 0 32, a.extractLsb' 32 32, b.extractLsb' 0 32, b.extractLsb' 32 32,
            c.extractLsb' 0 32, c.extractLsb' 32 32, d.extractLsb' 0 32, d.extractLsb' 32 32]
          = .ok (.rngEqualsIe64 ⟨a, b⟩ ⟨c, d⟩)
        ∧ exec (.rngEqualsIe64 ⟨a, b⟩ ⟨c, d⟩) s
            = .next { s with outbox := s.outbox ++
                [[0, if (a = c ∧ b = d) ∨ (a.toNat ≥ b.toNat ∧ c.toNat ≥ d.toNat) then 1 else 0]] }

/-- R140 to R143: a range contains its lower bound, and its upper one if it is closed. -/
def Obligations.RngContainsComparesThePoint : Prop :=
  ∀ s : State,
    (∀ a b p : Word, decode [0x222, a, b, p] = .ok (.rngContainsIi32 ⟨a, b⟩ p)
      ∧ exec (.rngContainsIi32 ⟨a, b⟩ p) s
          = .next { s with outbox := s.outbox ++
              [[0, if a.toNat ≤ p.toNat ∧ p.toNat ≤ b.toNat then 1 else 0]] })
    ∧ (∀ a b p : Word, decode [0x226, a, b, p] = .ok (.rngContainsIe32 ⟨a, b⟩ p)
      ∧ exec (.rngContainsIe32 ⟨a, b⟩ p) s
          = .next { s with outbox := s.outbox ++
              [[0, if a.toNat ≤ p.toNat ∧ p.toNat < b.toNat then 1 else 0]] })
    ∧ (∀ a b p : BitVec 64,
        decode [0x223, a.extractLsb' 0 32, a.extractLsb' 32 32, b.extractLsb' 0 32, b.extractLsb' 32 32,
            p.extractLsb' 0 32, p.extractLsb' 32 32]
          = .ok (.rngContainsIi64 ⟨a, b⟩ p)
        ∧ exec (.rngContainsIi64 ⟨a, b⟩ p) s
            = .next { s with outbox := s.outbox ++
                [[0, if a.toNat ≤ p.toNat ∧ p.toNat ≤ b.toNat then 1 else 0]] })
    ∧ ∀ a b p : BitVec 64,
        decode [0x227, a.extractLsb' 0 32, a.extractLsb' 32 32, b.extractLsb' 0 32, b.extractLsb' 32 32,
            p.extractLsb' 0 32, p.extractLsb' 32 32]
          = .ok (.rngContainsIe64 ⟨a, b⟩ p)
        ∧ exec (.rngContainsIe64 ⟨a, b⟩ p) s
            = .next { s with outbox := s.outbox ++
                [[0, if a.toNat ≤ p.toNat ∧ p.toNat < b.toNat then 1 else 0]] }

/-- R144 to R147: the intersection is the greater of the lower bounds and the lesser of the upper bounds. -/
def Obligations.RngIsectAnswersTheInnerBounds : Prop :=
  ∀ s : State,
    (∀ a b c d : Word, decode [0x232, a, b, c, d] = .ok (.rngIsectIi32 ⟨a, b⟩ ⟨c, d⟩)
      ∧ exec (.rngIsectIi32 ⟨a, b⟩ ⟨c, d⟩) s
          = .next { s with outbox := s.outbox ++
              [[0, BitVec.ofNat 32 (max a.toNat c.toNat), BitVec.ofNat 32 (min b.toNat d.toNat)]] })
    ∧ (∀ a b c d : Word, decode [0x236, a, b, c, d] = .ok (.rngIsectIe32 ⟨a, b⟩ ⟨c, d⟩)
      ∧ exec (.rngIsectIe32 ⟨a, b⟩ ⟨c, d⟩) s
          = .next { s with outbox := s.outbox ++
              [[0, BitVec.ofNat 32 (max a.toNat c.toNat), BitVec.ofNat 32 (min b.toNat d.toNat)]] })
    ∧ (∀ a b c d : BitVec 64,
        decode [0x233, a.extractLsb' 0 32, a.extractLsb' 32 32, b.extractLsb' 0 32, b.extractLsb' 32 32,
            c.extractLsb' 0 32, c.extractLsb' 32 32, d.extractLsb' 0 32, d.extractLsb' 32 32]
          = .ok (.rngIsectIi64 ⟨a, b⟩ ⟨c, d⟩)
        ∧ exec (.rngIsectIi64 ⟨a, b⟩ ⟨c, d⟩) s
            = .next { s with outbox := s.outbox ++
                [0 :: (wordsOf (max a.toNat c.toNat) ++ wordsOf (min b.toNat d.toNat))] })
    ∧ ∀ a b c d : BitVec 64,
        decode [0x237, a.extractLsb' 0 32, a.extractLsb' 32 32, b.extractLsb' 0 32, b.extractLsb' 32 32,
            c.extractLsb' 0 32, c.extractLsb' 32 32, d.extractLsb' 0 32, d.extractLsb' 32 32]
          = .ok (.rngIsectIe64 ⟨a, b⟩ ⟨c, d⟩)
        ∧ exec (.rngIsectIe64 ⟨a, b⟩ ⟨c, d⟩) s
            = .next { s with outbox := s.outbox ++
                [0 :: (wordsOf (max a.toNat c.toNat) ++ wordsOf (min b.toNat d.toNat))] }

/-- R148 to R151: the union is the other operand bit for bit where one is empty, the first tested first, else the
hull. -/
def Obligations.RngUnionAnswersTheHull : Prop :=
  ∀ s : State,
    (∀ a b c d : Word, decode [0x242, a, b, c, d] = .ok (.rngUnionIi32 ⟨a, b⟩ ⟨c, d⟩)
      ∧ exec (.rngUnionIi32 ⟨a, b⟩ ⟨c, d⟩) s
          = .next { s with outbox := s.outbox ++
              [if a.toNat > b.toNat then [0, c, d] else if c.toNat > d.toNat then [0, a, b]
                else [0, BitVec.ofNat 32 (min a.toNat c.toNat), BitVec.ofNat 32 (max b.toNat d.toNat)]] })
    ∧ (∀ a b c d : Word, decode [0x246, a, b, c, d] = .ok (.rngUnionIe32 ⟨a, b⟩ ⟨c, d⟩)
      ∧ exec (.rngUnionIe32 ⟨a, b⟩ ⟨c, d⟩) s
          = .next { s with outbox := s.outbox ++
              [if a.toNat ≥ b.toNat then [0, c, d] else if c.toNat ≥ d.toNat then [0, a, b]
                else [0, BitVec.ofNat 32 (min a.toNat c.toNat), BitVec.ofNat 32 (max b.toNat d.toNat)]] })
    ∧ (∀ a b c d : BitVec 64,
        decode [0x243, a.extractLsb' 0 32, a.extractLsb' 32 32, b.extractLsb' 0 32, b.extractLsb' 32 32,
            c.extractLsb' 0 32, c.extractLsb' 32 32, d.extractLsb' 0 32, d.extractLsb' 32 32]
          = .ok (.rngUnionIi64 ⟨a, b⟩ ⟨c, d⟩)
        ∧ exec (.rngUnionIi64 ⟨a, b⟩ ⟨c, d⟩) s
            = .next { s with outbox := s.outbox ++
                [if a.toNat > b.toNat then 0 :: (wordsOf c.toNat ++ wordsOf d.toNat)
                  else if c.toNat > d.toNat then 0 :: (wordsOf a.toNat ++ wordsOf b.toNat)
                  else 0 :: (wordsOf (min a.toNat c.toNat) ++ wordsOf (max b.toNat d.toNat))] })
    ∧ ∀ a b c d : BitVec 64,
        decode [0x247, a.extractLsb' 0 32, a.extractLsb' 32 32, b.extractLsb' 0 32, b.extractLsb' 32 32,
            c.extractLsb' 0 32, c.extractLsb' 32 32, d.extractLsb' 0 32, d.extractLsb' 32 32]
          = .ok (.rngUnionIe64 ⟨a, b⟩ ⟨c, d⟩)
        ∧ exec (.rngUnionIe64 ⟨a, b⟩ ⟨c, d⟩) s
            = .next { s with outbox := s.outbox ++
                [if a.toNat ≥ b.toNat then 0 :: (wordsOf c.toNat ++ wordsOf d.toNat)
                  else if c.toNat ≥ d.toNat then 0 :: (wordsOf a.toNat ++ wordsOf b.toNat)
                  else 0 :: (wordsOf (min a.toNat c.toNat) ++ wordsOf (max b.toNat d.toNat))] }

/-- R152, R153: the length of a half-open range, 0 where the range is empty. -/
def Obligations.RngLengthStopsAtZero : Prop :=
  ∀ s : State,
    (∀ a b : Word, decode [0x256, a, b] = .ok (.rngLengthIe32 ⟨a, b⟩)
      ∧ exec (.rngLengthIe32 ⟨a, b⟩) s
          = .next { s with outbox := s.outbox ++
              [[0, BitVec.ofNat 32 (if b.toNat < a.toNat then 0 else b.toNat - a.toNat)]] })
    ∧ ∀ a b : BitVec 64,
        decode [0x257, a.extractLsb' 0 32, a.extractLsb' 32 32, b.extractLsb' 0 32, b.extractLsb' 32 32]
          = .ok (.rngLengthIe64 ⟨a, b⟩)
        ∧ exec (.rngLengthIe64 ⟨a, b⟩) s
            = .next { s with outbox := s.outbox ++
                [0 :: wordsOf (if b.toNat < a.toNat then 0 else b.toNat - a.toNat)] }

/-- The laws of R154, for ranges of every width and both kinds: `isect(r, r)` is `r` when `r` is not empty; `union` with an
empty range on either side is the other range bit for bit when that one is not empty (when both are empty R148 to R151
answer the second operand, so R154's "for every empty e" is stated for a nonempty `r`); ranges without a common point have
an empty intersection; the length of a half-open range is 0 exactly when it is empty. -/
def Obligations.RngLaws : Prop :=
  ∀ (w : Nat) (k : BoundKind) (r e t : Range w),
    (rangeEmpty k r = false → rangeIsect r r = r)
    ∧ (rangeEmpty k r = false → rangeEmpty k e = true → rangeUnion k r e = r ∧ rangeUnion k e r = r)
    ∧ ((∀ p : BitVec w, ¬ (rangeContains k r p = true ∧ rangeContains k t p = true)) →
        rangeEmpty k (rangeIsect r t) = true)
    ∧ (rangeLength r = 0 ↔ rangeEmpty .ie r = true)

/-! ## RCT -/

/-- R161, R162: a rectangle is empty when either axis is. -/
def Obligations.RctIsemptyAnswersEmptiness : Prop :=
  ∀ (s : State) (a b c d : Word),
    (decode [0x302, a, b, c, d] = .ok (.rctIsemptyIi32 ⟨a, b, c, d⟩)
      ∧ exec (.rctIsemptyIi32 ⟨a, b, c, d⟩) s
          = .next { s with outbox := s.outbox ++
              [[0, if a.toNat > c.toNat ∨ b.toNat > d.toNat then 1 else 0]] })
    ∧ decode [0x306, a, b, c, d] = .ok (.rctIsemptyIe32 ⟨a, b, c, d⟩)
      ∧ exec (.rctIsemptyIe32 ⟨a, b, c, d⟩) s
          = .next { s with outbox := s.outbox ++
              [[0, if a.toNat ≥ c.toNat ∨ b.toNat ≥ d.toNat then 1 else 0]] }

/-- R163, R164: two rectangles are equal when their fields are, or when both are empty as a whole. -/
def Obligations.RctEqualsJoinsTheEmptyRectangles : Prop :=
  ∀ (s : State) (r t : Rect),
    (decode [0x312, r.minX, r.minY, r.maxX, r.maxY, t.minX, t.minY, t.maxX, t.maxY]
        = .ok (.rctEqualsIi32 r t)
      ∧ exec (.rctEqualsIi32 r t) s
          = .next { s with outbox := s.outbox ++
              [[0, if r = t ∨ ((r.minX.toNat > r.maxX.toNat ∨ r.minY.toNat > r.maxY.toNat)
                    ∧ (t.minX.toNat > t.maxX.toNat ∨ t.minY.toNat > t.maxY.toNat)) then 1 else 0]] })
    ∧ decode [0x316, r.minX, r.minY, r.maxX, r.maxY, t.minX, t.minY, t.maxX, t.maxY]
        = .ok (.rctEqualsIe32 r t)
      ∧ exec (.rctEqualsIe32 r t) s
          = .next { s with outbox := s.outbox ++
              [[0, if r = t ∨ ((r.minX.toNat ≥ r.maxX.toNat ∨ r.minY.toNat ≥ r.maxY.toNat)
                    ∧ (t.minX.toNat ≥ t.maxX.toNat ∨ t.minY.toNat ≥ t.maxY.toNat)) then 1 else 0]] }

/-- R165, R166: a rectangle contains a point when both axes do. -/
def Obligations.RctContainsComparesThePoint : Prop :=
  ∀ (s : State) (r : Rect) (x y : Word),
    (decode [0x322, r.minX, r.minY, r.maxX, r.maxY, x, y] = .ok (.rctContainsIi32 r x y)
      ∧ exec (.rctContainsIi32 r x y) s
          = .next { s with outbox := s.outbox ++
              [[0, if (r.minX.toNat ≤ x.toNat ∧ x.toNat ≤ r.maxX.toNat)
                    ∧ r.minY.toNat ≤ y.toNat ∧ y.toNat ≤ r.maxY.toNat then 1 else 0]] })
    ∧ decode [0x326, r.minX, r.minY, r.maxX, r.maxY, x, y] = .ok (.rctContainsIe32 r x y)
      ∧ exec (.rctContainsIe32 r x y) s
          = .next { s with outbox := s.outbox ++
              [[0, if (r.minX.toNat ≤ x.toNat ∧ x.toNat < r.maxX.toNat)
                    ∧ r.minY.toNat ≤ y.toNat ∧ y.toNat < r.maxY.toNat then 1 else 0]] }

/-- R167, R168: the intersection of two rectangles, each axis on its own. -/
def Obligations.RctIsectAnswersTheInnerBounds : Prop :=
  ∀ (s : State) (r t : Rect),
    (decode [0x332, r.minX, r.minY, r.maxX, r.maxY, t.minX, t.minY, t.maxX, t.maxY]
        = .ok (.rctIsectIi32 r t)
      ∧ exec (.rctIsectIi32 r t) s
          = .next { s with outbox := s.outbox ++
              [[0, BitVec.ofNat 32 (max r.minX.toNat t.minX.toNat),
                BitVec.ofNat 32 (max r.minY.toNat t.minY.toNat),
                BitVec.ofNat 32 (min r.maxX.toNat t.maxX.toNat),
                BitVec.ofNat 32 (min r.maxY.toNat t.maxY.toNat)]] })
    ∧ decode [0x336, r.minX, r.minY, r.maxX, r.maxY, t.minX, t.minY, t.maxX, t.maxY]
        = .ok (.rctIsectIe32 r t)
      ∧ exec (.rctIsectIe32 r t) s
          = .next { s with outbox := s.outbox ++
              [[0, BitVec.ofNat 32 (max r.minX.toNat t.minX.toNat),
                BitVec.ofNat 32 (max r.minY.toNat t.minY.toNat),
                BitVec.ofNat 32 (min r.maxX.toNat t.maxX.toNat),
                BitVec.ofNat 32 (min r.maxY.toNat t.maxY.toNat)]] }

/-- R169, R170: the union of two rectangles is the other one bit for bit where one is empty as a whole, the first tested
first, else the bounding box. -/
def Obligations.RctUnionAnswersTheBoundingBox : Prop :=
  ∀ (s : State) (r t : Rect),
    (decode [0x342, r.minX, r.minY, r.maxX, r.maxY, t.minX, t.minY, t.maxX, t.maxY]
        = .ok (.rctUnionIi32 r t)
      ∧ exec (.rctUnionIi32 r t) s
          = .next { s with outbox := s.outbox ++
              [if r.minX.toNat > r.maxX.toNat ∨ r.minY.toNat > r.maxY.toNat then
                  [0, t.minX, t.minY, t.maxX, t.maxY]
                else if t.minX.toNat > t.maxX.toNat ∨ t.minY.toNat > t.maxY.toNat then
                  [0, r.minX, r.minY, r.maxX, r.maxY]
                else [0, BitVec.ofNat 32 (min r.minX.toNat t.minX.toNat),
                  BitVec.ofNat 32 (min r.minY.toNat t.minY.toNat),
                  BitVec.ofNat 32 (max r.maxX.toNat t.maxX.toNat),
                  BitVec.ofNat 32 (max r.maxY.toNat t.maxY.toNat)]] })
    ∧ decode [0x346, r.minX, r.minY, r.maxX, r.maxY, t.minX, t.minY, t.maxX, t.maxY]
        = .ok (.rctUnionIe32 r t)
      ∧ exec (.rctUnionIe32 r t) s
          = .next { s with outbox := s.outbox ++
              [if r.minX.toNat ≥ r.maxX.toNat ∨ r.minY.toNat ≥ r.maxY.toNat then
                  [0, t.minX, t.minY, t.maxX, t.maxY]
                else if t.minX.toNat ≥ t.maxX.toNat ∨ t.minY.toNat ≥ t.maxY.toNat then
                  [0, r.minX, r.minY, r.maxX, r.maxY]
                else [0, BitVec.ofNat 32 (min r.minX.toNat t.minX.toNat),
                  BitVec.ofNat 32 (min r.minY.toNat t.minY.toNat),
                  BitVec.ofNat 32 (max r.maxX.toNat t.maxX.toNat),
                  BitVec.ofNat 32 (max r.maxY.toNat t.maxY.toNat)]] }

/-- R171, R172: the width and the height of a half-open rectangle, each read from its own axis alone; a closed rectangle has
neither. -/
def Obligations.RctWidthAndHeightStopAtZero : Prop :=
  ∀ (s : State) (r : Rect),
    (decode [0x356, r.minX, r.minY, r.maxX, r.maxY] = .ok (.rctWidthIe32 r)
      ∧ exec (.rctWidthIe32 r) s
          = .next { s with outbox := s.outbox ++
              [[0, BitVec.ofNat 32
                (if r.maxX.toNat < r.minX.toNat then 0 else r.maxX.toNat - r.minX.toNat)]] })
    ∧ decode [0x366, r.minX, r.minY, r.maxX, r.maxY] = .ok (.rctHeightIe32 r)
      ∧ exec (.rctHeightIe32 r) s
          = .next { s with outbox := s.outbox ++
              [[0, BitVec.ofNat 32
                (if r.maxY.toNat < r.minY.toNat then 0 else r.maxY.toNat - r.minY.toNat)]] }
      ∧ decode [0x352, r.minX, r.minY, r.maxX, r.maxY] = .error .unknownHeader
      ∧ decode [0x362, r.minX, r.minY, r.maxX, r.maxY] = .error .unknownHeader

/-- The laws of R175: those of R154 for rectangles (with its law of `union` for a nonempty `r`, see RngLaws), and clipping:
the intersection with an image of `width` by `height` has its upper bounds clamped. -/
def Obligations.RctLaws : Prop :=
  ∀ (k : BoundKind) (r e t : Rect),
    (rectEmpty k r = false → rectIsect r r = r)
    ∧ (rectEmpty k r = false → rectEmpty k e = true → rectUnion k r e = r ∧ rectUnion k e r = r)
    ∧ ((∀ x y : Word, ¬ (rectContains k r x y = true ∧ rectContains k t x y = true)) →
        rectEmpty k (rectIsect r t) = true)
    ∧ ∀ width height : Word,
        (rectIsect r ⟨0, 0, width, height⟩).maxX.toNat = min r.maxX.toNat width.toNat
        ∧ (rectIsect r ⟨0, 0, width, height⟩).maxY.toNat = min r.maxY.toNat height.toNat
        ∧ (rectIsect r ⟨0, 0, width, height⟩).minX = r.minX
        ∧ (rectIsect r ⟨0, 0, width, height⟩).minY = r.minY

/-! ## PXF -/

/-- R185 to R187: validity, the index code and the plane count of every format word. The places of bits 27:16 are the spec's
general knowledge (R180), log entry 8. -/
def Obligations.PxfAnswersTheFormatFields : Prop :=
  ∀ (s : State) (f : Word),
    (decode [0x400, f] = .ok (.pxfIsvalid f)
      ∧ exec (.pxfIsvalid f) s
          = .next { s with outbox := s.outbox ++ [[0, if f ≠ 0 then 1 else 0]] })
    ∧ (decode [0x410, f] = .ok (.pxfIsindexed f)
      ∧ exec (.pxfIsindexed f) s
          = .next { s with outbox := s.outbox ++ [[0, if f.extractLsb' 16 4 ≠ 0 then 1 else 0]] })
    ∧ decode [0x420, f] = .ok (.pxfNumplanes f)
      ∧ exec (.pxfNumplanes f) s
          = .next { s with outbox := s.outbox ++
              [[0, if f = 0 then 0 else (f.extractLsb' 20 2).setWidth 32 + 1]] }

/-- R188: the depth of channel `k` of every format word, by the table of R183. -/
def Obligations.PxfDepthAnswersTheTable : Prop :=
  ∀ (s : State) (f : Word) (k : Nat), k < 4 →
    decode [BitVec.ofNat 32 (0x430 + 4096 * k), f] = .ok (.pxfDepth (BitVec.ofNat 4 k) f)
    ∧ exec (.pxfDepth (BitVec.ofNat 4 k) f) s
        = .next { s with outbox := s.outbox ++
            [[0, ([0, 1, 2, 3, 4, 5, 6, 7, 8, 10, 12, 16, 24, 32, 48, 64] : List Word).getD
              (f.extractLsb' (4 * k) 4).toNat 0]] }

/-! ## SWZ: what is admitted -/

/-- R203: the admitted direct formats, by the bits of the word. A depth code of 1 to 8 is a depth of as many bits.
The places of bits 27:16 are log entry 8's. -/
def Obligations.DirectFormatsAdmitted : Prop :=
  ∀ f : Word,
    let c := fun k => (f.extractLsb' (4 * k) 4).toNat
    let model := (f.extractLsb' 28 3).toNat
    let nch := (if model = 1 then 1 else 3) + (if f.extractLsb' 24 2 = 0 then 0 else 1)
    directOk f = true ↔
      f ≠ 0 ∧ f.extractLsb' 31 1 = 0 ∧ f.extractLsb' 26 2 = 0 ∧ f.extractLsb' 23 1 = 0
      ∧ f.extractLsb' 22 1 = 0 ∧ f.extractLsb' 20 2 = 0 ∧ f.extractLsb' 16 4 = 0
      ∧ (model = 1 ∨ model = 2 ∨ model = 3)
      ∧ (∀ k : Nat, k < 4 → if k < nch then 1 ≤ c k ∧ c k ≤ 8 else c k = 0)
      ∧ (c 0 + c 1 + c 2 + c 3) % 8 = 0

/-- R204: the admitted indexed source formats, by the bits of the word. The places of bits 27:16 are log entry 8's. -/
def Obligations.IndexedFormatsAdmitted : Prop :=
  ∀ f : Word,
    indexedOk f = true ↔
      f ≠ 0 ∧ f.extractLsb' 31 1 = 0 ∧ f.extractLsb' 26 2 = 0 ∧ f.extractLsb' 23 1 = 0
      ∧ f.extractLsb' 22 1 = 0 ∧ f.extractLsb' 20 2 = 0 ∧ f.extractLsb' 16 4 = 8
      ∧ (f.extractLsb' 28 3 = 2 ∨ f.extractLsb' 28 3 = 3)
      ∧ f.extractLsb' 0 4 = 8 ∧ f.extractLsb' 4 4 = 8 ∧ f.extractLsb' 8 4 = 8
      ∧ f.extractLsb' 12 4 = (if f.extractLsb' 24 2 = 0 then 0 else 8)

/-- R205, R206: which triples are supported, and that an admitted format has 1 to 4 bytes per pixel: 1 where it is indexed,
else the bits of its channels over 8. -/
def Obligations.SupportedTriplesAndPixelWidths : Prop :=
  (∀ sf df blend : Word,
    supported sf df blend = true ↔
      (blend = 0 ∨ blend = 1) ∧ directOk df = true ∧ (directOk sf = true ∨ indexedOk sf = true)
      ∧ (df.extractLsb' 28 3 = 1 → sf.extractLsb' 28 3 = 1))
  ∧ ∀ f : Word,
      (directOk f = true →
        8 * bpp f = (f.extractLsb' 0 4).toNat + (f.extractLsb' 4 4).toNat + (f.extractLsb' 8 4).toNat
          + (f.extractLsb' 12 4).toNat ∧ 1 ≤ bpp f ∧ bpp f ≤ 4)
      ∧ (indexedOk f = true → bpp f = 1)

/-! ## SWZ.PREPARE -/

/-- R201 with a source format that is not indexed: a supported triple is stored, its bytes per pixel derived, and the
palette operands ignored; nothing else changes. -/
def Obligations.PrepareStoresADirectTriple : Prop :=
  ∀ (s : State) (df sf blend : Word) (dp sp : Slice),
    supported sf df blend = true → sf.extractLsb' 16 4 = 0 →
      exec (.swzPrepare df dp sf sp blend) s
        = .next
            { s with
              swz :=
                { state := .prepared, srcFmt := sf, dstFmt := df
                  blend := if blend = 1 then .srcOver else .src
                  sbpp := BitVec.ofNat 3 (bpp sf), dbpp := BitVec.ofNat 3 (bpp df)
                  srcPal := s.swz.srcPal }
              outbox := s.outbox ++ [[0]] }

/-- R201, R207 with an indexed source format: a supported triple is stored and the 1024 bytes of the palette slice are
copied by value, byte `j` from address `ptr + j`; nothing else changes. -/
def Obligations.PrepareCapturesThePalette : Prop :=
  ∀ (s : State) (df sf blend : Word) (dp sp : Slice),
    supported sf df blend = true → sf.extractLsb' 16 4 ≠ 0 → sp.len = 1024 →
    sp.ptr.toNat + 1024 ≤ 2 ^ 64 → s.mem.backed sp.ptr.toNat 1024 →
      ∃ pal : Palette,
        exec (.swzPrepare df dp sf sp blend) s
          = .next
              { s with
                swz :=
                  { state := .prepared, srcFmt := sf, dstFmt := df
                    blend := if blend = 1 then .srcOver else .src
                    sbpp := BitVec.ofNat 3 (bpp sf), dbpp := BitVec.ofNat 3 (bpp df)
                    srcPal := pal }
                outbox := s.outbox ++ [[0]] }
        ∧ ∀ (j : Nat) (h : j < 1024), s.mem.read (sp.ptr.toNat + j) = some pal[j]

/-- R208 (with the order of R201 and R264): a failed PREPARE leaves the swizzler Unprepared whatever it was, writes no
memory, and answers the first error that applies. -/
def Obligations.FailedPrepareIsUnprepared : Prop :=
  ∀ (s : State) (df sf blend : Word) (dp sp : Slice),
    let indexed := fun f : Word => f.extractLsb' 16 4 ≠ 0
    let badLength := (indexed df ∧ dp.len ≠ 1024) ∨ (indexed sf ∧ sp.len ≠ 1024)
    let failsWith := fun status : Word =>
      ∃ t : State, exec (.swzPrepare df dp sf sp blend) s = .next t ∧ t.swz.state = .unprepared
        ∧ t.mem = s.mem ∧ t.inbox = s.inbox ∧ t.outbox = s.outbox ++ [[status]]
    (badLength → failsWith 0x83000000)
    ∧ (¬ badLength → supported sf df blend = false → failsWith 0x84000000)
    ∧ (¬ badLength → supported sf df blend = true → indexed sf → sp.ptr.toNat + 1024 > 2 ^ 64 →
        failsWith 0x82000000)
    ∧ (¬ badLength → supported sf df blend = true → indexed sf → sp.ptr.toNat + 1024 ≤ 2 ^ 64 →
        ¬ s.mem.backed sp.ptr.toNat 1024 → failsWith 0x86000000)

/-! ## SWZ.SWIZZLE -/

/-- R223: SWZ.SWIZZLE in the Unprepared state answers ERR_NOT_PREPARED with count 0 and changes nothing. -/
def Obligations.SwizzleUnpreparedIsRefused : Prop :=
  ∀ (s : State) (dst dp src : Slice), s.swz.state = .unprepared →
    exec (.swzSwizzle dst dp src) s = .next { s with outbox := s.outbox ++ [[0x85000000, 0, 0]] }

/-- R224: a destination or source slice that wraps is answered with ERR_BAD_ARGUMENT and count 0, and nothing changes. -/
def Obligations.SwizzleOfAWrappingSliceIsRefused : Prop :=
  ∀ (s : State) (dst dp src : Slice), s.swz.state = .prepared → (¬ sliceFits dst ∨ ¬ sliceFits src) →
    exec (.swzSwizzle dst dp src) s = .next { s with outbox := s.outbox ++ [[0x82000000, 0, 0]] }

/-- R209, R210, R211: where the bytes of the `n` whole pixels of both slices are backed (no other byte need be),
SWZ.SWIZZLE answers OK and `n`; every byte outside those destination bytes reads as before, and nothing else changes. No
pixel at all is a success (R209). -/
def Obligations.SwizzleCompletesOnBackedPixels : Prop :=
  ∀ (s : State) (dst dp src : Slice),
    let n := min (dst.len.toNat / s.swz.dbpp.toNat) (src.len.toNat / s.swz.sbpp.toNat)
    s.swz.state = .prepared → sliceFits dst → sliceFits src →
    s.mem.backed src.ptr.toNat (n * s.swz.sbpp.toNat) →
    s.mem.backed dst.ptr.toNat (n * s.swz.dbpp.toNat) →
      ∃ m : Memory,
        exec (.swzSwizzle dst dp src) s
          = .next { s with mem := m, outbox := s.outbox ++ [0 :: wordsOf n] }
        ∧ ∀ x : Nat, (x < dst.ptr.toNat ∨ dst.ptr.toNat + n * s.swz.dbpp.toNat ≤ x) →
            m.read x = s.mem.read x

/-- R212 to R221, one pixel after another: with source and destination bytes apart, destination pixel `i` afterwards is
the conversion of source pixel `i` (and, under SRC_OVER, of destination pixel `i`) as they were before. What the conversion
is, from the bits of the two format words (those in bits 27:16 are log entry 8's): the source pixel is the channels of the
pixel word, widened, or the palette entry of an index (R213), in the order of R215; the destination pixel is read likewise;
`o` is what R219 or R220 makes of them, by the alpha kinds (PremulRoundsToNearest states R216 and R219,
UnpremulRoundsAndClamps states R220, whose formula is log entry 13's); and channel `k` of the stored pixel word is the top
bits of the channel that R221 gives format and `o`. -/
def Obligations.SwizzleConvertsEveryPixel : Prop :=
  (∀ (s t : State) (dst dp src : Slice) (i : Nat) (sb db : List Byte),
    let n := min (dst.len.toNat / s.swz.dbpp.toNat) (src.len.toNat / s.swz.sbpp.toNat)
    let sw := s.swz.sbpp.toNat
    let dw := s.swz.dbpp.toNat
    s.swz.state = .prepared → sliceFits dst → sliceFits src →
    s.mem.backed src.ptr.toNat (n * sw) → s.mem.backed dst.ptr.toNat (n * dw) →
    (dst.ptr.toNat + n * dw ≤ src.ptr.toNat ∨ src.ptr.toNat + n * sw ≤ dst.ptr.toNat) →
    exec (.swzSwizzle dst dp src) s = .next t → i < n →
    s.mem.readBytes (src.ptr.toNat + i * sw) sw = some sb →
    s.mem.readBytes (dst.ptr.toNat + i * dw) dw = some db →
      t.mem.readBytes (dst.ptr.toNat + i * dw) dw = some (converted s.swz sb db))
  ∧ ∀ (z : Swizzler) (sb db : List Byte),
    let model := fun f : Word => (f.extractLsb' 28 3).toNat
    let transp := fun f : Word => (f.extractLsb' 24 2).toNat
    let channels := fun f : Word => (if model f = 1 then 1 else 3) + (if transp f = 0 then 0 else 1)
    let depth := fun (f : Word) (k : Nat) => (f.extractLsb' (4 * k) 4).toNat
    let offset := fun (f : Word) (k : Nat) => ((List.range k).map (depth f)).sum
    let alpha := fun (f : Word) (x : Byte) => if transp f = 2 ∨ transp f = 3 then x else 255
    let ordered : Word → (Nat → Byte) → Pixel := fun f ch =>
      if model f = 1 then ⟨ch 0, ch 0, ch 0, alpha f (ch 1)⟩
      else if model f = 2 then ⟨ch 2, ch 1, ch 0, alpha f (ch 3)⟩
      else ⟨ch 0, ch 1, ch 2, alpha f (ch 3)⟩
    let sample := fun (f : Word) (bytes : List Byte) (k : Nat) =>
      BitVec.ofNat 8 (widen8 (leNat bytes / 2 ^ offset f k % 2 ^ depth f k) (depth f k))
    let stored := fun (f : Word) (p : Pixel) (k : Nat) =>
      if model f = 1 then (if k = 0 then p.r else alpha f p.a)
      else if k = 0 then (if model f = 2 then p.b else p.r)
      else if k = 1 then p.g
      else if k = 2 then (if model f = 2 then p.r else p.b)
      else alpha f p.a
    let o :=
      if z.blend = .src then srcConvert (sourcePixel z sb) (alphaKind z.srcFmt) (alphaKind z.dstFmt)
      else srcOver (sourcePixel z sb) (alphaKind z.srcFmt) (destPixel z db) (alphaKind z.dstFmt)
    (directOk z.srcFmt = true → sourcePixel z sb = ordered z.srcFmt (sample z.srcFmt sb))
    ∧ (∀ idx : Byte, indexedOk z.srcFmt = true → sb = [idx] →
        sourcePixel z sb
          = ordered z.srcFmt fun k =>
              if h : k < 4 then z.srcPal[4 * idx.toNat + k]'(by have := idx.isLt; omega) else 0)
    ∧ (directOk z.dstFmt = true → destPixel z db = ordered z.dstFmt (sample z.dstFmt db))
    ∧ (directOk z.dstFmt = true → z.dbpp.toNat = bpp z.dstFmt →
        (converted z sb db).length = z.dbpp.toNat
        ∧ offset z.dstFmt (channels z.dstFmt) = 8 * z.dbpp.toNat
        ∧ ∀ k : Nat, k < channels z.dstFmt →
            leNat (converted z sb db) / 2 ^ offset z.dstFmt k % 2 ^ depth z.dstFmt k
              = (stored z.dstFmt o k).toNat / 2 ^ (8 - depth z.dstFmt k))

/-- R212, for slices that overlap in any way: a SWIZZLE of one pixel more is the SWIZZLE of `k` pixels and then pixel `k`,
converted from the bytes those `k` pixels left. -/
def Obligations.SwizzleConvertsInAscendingOrder : Prop :=
  ∀ (s t : State) (dst dst' dp src src' : Slice) (k : Nat) (sb db : List Byte),
    let sw := s.swz.sbpp.toNat
    let dw := s.swz.dbpp.toNat
    s.swz.state = .prepared → sliceFits dst' → sliceFits src' → dst'.ptr = dst.ptr → src'.ptr = src.ptr →
    min (dst.len.toNat / dw) (src.len.toNat / sw) = k →
    min (dst'.len.toNat / dw) (src'.len.toNat / sw) = k + 1 →
    exec (.swzSwizzle dst dp src) s = .next t → t.outbox = s.outbox ++ [0 :: wordsOf k] →
    t.mem.readBytes (src.ptr.toNat + k * sw) sw = some sb →
    t.mem.readBytes (dst.ptr.toNat + k * dw) dw = some db →
      ∃ m : Memory,
        exec (.swzSwizzle dst' dp src') s
          = .next { s with mem := m, outbox := s.outbox ++ [0 :: wordsOf (k + 1)] }
        ∧ m.readBytes (dst.ptr.toNat + k * dw) dw = some (converted s.swz sb db)
        ∧ ∀ x : Nat, (x < dst.ptr.toNat + k * dw ∨ dst.ptr.toNat + (k + 1) * dw ≤ x) →
            m.read x = t.mem.read x

/-- R211, the writes: whatever SWZ.SWIZZLE answers, every byte outside the `n` destination pixels reads as before, and
those pixels lie inside the destination slice. -/
def Obligations.SwizzleWritesOnlyItsPixels : Prop :=
  ∀ (s t : State) (dst dp src : Slice),
    let n := min (dst.len.toNat / s.swz.dbpp.toNat) (src.len.toNat / s.swz.sbpp.toNat)
    exec (.swzSwizzle dst dp src) s = .next t →
      n * s.swz.dbpp.toNat ≤ dst.len.toNat ∧ n * s.swz.sbpp.toNat ≤ src.len.toNat
      ∧ ∀ x : Nat, (x < dst.ptr.toNat ∨ dst.ptr.toNat + n * s.swz.dbpp.toNat ≤ x) →
          t.mem.read x = s.mem.read x

/-- R211, the reads: two states that differ only in memory, and there not on the source bytes nor on the destination bytes
of the `n` pixels, give the same response and the same destination bytes: no other byte is read. -/
def Obligations.SwizzleReadsOnlyItsPixels : Prop :=
  ∀ (s : State) (m m' : Memory) (dst dp src : Slice),
    let n := min (dst.len.toNat / s.swz.dbpp.toNat) (src.len.toNat / s.swz.sbpp.toNat)
    m.sameOn m' src.ptr.toNat (n * s.swz.sbpp.toNat) →
    m.sameOn m' dst.ptr.toNat (n * s.swz.dbpp.toNat) →
      ∃ t t' : State,
        exec (.swzSwizzle dst dp src) { s with mem := m } = .next t
        ∧ exec (.swzSwizzle dst dp src) { s with mem := m' } = .next t'
        ∧ t.outbox = t'.outbox
        ∧ t.mem.sameOn t'.mem dst.ptr.toNat (n * s.swz.dbpp.toNat)

/-- R211 under SRC: no destination byte is read. Two states that differ only in memory, alike on the source bytes and
backing the same destination bytes, give the same response; and if it is OK, the same destination bytes. -/
def Obligations.SrcReadsNoDestinationByte : Prop :=
  ∀ (s : State) (m m' : Memory) (dst dp src : Slice),
    let n := min (dst.len.toNat / s.swz.dbpp.toNat) (src.len.toNat / s.swz.sbpp.toNat)
    s.swz.state = .prepared → sliceFits dst → sliceFits src → s.swz.blend = .src →
    m.sameOn m' src.ptr.toNat (n * s.swz.sbpp.toNat) →
    m.backedAlike m' dst.ptr.toNat (n * s.swz.dbpp.toNat) →
      ∃ t t' : State,
        exec (.swzSwizzle dst dp src) { s with mem := m } = .next t
        ∧ exec (.swzSwizzle dst dp src) { s with mem := m' } = .next t'
        ∧ t.outbox = t'.outbox
        ∧ (t.outbox = s.outbox ++ [0 :: wordsOf n] →
            t.mem.sameOn t'.mem dst.ptr.toNat (n * s.swz.dbpp.toNat))

/-- R43, R225: where pixels 0 to `i - 1` are backed and a byte of pixel `i` is not, SWZ.SWIZZLE answers ERR_MEM_FAULT with
count `i`, and the swizzler's registers do not change. Outside pixel `i`'s destination bytes memory is what a SWIZZLE of `i`
pixels from the same addresses leaves, which answers OK and `i`, so those pixels are stored whole; no byte outside
destination pixels 0 to `i` changes. Of pixel `i` nothing is stored where its source is refused, or under SRC_OVER (its
destination is then read before it is written); under SRC the bytes before the first refused one are stored. Which
addresses are refused is log entry 6. -/
def Obligations.RefusedAccessEndsTheSwizzle : Prop :=
  ∀ (s : State) (dst dp src : Slice) (i : Nat),
    let n := min (dst.len.toNat / s.swz.dbpp.toNat) (src.len.toNat / s.swz.sbpp.toNat)
    let sw := s.swz.sbpp.toNat
    let dw := s.swz.dbpp.toNat
    let srcI := src.ptr.toNat + i * sw
    let dstI := dst.ptr.toNat + i * dw
    s.swz.state = .prepared → sliceFits dst → sliceFits src → i < n →
    s.mem.backed src.ptr.toNat (i * sw) → s.mem.backed dst.ptr.toNat (i * dw) →
    (¬ s.mem.backed srcI sw ∨ ¬ s.mem.backed dstI dw) →
      ∃ m m' : Memory,
        exec (.swzSwizzle dst dp src) s
          = .next { s with mem := m, outbox := s.outbox ++ [0x86000000 :: wordsOf i] }
        ∧ exec (.swzSwizzle ⟨dst.ptr, BitVec.ofNat 64 (i * dw)⟩ dp ⟨src.ptr, BitVec.ofNat 64 (i * sw)⟩) s
            = .next { s with mem := m', outbox := s.outbox ++ [0 :: wordsOf i] }
        ∧ (∀ x : Nat, (x < dstI ∨ dstI + dw ≤ x) → m.read x = m'.read x)
        ∧ (∀ x : Nat, (x < dst.ptr.toNat ∨ dstI + dw ≤ x) → m.read x = s.mem.read x)
        ∧ ((¬ s.mem.backed srcI sw ∨ s.swz.blend = .srcOver) → ∀ x : Nat, m.read x = m'.read x)
        ∧ ∀ (sb : List Byte) (j : Nat), s.swz.blend = .src → m'.readBytes srcI sw = some sb → j < dw →
            s.mem.backed dstI j → s.mem.read (dstI + j) = none →
              (∀ l : Nat, l < j → m.read (dstI + l) = some ((converted s.swz sb []).getD l 0))
              ∧ ∀ l : Nat, j ≤ l → l < dw → m.read (dstI + l) = m'.read (dstI + l)

/-! ## One pixel -/

/-- R214: widening repeats the pattern, by its closed form at every depth of 1 to 8 bits; 0 and all ones are kept; narrowing
keeps the top bits and undoes widening. -/
def Obligations.NarrowUndoesWiden : Prop :=
  (∀ d v : Nat, 1 ≤ d → d ≤ 8 → v < 2 ^ d →
    widen8 v d ≤ 255 ∧ narrow (widen8 v d) d = v ∧ widen8 0 d = 0 ∧ widen8 (2 ^ d - 1) d = 255)
  ∧ (∀ v8 d : Nat, d ≤ 8 → narrow v8 d = v8 / 2 ^ (8 - d))
  ∧ (∀ v : Nat, v < 256 → widen8 v 8 = v) ∧ (∀ v : Nat, v < 128 → widen8 v 7 = v * 2 + v / 64)
  ∧ (∀ v : Nat, v < 64 → widen8 v 6 = v * 4 + v / 16) ∧ (∀ v : Nat, v < 32 → widen8 v 5 = v * 8 + v / 4)
  ∧ (∀ v : Nat, v < 16 → widen8 v 4 = v * 17) ∧ (∀ v : Nat, v < 8 → widen8 v 3 = v * 73 / 2)
  ∧ (∀ v : Nat, v < 4 → widen8 v 2 = v * 85) ∧ (∀ v : Nat, v < 2 → widen8 v 1 = v * 255)

/-- R217: premultiplying rounds `c * a / 255` to the nearest integer, and keeps the identities of R217. R216 and R219: the
alpha kind of a format is its transparency code (bits 25:24, log entry 8), and SRC makes of a source pixel `p` what the table
of R219 gives its kind and the destination's. -/
def Obligations.PremulRoundsToNearest : Prop :=
  (∀ t : Nat, 2 * t < 2 * 255 * div255r t + 255 ∧ 2 * 255 * div255r t < 2 * t + 255)
  ∧ (∀ c a : Byte,
      (premul c a).toNat = div255r (c.toNat * a.toNat)
      ∧ premul c 255 = c ∧ premul c 0 = 0 ∧ premul 255 a = a)
  ∧ (∀ f : Word,
      alphaKind f
        = if f.extractLsb' 24 2 = 2 then .nonpremul else if f.extractLsb' 24 2 = 3 then .premul else .opaqueKind)
  ∧ ∀ p : Pixel,
      (∀ dk : AlphaKind, srcConvert p .opaqueKind dk = p)
      ∧ srcConvert p .nonpremul .nonpremul = p
      ∧ srcConvert p .nonpremul .premul = ⟨premul p.r p.a, premul p.g p.a, premul p.b p.a, p.a⟩
      ∧ srcConvert p .nonpremul .opaqueKind = ⟨premul p.r p.a, premul p.g p.a, premul p.b p.a, p.a⟩
      ∧ srcConvert p .premul .premul = p
      ∧ srcConvert p .premul .nonpremul = ⟨unpremul p.r p.a, unpremul p.g p.a, unpremul p.b p.a, p.a⟩
      ∧ srcConvert p .premul .opaqueKind = p

/-- R218: un-premultiplying answers 0 for alpha 0 and else the rounded quotient clamped to 255; alpha 255 keeps the
colour. R220: SRC_OVER makes of a source pixel `p` and a destination pixel `d` the premultiplied source plus the
premultiplied destination weighted by 255 less the source's alpha, each product rounded and each sum saturated, and
un-premultiplies the result for a NONPREMUL destination. The formula of R220 is the spec's general knowledge, log
entry 13. -/
def Obligations.UnpremulRoundsAndClamps : Prop :=
  (∀ c a : Byte,
    unpremul c 0 = 0 ∧ unpremul c 255 = c
    ∧ (a ≠ 0 → (unpremul c a).toNat = min 255 ((c.toNat * 255 + a.toNat / 2) / a.toNat)))
  ∧ ∀ (p d : Pixel) (sk dk : AlphaKind),
      let s : Pixel := if sk = .nonpremul then ⟨premul p.r p.a, premul p.g p.a, premul p.b p.a, p.a⟩ else p
      let q : Pixel := if dk = .nonpremul then ⟨premul d.r d.a, premul d.g d.a, premul d.b d.a, d.a⟩ else d
      let mix := fun x y : Byte =>
        BitVec.ofNat 8 (min 255 (x.toNat + (y.toNat * (255 - s.a.toNat) + 127) / 255))
      let r : Pixel := ⟨mix s.r q.r, mix s.g q.g, mix s.b q.b, mix s.a q.a⟩
      srcOver p sk d dk
        = if dk = .nonpremul then ⟨unpremul r.r r.a, unpremul r.g r.a, unpremul r.b r.a, r.a⟩ else r

/-- R226 (c): an SRC_OVER whose source format is OPAQUE gives the same response and the same memory as SRC, on backed
pixels. The SRC_OVER formula is the spec's general knowledge, log entry 13. -/
def Obligations.OpaqueSrcOverIsSrc : Prop :=
  ∀ (s : State) (dst dp src : Slice),
    let n := min (dst.len.toNat / s.swz.dbpp.toNat) (src.len.toNat / s.swz.sbpp.toNat)
    alphaKind s.swz.srcFmt = .opaqueKind →
    s.mem.backed src.ptr.toNat (n * s.swz.sbpp.toNat) →
    s.mem.backed dst.ptr.toNat (n * s.swz.dbpp.toNat) →
      ∃ t t' : State,
        exec (.swzSwizzle dst dp src) { s with swz := { s.swz with blend := .srcOver } } = .next t
        ∧ exec (.swzSwizzle dst dp src) { s with swz := { s.swz with blend := .src } } = .next t'
        ∧ t.outbox = t'.outbox ∧ t.mem = t'.mem

/-- R226 (b): for two direct formats of the same alpha kind without an X channel, with the same channels at pairwise equal
depths (in the same order, or the colours of one BGR and of the other RGB), SRC from the first to the second and back gives
every pixel's bytes again. The X channel is left out because its byte is stored as all ones (R221). -/
def Obligations.RoundTripKeepsThePixel : Prop :=
  ∀ (z z' : Swizzler) (bytes db db' : List Byte),
    let a := z.srcFmt
    let b := z.dstFmt
    z.blend = .src → z'.blend = .src → z'.srcFmt = b → z'.dstFmt = a →
    directOk a = true → directOk b = true →
    z.dbpp.toNat = bpp b → z'.dbpp.toNat = bpp a →
    pfTransp a ≠ 1 → pfTransp a = pfTransp b →
    ((pfModel a = pfModel b ∧ ∀ k : Nat, k < 4 → chanDepth a k = chanDepth b k)
      ∨ (pfModel a ≠ 1 ∧ pfModel b ≠ 1 ∧ pfModel a ≠ pfModel b
          ∧ chanDepth a 0 = chanDepth b 2 ∧ chanDepth a 1 = chanDepth b 1
          ∧ chanDepth a 2 = chanDepth b 0 ∧ chanDepth a 3 = chanDepth b 3)) →
    bytes.length = bpp a →
      converted z' (converted z bytes db) db' = bytes

/-! ## The whole machine -/

/-- Every step keeps the invariant: memory in canonical form and R16 (in the Prepared state the triple is supported and the
bytes per pixel are those of the formats). -/
def Obligations.EveryStepKeepsTheInvariant : Prop :=
  ∀ s t : State, s.inv → step s = .next t → t.inv

/-- The reset state keeps the invariant. -/
def Obligations.ResetKeepsTheInvariant : Prop :=
  State.reset.inv

/-- R15, R290: states that differ only in registers that are unspecified, or in a palette that the source format does not
use, stay so under every step and give the same responses and memory: no command sequence observes those registers. -/
def Obligations.UnspecifiedRegistersAreNeverObserved : Prop :=
  ∀ s t : State, s.alike t →
    ∃ s' t' : State, step s = .next s' ∧ step t = .next t' ∧ s'.alike t'

/-- R200, R292: only SWZ.PREPARE writes the swizzler's registers, only SWZ.SWIZZLE writes memory, and no command touches
the host's moves to come. -/
def Obligations.OnlySwzCommandsChangeState : Prop :=
  ∀ (i : Instr) (s t : State), exec i s = .next t →
    ((∀ df dp sf sp bl, i ≠ .swzPrepare df dp sf sp bl) → t.swz = s.swz)
    ∧ ((∀ dst dp src, i ≠ .swzSwizzle dst dp src) → t.mem = s.mem)
    ∧ t.inbox = s.inbox ∧ ∃ p : Packet, t.outbox = s.outbox ++ [p]

/-- No command backs an address or takes its backing away: the memory is the host's (R17, R40). -/
def Obligations.CommandsKeepTheBacking : Prop :=
  ∀ (i : Instr) (s t : State), exec i s = .next t →
    ∀ x : Nat, (t.mem.read x).isSome = (s.mem.read x).isSome
end

