-- ==== Sys2Proof/Laws/Decode.lean ====
section
/-! SUPPORT. What the decoder and its parts do: 64-bit values and their two words, the operand readers (each answers
exactly on the operand words of its shape), and the one inversion lemma of `decode`. -/

namespace Sys2Proof

theorem join_lo32_hi32 (x : BitVec 64) : join (lo32 x) (hi32 x) = x := by
  unfold join lo32 hi32
  ext i hi
  simp only [BitVec.getElem_append, BitVec.getElem_extractLsb']
  split
  · simp [BitVec.getLsbD_eq_getElem hi]
  · rw [show 32 + (i - 32) = i by omega]; simp [BitVec.getLsbD_eq_getElem hi]

theorem toNat_join (a b : Word) : (join a b).toNat = a.toNat + 2 ^ 32 * b.toNat := by
  have := a.isLt
  unfold join
  rw [BitVec.toNat_append, ← Nat.shiftLeft_add_eq_or_of_lt this, Nat.shiftLeft_eq]
  omega

theorem toNat_lo32 (x : BitVec 64) : (lo32 x).toNat = x.toNat % 2 ^ 32 := by
  simp [lo32, BitVec.extractLsb'_toNat]

theorem toNat_hi32 (x : BitVec 64) : (hi32 x).toNat = x.toNat / 2 ^ 32 := by
  have := x.isLt
  simp only [hi32, BitVec.extractLsb'_toNat, Nat.shiftRight_eq_div_pow]
  omega

@[simp] theorem lo32_join (a b : Word) : lo32 (join a b) = a := by
  apply BitVec.eq_of_toNat_eq
  have := a.isLt
  rw [toNat_lo32, toNat_join]; omega

@[simp] theorem hi32_join (a b : Word) : hi32 (join a b) = b := by
  apply BitVec.eq_of_toNat_eq
  have := a.isLt
  rw [toNat_hi32, toNat_join]; omega

/-! The operand readers. -/

theorem one32_eq_some {f : Word → Instr} {h : Word} {ops : List Word} {i : Instr}
    (e : one32 f h ops = some i) : ∃ x, ops = [x] ∧ i = f x := by
  unfold one32 at e
  split at e
  · cases e; exact ⟨_, by simp, rfl⟩
  · cases e

theorem one64_eq_some {f : BitVec 64 → Instr} {h : Word} {ops : List Word} {i : Instr}
    (e : one64 f h ops = some i) : ∃ x, ops = [lo32 x, hi32 x] ∧ i = f x := by
  unfold one64 at e
  split at e
  · cases e; exact ⟨_, by simp, rfl⟩
  · cases e

theorem two32_eq_some {f : Word → Word → Instr} {h : Word} {ops : List Word} {i : Instr}
    (e : two32 f h ops = some i) : ∃ x y, ops = [x, y] ∧ i = f x y := by
  unfold two32 at e
  split at e
  · cases e; exact ⟨_, _, by simp, rfl⟩
  · cases e

theorem two64_eq_some {f : BitVec 64 → BitVec 64 → Instr} {h : Word} {ops : List Word} {i : Instr}
    (e : two64 f h ops = some i) : ∃ x y, ops = [lo32 x, hi32 x, lo32 y, hi32 y] ∧ i = f x y := by
  unfold two64 at e
  split at e
  · cases e; exact ⟨_, _, by simp, rfl⟩
  · cases e

theorem range32_eq_some {f : Range 32 → Instr} {h : Word} {ops : List Word} {i : Instr}
    (e : range32 f h ops = some i) : ∃ r, ops = [r.lo, r.hi] ∧ i = f r := by
  unfold range32 at e
  split at e
  · cases e; exact ⟨_, by simp, rfl⟩
  · cases e

theorem range64_eq_some {f : Range 64 → Instr} {h : Word} {ops : List Word} {i : Instr}
    (e : range64 f h ops = some i) : ∃ r, ops = [lo32 r.lo, hi32 r.lo, lo32 r.hi, hi32 r.hi] ∧ i = f r := by
  unfold range64 at e
  split at e
  · cases e; exact ⟨_, by simp, rfl⟩
  · cases e

theorem ranges32_eq_some {f : Range 32 → Range 32 → Instr} {h : Word} {ops : List Word} {i : Instr}
    (e : ranges32 f h ops = some i) : ∃ r t, ops = [r.lo, r.hi, t.lo, t.hi] ∧ i = f r t := by
  unfold ranges32 at e
  split at e
  · cases e; exact ⟨_, _, by simp, rfl⟩
  · cases e

theorem ranges64_eq_some {f : Range 64 → Range 64 → Instr} {h : Word} {ops : List Word} {i : Instr}
    (e : ranges64 f h ops = some i) : ∃ r t, ops = [lo32 r.lo, hi32 r.lo, lo32 r.hi, hi32 r.hi, lo32 t.lo, hi32 t.lo, lo32 t.hi, hi32 t.hi] ∧ i = f r t := by
  unfold ranges64 at e
  split at e
  · cases e; exact ⟨_, _, by simp, rfl⟩
  · cases e

theorem rangePoint32_eq_some {f : Range 32 → Word → Instr} {h : Word} {ops : List Word} {i : Instr}
    (e : rangePoint32 f h ops = some i) : ∃ r p, ops = [r.lo, r.hi, p] ∧ i = f r p := by
  unfold rangePoint32 at e
  split at e
  · cases e; exact ⟨_, _, by simp, rfl⟩
  · cases e

theorem rangePoint64_eq_some {f : Range 64 → BitVec 64 → Instr} {h : Word} {ops : List Word} {i : Instr}
    (e : rangePoint64 f h ops = some i) : ∃ r p, ops = [lo32 r.lo, hi32 r.lo, lo32 r.hi, hi32 r.hi, lo32 p, hi32 p] ∧ i = f r p := by
  unfold rangePoint64 at e
  split at e
  · cases e; exact ⟨_, _, by simp, rfl⟩
  · cases e

theorem rect_eq_some {f : Rect → Instr} {h : Word} {ops : List Word} {i : Instr}
    (e : rect f h ops = some i) : ∃ r, ops = [r.minX, r.minY, r.maxX, r.maxY] ∧ i = f r := by
  unfold rect at e
  split at e
  · cases e; exact ⟨_, by simp, rfl⟩
  · cases e

theorem rects_eq_some {f : Rect → Rect → Instr} {h : Word} {ops : List Word} {i : Instr}
    (e : rects f h ops = some i) : ∃ r t, ops = [r.minX, r.minY, r.maxX, r.maxY, t.minX, t.minY, t.maxX, t.maxY] ∧ i = f r t := by
  unfold rects at e
  split at e
  · cases e; exact ⟨_, _, by simp, rfl⟩
  · cases e

theorem rectPoint_eq_some {f : Rect → Word → Word → Instr} {h : Word} {ops : List Word} {i : Instr}
    (e : rectPoint f h ops = some i) : ∃ r x y, ops = [r.minX, r.minY, r.maxX, r.maxY, x, y] ∧ i = f r x y := by
  unfold rectPoint at e
  split at e
  · cases e; exact ⟨_, _, _, by simp, rfl⟩
  · cases e

theorem depth_eq_some {f : BitVec 4 → Word → Instr} {h : Word} {ops : List Word} {i : Instr}
    (e : depth f h ops = some i) : ∃ x, ops = [x] ∧ i = f (h.extractLsb' 12 4) x := by
  unfold depth at e
  split at e
  · cases e; exact ⟨_, rfl, rfl⟩
  · cases e

theorem prepare_eq_some {h : Word} {ops : List Word} {i : Instr} (e : prepare h ops = some i) :
    ∃ df dp sf sp bl, i = .swzPrepare df dp sf sp bl
      ∧ ops = [df, lo32 dp.ptr, hi32 dp.ptr, lo32 dp.len, hi32 dp.len, sf,
          lo32 sp.ptr, hi32 sp.ptr, lo32 sp.len, hi32 sp.len, bl] := by
  unfold prepare at e
  split at e
  · cases e; exact ⟨_, _, _, _, _, rfl, by simp⟩
  · cases e

theorem swizzle_eq_some {h : Word} {ops : List Word} {i : Instr} (e : swizzle h ops = some i) :
    ∃ d p t, i = .swzSwizzle d p t
      ∧ ops = [lo32 d.ptr, hi32 d.ptr, lo32 d.len, hi32 d.len, lo32 p.ptr, hi32 p.ptr, lo32 p.len,
          hi32 p.len, lo32 t.ptr, hi32 t.ptr, lo32 t.len, hi32 t.len] := by
  unfold swizzle at e
  split at e
  · cases e; exact ⟨_, _, _, rfl, by simp⟩
  · cases e

/-! The rows and the decoder. -/

theorem findRow_eq_some {h : Word} {r : Row} (e : findRow h = some r) :
    r ∈ rows ∧ h &&& r.mask = r.header :=
  ⟨List.mem_of_find?_eq_some e, by simpa using List.find?_some e⟩

/-- All that a packet which decodes can be. -/
theorem decode_eq_ok {p : Packet} {i : Instr} (e : decode p = .ok i) :
    ∃ h ops r, p = h :: ops ∧ r ∈ rows ∧ h &&& r.mask = r.header ∧ p.length = r.cmdWords
      ∧ r.make h ops = some i := by
  unfold decode at e
  split at e
  · cases e
  · next h ops =>
    split at e
    · cases e
    · next r hr =>
      obtain ⟨hm, hh⟩ := findRow_eq_some hr
      split at e
      · next hl =>
        split at e
        · next j hj => cases e; exact ⟨h, ops, r, rfl, hm, hh, hl, hj⟩
        · cases e
      · cases e

end Sys2Proof
end

