-- ==== Sys2Proof/Laws/State.lean ====
section
/-! SUPPORT. One lemma per field per update of the state, so that no proof unfolds a record update. -/

namespace Sys2Proof.Machine

@[simp] theorem State.emit_swz (s : State) (p : Packet) : (s.emit p).swz = s.swz := rfl
@[simp] theorem State.emit_mem (s : State) (p : Packet) : (s.emit p).mem = s.mem := rfl
@[simp] theorem State.emit_inbox (s : State) (p : Packet) : (s.emit p).inbox = s.inbox := rfl
@[simp] theorem State.emit_outbox (s : State) (p : Packet) : (s.emit p).outbox = s.outbox ++ [p] := rfl
@[simp] theorem State.emit_draws (s : State) (p : Packet) : (s.emit p).draws = s.draws := rfl

@[simp] theorem State.unprepare_state (s : State) : s.unprepare.swz.state = .unprepared := rfl
@[simp] theorem State.unprepare_swz (s : State) : s.unprepare.swz = unspecified s.draws := rfl
@[simp] theorem State.unprepare_mem (s : State) : s.unprepare.mem = s.mem := rfl
@[simp] theorem State.unprepare_inbox (s : State) : s.unprepare.inbox = s.inbox := rfl
@[simp] theorem State.unprepare_outbox (s : State) : s.unprepare.outbox = s.outbox := rfl
@[simp] theorem State.unprepare_draws (s : State) : s.unprepare.draws = s.draws + 1 := rfl

@[simp] theorem State.setSwz_swz (s : State) (z : Swizzler) : (s.setSwz z).swz = z := rfl
@[simp] theorem State.setSwz_mem (s : State) (z : Swizzler) : (s.setSwz z).mem = s.mem := rfl
@[simp] theorem State.setSwz_inbox (s : State) (z : Swizzler) : (s.setSwz z).inbox = s.inbox := rfl
@[simp] theorem State.setSwz_outbox (s : State) (z : Swizzler) : (s.setSwz z).outbox = s.outbox := rfl
@[simp] theorem State.setSwz_draws (s : State) (z : Swizzler) : (s.setSwz z).draws = s.draws := rfl

@[simp] theorem State.setMemory_swz (s : State) (m : Memory) : (s.setMemory m).swz = s.swz := rfl
@[simp] theorem State.setMemory_mem (s : State) (m : Memory) : (s.setMemory m).mem = m := rfl
@[simp] theorem State.setMemory_inbox (s : State) (m : Memory) : (s.setMemory m).inbox = s.inbox := rfl
@[simp] theorem State.setMemory_outbox (s : State) (m : Memory) : (s.setMemory m).outbox = s.outbox := rfl
@[simp] theorem State.setMemory_draws (s : State) (m : Memory) : (s.setMemory m).draws = s.draws := rfl

@[simp] theorem State.setInbox_swz (s : State) (q : List HostEvent) : (s.setInbox q).swz = s.swz := rfl
@[simp] theorem State.setInbox_mem (s : State) (q : List HostEvent) : (s.setInbox q).mem = s.mem := rfl
@[simp] theorem State.setInbox_inbox (s : State) (q : List HostEvent) : (s.setInbox q).inbox = q := rfl
@[simp] theorem State.setInbox_outbox (s : State) (q : List HostEvent) : (s.setInbox q).outbox = s.outbox := rfl
@[simp] theorem State.setInbox_draws (s : State) (q : List HostEvent) : (s.setInbox q).draws = s.draws := rfl

end Sys2Proof.Machine
end

