-- ==== Sys2Proof/Laws/Memory.lean ====
section
/-! SUPPORT. What each memory operation does, said once: the laws of one byte, of a run of bytes, and of the host's own
change. The lemmas about the swizzler cite these and never unfold a memory operation. -/

namespace Sys2Proof.Machine

/-! The four list functions. -/

theorem lookup_replaceCell (l : List Host.Cell) (a : Nat) (b : Byte) (x : Nat) :
    lookup (replaceCell a b l) x = if x = a then (lookup l a).map fun _ => b else lookup l x := by
  induction l with
  | nil => simp [replaceCell, lookup]
  | cons c rest ih =>
    obtain ⟨k, v⟩ := c
    by_cases hk : k = a
    · subst hk
      by_cases hx : x = k
      · subst hx; simp [replaceCell, lookup]
      · have : ¬ k = x := fun h => hx h.symm
        simp [replaceCell, lookup, hx, this, ih]
    · by_cases hx : x = a
      · subst hx; simp [replaceCell, lookup, hk, ih]
      · by_cases hkx : k = x <;> simp [replaceCell, lookup, hk, hx, hkx, ih]

theorem lookup_removeCell (l : List Host.Cell) (a x : Nat) :
    lookup (removeCell a l) x = if x = a then none else lookup l x := by
  induction l with
  | nil => simp [removeCell, lookup]
  | cons c rest ih =>
    obtain ⟨k, v⟩ := c
    by_cases hk : k = a
    · subst hk
      by_cases hx : x = k
      · subst hx; simpa [removeCell] using ih
      · have : ¬ k = x := fun h => hx h.symm
        simp [removeCell, lookup, ih, hx, this]
    · by_cases hx : x = a
      · subst hx; simp [removeCell, lookup, hk, ih]
      · simp [removeCell, lookup, hk, ih, hx]

theorem lookup_insertCell (l : List Host.Cell) (a : Nat) (b : Byte) (x : Nat) (h : lookup l a = none) :
    lookup (insertCell a b l) x = if x = a then some b else lookup l x := by
  induction l with
  | nil => simp [insertCell, lookup, eq_comm]
  | cons c rest ih =>
    obtain ⟨k, v⟩ := c
    have hk : ¬ k = a := by intro e; simp [lookup, e] at h
    have hr : lookup rest a = none := by simpa [lookup, hk] using h
    by_cases hlt : a < k
    · by_cases hx : x = a
      · subst hx; simp [insertCell, hlt, lookup]
      · have : ¬ a = x := fun e => hx e.symm
        simp [insertCell, hlt, lookup, hx, this]
    · by_cases hx : x = a
      · subst hx; simp [insertCell, hlt, lookup, hk, ih hr]
      · simp [insertCell, hlt, lookup, hx, ih hr]

theorem mem_replaceCell {l : List Host.Cell} {a : Nat} {b : Byte} {c : Host.Cell}
    (h : c ∈ replaceCell a b l) : ∃ c' ∈ l, c'.1 = c.1 := by
  induction l with
  | nil => simp [replaceCell] at h
  | cons d rest ih =>
    obtain ⟨k, v⟩ := d
    simp only [replaceCell, List.mem_cons] at h
    rcases h with h | h
    · refine ⟨(k, v), by simp, ?_⟩
      subst h; split <;> rfl
    · obtain ⟨c', hc', e⟩ := ih h
      exact ⟨c', by simp [hc'], e⟩

theorem mem_removeCell {l : List Host.Cell} {a : Nat} {c : Host.Cell} (h : c ∈ removeCell a l) :
    c ∈ l ∧ c.1 ≠ a := by
  induction l with
  | nil => simp [removeCell] at h
  | cons d rest ih =>
    obtain ⟨k, v⟩ := d
    by_cases hk : k = a
    · simp only [removeCell, hk, if_true] at h
      exact ⟨by simp [(ih h).1], (ih h).2⟩
    · simp only [removeCell, hk, if_false, List.mem_cons] at h
      rcases h with h | h
      · subst h; exact ⟨by simp, hk⟩
      · exact ⟨by simp [(ih h).1], (ih h).2⟩

theorem mem_insertCell {l : List Host.Cell} {a : Nat} {b : Byte} {c : Host.Cell}
    (h : c ∈ insertCell a b l) : c = (a, b) ∨ c ∈ l := by
  induction l with
  | nil => simp [insertCell] at h; exact .inl h
  | cons d rest ih =>
    obtain ⟨k, v⟩ := d
    by_cases hlt : a < k
    · simpa [insertCell, hlt] using h
    · simp only [insertCell, hlt, if_false, List.mem_cons] at h
      rcases h with h | h
      · exact .inr (by simp [h])
      · rcases ih h with h | h
        · exact .inl h
        · exact .inr (by simp [h])

/-! The canonical form is kept. -/

theorem pairwise_replaceCell {l : List Host.Cell} (a : Nat) (b : Byte)
    (h : l.Pairwise fun p q => p.1 < q.1) :
    (replaceCell a b l).Pairwise fun p q => p.1 < q.1 := by
  induction l with
  | nil => simp [replaceCell]
  | cons d rest ih =>
    obtain ⟨k, v⟩ := d
    obtain ⟨h1, h2⟩ := List.pairwise_cons.mp h
    refine List.pairwise_cons.mpr ⟨fun c hc => ?_, ih h2⟩
    obtain ⟨c', hc', e⟩ := mem_replaceCell hc
    have := h1 c' hc'
    split <;> simpa [← e] using this

theorem pairwise_removeCell {l : List Host.Cell} (a : Nat) (h : l.Pairwise fun p q => p.1 < q.1) :
    (removeCell a l).Pairwise fun p q => p.1 < q.1 := by
  induction l with
  | nil => simp [removeCell]
  | cons d rest ih =>
    obtain ⟨k, v⟩ := d
    obtain ⟨h1, h2⟩ := List.pairwise_cons.mp h
    by_cases hk : k = a
    · simpa [removeCell, hk] using ih h2
    · simp only [removeCell, hk, if_false]
      exact List.pairwise_cons.mpr ⟨fun c hc => h1 c (mem_removeCell hc).1, ih h2⟩

theorem pairwise_insertCell {l : List Host.Cell} (a : Nat) (b : Byte)
    (h : l.Pairwise fun p q => p.1 < q.1) (hn : ∀ c ∈ l, c.1 ≠ a) :
    (insertCell a b l).Pairwise fun p q => p.1 < q.1 := by
  induction l with
  | nil => simp [insertCell]
  | cons d rest ih =>
    obtain ⟨k, v⟩ := d
    obtain ⟨h1, h2⟩ := List.pairwise_cons.mp h
    by_cases hlt : a < k
    · simp only [insertCell, hlt, if_true]
      refine List.pairwise_cons.mpr ⟨fun c hc => ?_, h⟩
      rcases List.mem_cons.mp hc with hc | hc
      · simpa [hc] using hlt
      · exact Nat.lt_trans hlt (h1 c hc)
    · simp only [insertCell, hlt, if_false]
      have hka : k ≠ a := hn (k, v) (by simp)
      refine List.pairwise_cons.mpr ⟨fun c hc => ?_, ih h2 fun c hc => hn c (by simp [hc])⟩
      rcases mem_insertCell hc with hc | hc
      · subst hc; show k < a; omega
      · exact h1 c hc

/-! One byte. -/

theorem Memory.write_eq_some {m m' : Memory} {a : Nat} {b : Byte} (h : m.write a b = some m') :
    (m.read a).isSome = true ∧ m' = ⟨replaceCell a b m.cells⟩ := by
  unfold Memory.write at h
  split at h
  · next v hv => exact ⟨by simp [hv], by simpa using h.symm⟩
  · cases h

/-- A write is accepted exactly where the byte is backed (R43). -/
theorem Memory.write_isSome (m : Memory) (a : Nat) (b : Byte) :
    (m.write a b).isSome = (m.read a).isSome := by
  unfold Memory.write
  split <;> simp_all

/-- A read after a write: the written byte at its address, every other address as before. -/
theorem Memory.read_write {m m' : Memory} {a : Nat} {b : Byte} (h : m.write a b = some m') (x : Nat) :
    m'.read x = if x = a then some b else m.read x := by
  obtain ⟨hs, rfl⟩ := Memory.write_eq_some h
  simp only [Memory.read, lookup_replaceCell]
  by_cases hx : x = a
  · obtain ⟨v, hv⟩ := Option.isSome_iff_exists.mp hs
    have hv' : lookup m.cells a = some v := hv
    simp [hx, hv']
  · simp [hx]

theorem Memory.write_wf {m m' : Memory} {a : Nat} {b : Byte} (h : m.write a b = some m') (hm : m.wf) :
    m'.wf := by
  obtain ⟨_, rfl⟩ := Memory.write_eq_some h
  refine ⟨pairwise_replaceCell a b hm.1, fun c hc => ?_⟩
  obtain ⟨c', hc', e⟩ := mem_replaceCell hc
  rw [← e]; exact hm.2 c' hc'

/-- The host's change of one byte: that address as set, every other as before (R17, R40). -/
theorem Memory.read_hostSet (m : Memory) (a : Nat) (b : Option Byte) (x : Nat) :
    (m.hostSet a b).read x = if x = a then b else m.read x := by
  cases b with
  | none => simp [Memory.hostSet, Memory.read, lookup_removeCell]
  | some v =>
    have h : lookup (removeCell a m.cells) a = none := by simp [lookup_removeCell]
    by_cases hx : x = a <;>
      simp [Memory.hostSet, Memory.read, lookup_insertCell _ _ _ _ h, lookup_removeCell, hx]

theorem Memory.hostSet_wf {m : Memory} {a : Nat} (b : Option Byte) (ha : a < 2 ^ 64) (hm : m.wf) :
    (m.hostSet a b).wf := by
  have hp := pairwise_removeCell a hm.1
  cases b with
  | none => exact ⟨hp, fun c hc => hm.2 c (mem_removeCell hc).1⟩
  | some v =>
    refine ⟨pairwise_insertCell a v hp fun c hc => (mem_removeCell hc).2, fun c hc => ?_⟩
    rcases mem_insertCell hc with hc | hc
    · subst hc; exact ha
    · exact hm.2 c (mem_removeCell hc).1

/-! A run of bytes. -/

theorem Memory.readBytes_length {m : Memory} {a n : Nat} {l : List Byte} (h : m.readBytes a n = some l) :
    l.length = n := by
  induction n generalizing a l with
  | zero => simp [Memory.readBytes] at h; simp [← h]
  | succ n ih =>
    simp only [Memory.readBytes] at h
    split at h
    · cases h
    · obtain ⟨l', hl', rfl⟩ := Option.map_eq_some_iff.mp h
      simp [ih hl']

/-- Byte `j` of a run that was read is the byte at its address. -/
theorem Memory.readBytes_getD {m : Memory} {a n : Nat} {l : List Byte} (h : m.readBytes a n = some l)
    {j : Nat} (hj : j < n) : m.read (a + j) = some (l.getD j 0) := by
  induction n generalizing a l j with
  | zero => omega
  | succ n ih =>
    simp only [Memory.readBytes] at h
    split at h
    · cases h
    · next b hb =>
      obtain ⟨l', hl', rfl⟩ := Option.map_eq_some_iff.mp h
      cases j with
      | zero => simpa using hb
      | succ j =>
        have := ih hl' (j := j) (by omega)
        rw [show a + (j + 1) = a + 1 + j by omega]
        simpa using this

/-- A run is read whole exactly where every byte of it is backed. -/
theorem Memory.readBytes_isSome (m : Memory) (a n : Nat) :
    (m.readBytes a n).isSome = true ↔ m.backed a n := by
  induction n generalizing a with
  | zero => simp [Memory.readBytes, Memory.backed]
  | succ n ih =>
    simp only [Memory.readBytes]
    constructor
    · intro h j hj
      split at h
      · cases h
      · next b hb =>
        cases j with
        | zero => simp [hb]
        | succ j =>
          have := (ih (a + 1)).mp (by simpa using h) j (by omega)
          rwa [show a + (j + 1) = a + 1 + j by omega]
    · intro h
      have h0 := h 0 (by omega)
      obtain ⟨b, hb⟩ := Option.isSome_iff_exists.mp h0
      simp only [Nat.add_zero] at hb
      simp only [hb, Option.isSome_map]
      refine (ih (a + 1)).mpr fun j hj => ?_
      have := h (j + 1) (by omega)
      rwa [show a + (j + 1) = a + 1 + j by omega] at this

/-- Memories that hold the same on a run read it alike. -/
theorem Memory.readBytes_congr {m m' : Memory} {a n : Nat} (h : m.sameOn m' a n) :
    m.readBytes a n = m'.readBytes a n := by
  induction n generalizing a with
  | zero => rfl
  | succ n ih =>
    have h0 := h 0 (by omega)
    simp only [Nat.add_zero] at h0
    simp only [Memory.readBytes, h0]
    split
    · rfl
    · rw [ih fun j hj => ?_]
      have := h (j + 1) (by omega)
      rwa [show a + (j + 1) = a + 1 + j by omega] at this

/-- A write of a run leaves every address outside it as before, accepted or not (R43). -/
theorem Memory.read_writeBytes_outside (m : Memory) (a : Nat) (l : List Byte) (x : Nat)
    (hx : x < a ∨ a + l.length ≤ x) : (m.writeBytes a l).1.read x = m.read x := by
  induction l generalizing m a with
  | nil => rfl
  | cons b bs ih =>
    simp only [List.length_cons] at hx
    simp only [Memory.writeBytes]
    split
    · rfl
    · next m' hm =>
      rw [ih m' (a + 1) (by omega), Memory.read_write hm]
      simp [show x ≠ a by omega]

/-- A write of a run backs no address and takes the backing of none away. -/
theorem Memory.isSome_writeBytes (m : Memory) (a : Nat) (l : List Byte) (x : Nat) :
    ((m.writeBytes a l).1.read x).isSome = (m.read x).isSome := by
  induction l generalizing m a with
  | nil => rfl
  | cons b bs ih =>
    simp only [Memory.writeBytes]
    split
    · rfl
    · next m' hm =>
      rw [ih m' (a + 1), Memory.read_write hm]
      by_cases hx : x = a
      · simp [hx, (Memory.write_eq_some hm).1]
      · simp [hx]

/-- A run is written whole exactly where every byte of it is backed. -/
theorem Memory.writeBytes_ok (m : Memory) (a : Nat) (l : List Byte) :
    (m.writeBytes a l).2 = true ↔ m.backed a l.length := by
  induction l generalizing m a with
  | nil => simp [Memory.writeBytes, Memory.backed]
  | cons b bs ih =>
    simp only [Memory.writeBytes]
    split
    · next hm =>
      have h0 : (m.read a).isSome = false := by rw [← Memory.write_isSome m a b, hm]; rfl
      simp only [Bool.false_eq_true, false_iff]
      intro h
      have := h 0 (by simp)
      simp [h0] at this
    · next m' hm =>
      rw [ih]
      have hk (x : Nat) : (m'.read x).isSome = (m.read x).isSome := by
        rw [Memory.read_write hm]
        by_cases hx : x = a
        · simp [hx, (Memory.write_eq_some hm).1]
        · simp [hx]
      constructor
      · intro h j hj
        cases j with
        | zero => simpa using (Memory.write_eq_some hm).1
        | succ j =>
          have := h j (by simpa using hj)
          rw [hk] at this
          rwa [show a + (j + 1) = a + 1 + j by omega]
      · intro h j hj
        rw [hk]
        have := h (j + 1) (by simpa using hj)
        rwa [show a + (j + 1) = a + 1 + j by omega] at this

/-- Byte `j` of a run that was written whole reads as written. -/
theorem Memory.read_writeBytes_inside {m : Memory} {a : Nat} {l : List Byte}
    (h : (m.writeBytes a l).2 = true) {j : Nat} (hj : j < l.length) :
    (m.writeBytes a l).1.read (a + j) = some (l.getD j 0) := by
  induction l generalizing m a j with
  | nil => simp at hj
  | cons b bs ih =>
    simp only [Memory.writeBytes] at h ⊢
    split at h
    · cases h
    · next m' hm =>
      cases j with
      | zero =>
        simp only [Nat.add_zero]
        rw [Memory.read_writeBytes_outside m' (a + 1) bs a (by omega), Memory.read_write hm]
        simp
      | succ j =>
        rw [show a + (j + 1) = a + 1 + j by omega]
        simpa using ih h (j := j) (by simpa using hj)

/-- Of a run whose first refused byte is byte `j`, the bytes before it are written and the others are as before (R43). -/
theorem Memory.read_writeBytes_stopped {m : Memory} {a j : Nat} {l : List Byte} (hj : j < l.length)
    (hb : m.backed a j) (hn : m.read (a + j) = none) :
    (∀ k, k < j → (m.writeBytes a l).1.read (a + k) = some (l.getD k 0))
      ∧ ∀ k, j ≤ k → (m.writeBytes a l).1.read (a + k) = m.read (a + k) := by
  induction j generalizing m a l with
  | zero =>
    cases l with
    | nil => simp at hj
    | cons b bs =>
      have hw : m.write a b = none := by
        have h := Memory.write_isSome m a b
        rw [show m.read a = none from hn] at h
        simpa using h
      simp [Memory.writeBytes, hw]
  | succ j ih =>
    cases l with
    | nil => simp at hj
    | cons b bs =>
      have h0 : (m.read a).isSome = true := hb 0 (by omega)
      obtain ⟨m1, hm1⟩ := Option.isSome_iff_exists.mp ((Memory.write_isSome m a b).trans h0)
      have hr := Memory.read_write hm1
      have h := ih (m := m1) (a := a + 1) (l := bs) (by simpa using hj)
        (fun k hk => by
          rw [hr, if_neg (by omega)]
          have := hb (k + 1) (by omega)
          rwa [show a + 1 + k = a + (k + 1) by omega])
        (by
          rw [hr, if_neg (by omega)]
          rwa [show a + 1 + j = a + (j + 1) by omega])
      simp only [Memory.writeBytes, hm1]
      refine ⟨fun k hk => ?_, fun k hk => ?_⟩
      · cases k with
        | zero =>
          rw [show a + 0 = a from rfl, Memory.read_writeBytes_outside _ _ _ _ (by omega), hr, if_pos rfl]
          rfl
        | succ k =>
          rw [show a + (k + 1) = a + 1 + k by omega, h.1 k (by omega)]
          rfl
      · obtain ⟨k, rfl⟩ : ∃ k', k = k' + 1 := ⟨k - 1, by omega⟩
        rw [show a + (k + 1) = a + 1 + k by omega, h.2 k (by omega), hr, if_neg (by omega)]

theorem Memory.writeBytes_wf {m : Memory} (a : Nat) (l : List Byte) (hm : m.wf) :
    (m.writeBytes a l).1.wf := by
  induction l generalizing m a with
  | nil => exact hm
  | cons b bs ih =>
    simp only [Memory.writeBytes]
    split
    · exact hm
    · next m' h => exact ih (a + 1) (Memory.write_wf h hm)

@[simp] theorem length_leBytes (v n : Nat) : (leBytes v n).length = n := by
  induction n generalizing v with
  | zero => rfl
  | succ n ih => simp [leBytes, ih]

/-- Reading back the bytes of an integer gives the integer modulo their range. -/
theorem leNat_leBytes (v n : Nat) : leNat (leBytes v n) = v % 256 ^ n := by
  induction n generalizing v with
  | zero => simp [leBytes, leNat, Nat.mod_one]
  | succ n ih =>
    have hb : (BitVec.ofNat 8 v).toNat = v % 256 := BitVec.toNat_ofNat ..
    simp only [leBytes, leNat, ih, hb]
    rw [Nat.pow_succ', Nat.mod_mul]

/-- The canonical form holds at reset. -/
theorem reset_mem_wf : State.reset.mem.wf := by decide

end Sys2Proof.Machine
end

