-- ==== Sys2Proof/Laws/Ops.lean ====
section
/-! SUPPORT. What each shared operation answers, said once. -/

namespace Sys2Proof.Machine

@[simp] theorem answer_eq (results : List Word) (s : State) :
    answer results s = .next (s.emit (0x00000000#32 :: results)) := rfl

@[simp] theorem answerBool_eq (b : Bool) (s : State) :
    answerBool b s = .next (s.emit [0x00000000#32, if b then 1 else 0]) := rfl

@[simp] theorem takeError_eq (e : Status) (results : List Word) (s : State) :
    takeError e results s = .next (s.emit (e.word :: results)) := rfl

@[simp] theorem fail_eq (e : Status) (n : Nat) (s : State) :
    fail e n s = .next (s.emit (e.word :: List.replicate n 0)) := rfl

@[simp] theorem failPrepare_eq (e : Status) (s : State) :
    failPrepare e s = .next (s.unprepare.emit [e.word]) := rfl

@[simp] theorem rejectPacket_eq (s : State) :
    rejectPacket s = .next (s.emit [0x81000000#32]) := rfl

@[simp] theorem hostSetMem_eq (a : Addr) (b : Option Byte) (s : State) :
    hostSetMem a b s = .next (s.setMemory (s.mem.hostSet a.toNat b)) := rfl

@[simp] theorem hostReset_eq (s : State) : hostReset s = .next s.unprepare := rfl

/-- Emitting a response is the one record update of the response channel. -/
theorem State.emit_eq (s : State) (p : Packet) : s.emit p = { s with outbox := s.outbox ++ [p] } := rfl

/-- `lowmask` answers its mask, or ERR_BAD_ARGUMENT past the width (R121 to R124). -/
theorem lowmask_eq (w : Nat) (n : Word) (s : State) :
    lowmask w n s =
      if n.toNat > w then
        .next (s.emit (0x82000000#32 :: List.replicate (packScalar (0 : BitVec w)).length 0))
      else .next (s.emit (0x00000000#32 :: packScalar (BitVec.ofNat w (2 ^ n.toNat - 1)))) := rfl

/-- A step on an empty inbox, on a packet that decodes, on one that does not, and on the host's two other moves. -/
theorem step_idle {s : State} (h : s.inbox = []) : step s = .next s := by
  unfold step; rw [h]; rfl

theorem step_decoded {s : State} {p : Packet} {rest : List HostEvent} {i : Instr}
    (h : s.inbox = .command p :: rest) (hd : decode p = .ok i) : step s = exec i (s.setInbox rest) := by
  unfold step; rw [h]; simp only [hd]

theorem step_illegal {s : State} {p : Packet} {rest : List HostEvent} {e : DecodeError}
    (h : s.inbox = .command p :: rest) (hd : decode p = .error e) :
    step s = rejectPacket (s.setInbox rest) := by
  unfold step; rw [h]; simp only [hd]

theorem step_setMem {s : State} {a : Addr} {b : Option Byte} {rest : List HostEvent}
    (h : s.inbox = .setMem a b :: rest) : step s = hostSetMem a b (s.setInbox rest) := by
  unfold step; rw [h]

theorem step_reset {s : State} {rest : List HostEvent} (h : s.inbox = .reset :: rest) :
    step s = hostReset (s.setInbox rest) := by
  unfold step; rw [h]

end Sys2Proof.Machine
end

