-- ==== Sys2Proof/Laws/Operands.lean ====
section
/-! SUPPORT. How results are packed, said once in terms of the number a result stands for, and comparisons of packed
booleans. -/

namespace Sys2Proof.Machine

/-- A result of at most 32 bits is one word, zero-extended (R52). -/
theorem packScalar_narrow {w : Nat} (h : w ≤ 32) (v : BitVec w) :
    packScalar v = [BitVec.ofNat 32 v.toNat] := by
  rw [packScalar, if_pos h]
  congr 1
  apply BitVec.eq_of_toNat_eq
  simp

/-- A 64-bit result is its two words, the low one first (R53). -/
theorem packScalar_wide (v : BitVec 64) : packScalar v = wordsOf v.toNat := by
  simp only [packScalar, wordsOf, show ¬ 64 ≤ 32 by omega, if_false, List.cons.injEq, and_true]
  have := v.isLt
  constructor
  · apply BitVec.eq_of_toNat_eq
    simp only [BitVec.extractLsb'_toNat, BitVec.toNat_ofNat, Nat.shiftRight_eq_div_pow]
    omega
  · apply BitVec.eq_of_toNat_eq
    simp only [BitVec.extractLsb'_toNat, BitVec.toNat_ofNat, Nat.shiftRight_eq_div_pow]

/-- The count of a SWIZZLE in its two words. -/
theorem packCount_eq {n : Nat} (h : n < 2 ^ 64) : packScalar (BitVec.ofNat 64 n) = wordsOf n := by
  rw [packScalar_wide, BitVec.toNat_ofNat, Nat.mod_eq_of_lt h]

theorem toNat_scalar (w : Nat) (x : Word) : (scalar w x).toNat = x.toNat % 2 ^ w := by
  simp [scalar]

end Sys2Proof.Machine
end

