-- ==== Sys2Proof/Laws/PerInstr.lean ====
section
/-! SUPPORT. Statements about commands as syntax, one lemma per constructor of `Instr`. -/

namespace Sys2Proof.Laws.EncodedLength

/-- The encoding of a well-formed command starts with a header the opcode map lists and has the length the map gives it
(`30_encoding.md` R57). -/
def Statement (i : Instr) : Prop :=
  i.wf = true → ∃ row ∈ Machine.commandTable,
    (encode i).head? = some (BitVec.ofNat 32 row.1) ∧ (encode i).length = row.2.1

/-- How the lemmas are proved: the row is found in its own unit's table. -/
theorem of_row {i : Instr} (h c r : Nat) (hm : (h, c, r) ∈ Machine.commandTable)
    (he : (encode i).head? = some (BitVec.ofNat 32 h)) (hl : (encode i).length = c) : Statement i :=
  fun _ => ⟨(h, c, r), hm, he, hl⟩

theorem minW8 (x : Word) (y : Word) :
    Statement (.minW8 x y) :=
  of_row 0x100 3 2 (by decide) rfl rfl

theorem minW16 (x : Word) (y : Word) :
    Statement (.minW16 x y) :=
  of_row 0x101 3 2 (by decide) rfl rfl

theorem minW32 (x : Word) (y : Word) :
    Statement (.minW32 x y) :=
  of_row 0x102 3 2 (by decide) rfl rfl

theorem minW64 (x : BitVec 64) (y : BitVec 64) :
    Statement (.minW64 x y) :=
  of_row 0x103 5 3 (by decide) rfl rfl

theorem maxW8 (x : Word) (y : Word) :
    Statement (.maxW8 x y) :=
  of_row 0x110 3 2 (by decide) rfl rfl

theorem maxW16 (x : Word) (y : Word) :
    Statement (.maxW16 x y) :=
  of_row 0x111 3 2 (by decide) rfl rfl

theorem maxW32 (x : Word) (y : Word) :
    Statement (.maxW32 x y) :=
  of_row 0x112 3 2 (by decide) rfl rfl

theorem maxW64 (x : BitVec 64) (y : BitVec 64) :
    Statement (.maxW64 x y) :=
  of_row 0x113 5 3 (by decide) rfl rfl

theorem saddW8 (x : Word) (y : Word) :
    Statement (.saddW8 x y) :=
  of_row 0x120 3 2 (by decide) rfl rfl

theorem saddW16 (x : Word) (y : Word) :
    Statement (.saddW16 x y) :=
  of_row 0x121 3 2 (by decide) rfl rfl

theorem saddW32 (x : Word) (y : Word) :
    Statement (.saddW32 x y) :=
  of_row 0x122 3 2 (by decide) rfl rfl

theorem saddW64 (x : BitVec 64) (y : BitVec 64) :
    Statement (.saddW64 x y) :=
  of_row 0x123 5 3 (by decide) rfl rfl

theorem ssubW8 (x : Word) (y : Word) :
    Statement (.ssubW8 x y) :=
  of_row 0x130 3 2 (by decide) rfl rfl

theorem ssubW16 (x : Word) (y : Word) :
    Statement (.ssubW16 x y) :=
  of_row 0x131 3 2 (by decide) rfl rfl

theorem ssubW32 (x : Word) (y : Word) :
    Statement (.ssubW32 x y) :=
  of_row 0x132 3 2 (by decide) rfl rfl

theorem ssubW64 (x : BitVec 64) (y : BitVec 64) :
    Statement (.ssubW64 x y) :=
  of_row 0x133 5 3 (by decide) rfl rfl

theorem bswapW8 (x : Word) :
    Statement (.bswapW8 x) :=
  of_row 0x140 2 2 (by decide) rfl rfl

theorem bswapW16 (x : Word) :
    Statement (.bswapW16 x) :=
  of_row 0x141 2 2 (by decide) rfl rfl

theorem bswapW32 (x : Word) :
    Statement (.bswapW32 x) :=
  of_row 0x142 2 2 (by decide) rfl rfl

theorem bswapW64 (x : BitVec 64) :
    Statement (.bswapW64 x) :=
  of_row 0x143 3 3 (by decide) rfl rfl

theorem lowmaskW8 (n : Word) :
    Statement (.lowmaskW8 n) :=
  of_row 0x150 2 2 (by decide) rfl rfl

theorem lowmaskW16 (n : Word) :
    Statement (.lowmaskW16 n) :=
  of_row 0x151 2 2 (by decide) rfl rfl

theorem lowmaskW32 (n : Word) :
    Statement (.lowmaskW32 n) :=
  of_row 0x152 2 2 (by decide) rfl rfl

theorem lowmaskW64 (n : Word) :
    Statement (.lowmaskW64 n) :=
  of_row 0x153 2 3 (by decide) rfl rfl

theorem rngIsemptyIi32 (r : Range 32) :
    Statement (.rngIsemptyIi32 r) :=
  of_row 0x202 3 2 (by decide) rfl rfl

theorem rngIsemptyIe32 (r : Range 32) :
    Statement (.rngIsemptyIe32 r) :=
  of_row 0x206 3 2 (by decide) rfl rfl

theorem rngIsemptyIi64 (r : Range 64) :
    Statement (.rngIsemptyIi64 r) :=
  of_row 0x203 5 2 (by decide) rfl rfl

theorem rngIsemptyIe64 (r : Range 64) :
    Statement (.rngIsemptyIe64 r) :=
  of_row 0x207 5 2 (by decide) rfl rfl

theorem rngEqualsIi32 (r : Range 32) (s : Range 32) :
    Statement (.rngEqualsIi32 r s) :=
  of_row 0x212 5 2 (by decide) rfl rfl

theorem rngEqualsIe32 (r : Range 32) (s : Range 32) :
    Statement (.rngEqualsIe32 r s) :=
  of_row 0x216 5 2 (by decide) rfl rfl

theorem rngEqualsIi64 (r : Range 64) (s : Range 64) :
    Statement (.rngEqualsIi64 r s) :=
  of_row 0x213 9 2 (by decide) rfl rfl

theorem rngEqualsIe64 (r : Range 64) (s : Range 64) :
    Statement (.rngEqualsIe64 r s) :=
  of_row 0x217 9 2 (by decide) rfl rfl

theorem rngContainsIi32 (r : Range 32) (p : Word) :
    Statement (.rngContainsIi32 r p) :=
  of_row 0x222 4 2 (by decide) rfl rfl

theorem rngContainsIe32 (r : Range 32) (p : Word) :
    Statement (.rngContainsIe32 r p) :=
  of_row 0x226 4 2 (by decide) rfl rfl

theorem rngContainsIi64 (r : Range 64) (p : BitVec 64) :
    Statement (.rngContainsIi64 r p) :=
  of_row 0x223 7 2 (by decide) rfl rfl

theorem rngContainsIe64 (r : Range 64) (p : BitVec 64) :
    Statement (.rngContainsIe64 r p) :=
  of_row 0x227 7 2 (by decide) rfl rfl

theorem rngIsectIi32 (r : Range 32) (s : Range 32) :
    Statement (.rngIsectIi32 r s) :=
  of_row 0x232 5 3 (by decide) rfl rfl

theorem rngIsectIe32 (r : Range 32) (s : Range 32) :
    Statement (.rngIsectIe32 r s) :=
  of_row 0x236 5 3 (by decide) rfl rfl

theorem rngIsectIi64 (r : Range 64) (s : Range 64) :
    Statement (.rngIsectIi64 r s) :=
  of_row 0x233 9 5 (by decide) rfl rfl

theorem rngIsectIe64 (r : Range 64) (s : Range 64) :
    Statement (.rngIsectIe64 r s) :=
  of_row 0x237 9 5 (by decide) rfl rfl

theorem rngUnionIi32 (r : Range 32) (s : Range 32) :
    Statement (.rngUnionIi32 r s) :=
  of_row 0x242 5 3 (by decide) rfl rfl

theorem rngUnionIe32 (r : Range 32) (s : Range 32) :
    Statement (.rngUnionIe32 r s) :=
  of_row 0x246 5 3 (by decide) rfl rfl

theorem rngUnionIi64 (r : Range 64) (s : Range 64) :
    Statement (.rngUnionIi64 r s) :=
  of_row 0x243 9 5 (by decide) rfl rfl

theorem rngUnionIe64 (r : Range 64) (s : Range 64) :
    Statement (.rngUnionIe64 r s) :=
  of_row 0x247 9 5 (by decide) rfl rfl

theorem rngLengthIe32 (r : Range 32) :
    Statement (.rngLengthIe32 r) :=
  of_row 0x256 3 2 (by decide) rfl rfl

theorem rngLengthIe64 (r : Range 64) :
    Statement (.rngLengthIe64 r) :=
  of_row 0x257 5 3 (by decide) rfl rfl

theorem rctIsemptyIi32 (r : Rect) :
    Statement (.rctIsemptyIi32 r) :=
  of_row 0x302 5 2 (by decide) rfl rfl

theorem rctIsemptyIe32 (r : Rect) :
    Statement (.rctIsemptyIe32 r) :=
  of_row 0x306 5 2 (by decide) rfl rfl

theorem rctEqualsIi32 (r : Rect) (s : Rect) :
    Statement (.rctEqualsIi32 r s) :=
  of_row 0x312 9 2 (by decide) rfl rfl

theorem rctEqualsIe32 (r : Rect) (s : Rect) :
    Statement (.rctEqualsIe32 r s) :=
  of_row 0x316 9 2 (by decide) rfl rfl

theorem rctContainsIi32 (r : Rect) (x : Word) (y : Word) :
    Statement (.rctContainsIi32 r x y) :=
  of_row 0x322 7 2 (by decide) rfl rfl

theorem rctContainsIe32 (r : Rect) (x : Word) (y : Word) :
    Statement (.rctContainsIe32 r x y) :=
  of_row 0x326 7 2 (by decide) rfl rfl

theorem rctIsectIi32 (r : Rect) (s : Rect) :
    Statement (.rctIsectIi32 r s) :=
  of_row 0x332 9 5 (by decide) rfl rfl

theorem rctIsectIe32 (r : Rect) (s : Rect) :
    Statement (.rctIsectIe32 r s) :=
  of_row 0x336 9 5 (by decide) rfl rfl

theorem rctUnionIi32 (r : Rect) (s : Rect) :
    Statement (.rctUnionIi32 r s) :=
  of_row 0x342 9 5 (by decide) rfl rfl

theorem rctUnionIe32 (r : Rect) (s : Rect) :
    Statement (.rctUnionIe32 r s) :=
  of_row 0x346 9 5 (by decide) rfl rfl

theorem rctWidthIe32 (r : Rect) :
    Statement (.rctWidthIe32 r) :=
  of_row 0x356 5 2 (by decide) rfl rfl

theorem rctHeightIe32 (r : Rect) :
    Statement (.rctHeightIe32 r) :=
  of_row 0x366 5 2 (by decide) rfl rfl

theorem pxfIsvalid (f : Word) :
    Statement (.pxfIsvalid f) :=
  of_row 0x400 2 2 (by decide) rfl rfl

theorem pxfIsindexed (f : Word) :
    Statement (.pxfIsindexed f) :=
  of_row 0x410 2 2 (by decide) rfl rfl

theorem pxfNumplanes (f : Word) :
    Statement (.pxfNumplanes f) :=
  of_row 0x420 2 2 (by decide) rfl rfl

theorem pxfDepth (aux : BitVec 4) (f : Word) : Statement (.pxfDepth aux f) := by
  intro h
  have all : ∀ a : BitVec 4, a.toNat < 4 →
      ∃ row ∈ Machine.commandTable, (0x430 : Word) + (a.setWidth 32 <<< 12) = BitVec.ofNat 32 row.1
        ∧ 2 = row.2.1 := by decide
  obtain ⟨row, hm, he, hl⟩ := all aux (by simpa [Instr.wf] using h)
  exact ⟨row, hm, congrArg some he, hl⟩

theorem swzPrepare (dstFormat : Word) (dstPalette : Slice) (srcFormat : Word) (srcPalette : Slice) (blend : Word) :
    Statement (.swzPrepare dstFormat dstPalette srcFormat srcPalette blend) :=
  of_row 0x500 12 1 (by decide) rfl rfl

theorem swzSwizzle (dst : Slice) (dstPalette : Slice) (src : Slice) :
    Statement (.swzSwizzle dst dstPalette src) :=
  of_row 0x510 13 3 (by decide) rfl rfl

end Sys2Proof.Laws.EncodedLength
end

