-- ==== Sys2Proof/Laws/PixFmt.lean ====
section
/-! SUPPORT. The fields of a pixel-format word as bits of the word, and what the checks of the swizzler say of them. -/

namespace Sys2Proof.Machine

/-- A field of a word is the number its bits are. -/
theorem bits_eq_toNat (lo w : Nat) (f : Word) : bits ⟨lo, w⟩ f = (f.extractLsb' lo w).toNat := by
  rw [bits, BitVec.extractLsb'_toNat, Nat.shiftRight_eq_div_pow]

theorem pfModel_eq (f : Word) : pfModel f = (f.extractLsb' 28 3).toNat := bits_eq_toNat 28 3 f
theorem pfTransp_eq (f : Word) : pfTransp f = (f.extractLsb' 24 2).toNat := bits_eq_toNat 24 2 f
theorem pfBigEndian_eq (f : Word) : pfBigEndian f = (f.extractLsb' 23 1).toNat := bits_eq_toNat 23 1 f
theorem pfFloat_eq (f : Word) : pfFloat f = (f.extractLsb' 22 1).toNat := bits_eq_toNat 22 1 f
theorem pfPlanesM1_eq (f : Word) : pfPlanesM1 f = (f.extractLsb' 20 2).toNat := bits_eq_toNat 20 2 f
theorem pfIndexCode_eq (f : Word) : pfIndexCode f = (f.extractLsb' 16 4).toNat := bits_eq_toNat 16 4 f

theorem pfDepthCode_eq (f : Word) (k : Nat) : pfDepthCode f k = (f.extractLsb' (4 * k) 4).toNat := by
  have h : pfDepthCode f k = (f.extractLsb' (0 + 4 * k) 4).toNat := bits_eq_toNat (0 + 4 * k) 4 f
  rwa [Nat.zero_add] at h

theorem pfRes_eq (f : Word) :
    pfRes f = (f.extractLsb' 31 1).toNat * 4 + (f.extractLsb' 26 2).toNat :=
  congrArg₂ (fun a b => a * 2 ^ 2 + b) (bits_eq_toNat 31 1 f) (bits_eq_toNat 26 2 f)

/-- A depth code is below 16. -/
theorem pfDepthCode_lt (f : Word) (k : Nat) : pfDepthCode f k < 16 := by
  rw [pfDepthCode_eq]; exact (f.extractLsb' (4 * k) 4).isLt

/-- A depth of 1 to 8 bits is a depth code of as much; the code 0 is the depth 0 (R183). -/
theorem depthLut_small :
    ∀ c : Fin 16, ((1 ≤ depthLut.getD c 0 ∧ depthLut.getD c 0 ≤ 8) ↔ (1 ≤ c.val ∧ c.val ≤ 8))
      ∧ (c.val ≤ 8 → depthLut.getD c 0 = c.val) := by decide

theorem chanDepth_le_iff (f : Word) (k : Nat) :
    (1 ≤ chanDepth f k ∧ chanDepth f k ≤ 8) ↔ (1 ≤ pfDepthCode f k ∧ pfDepthCode f k ≤ 8) :=
  (depthLut_small ⟨pfDepthCode f k, pfDepthCode_lt f k⟩).1

theorem chanDepth_eq_code {f : Word} {k : Nat} (h : pfDepthCode f k ≤ 8) : chanDepth f k = pfDepthCode f k :=
  (depthLut_small ⟨pfDepthCode f k, pfDepthCode_lt f k⟩).2 h

/-- What the check of channel `k` says, in terms of its depth code (R203). -/
theorem chanOk_iff (f : Word) (k : Nat) :
    chanOk f k = true ↔
      if k < nchan f then 1 ≤ pfDepthCode f k ∧ pfDepthCode f k ≤ 8 else pfDepthCode f k = 0 := by
  unfold chanOk
  split <;> simp [chanDepth_le_iff]

/-- A channel that passes the check has its depth code as its depth, at most 8 bits. -/
theorem chanDepth_of_chanOk {f : Word} {k : Nat} (h : chanOk f k = true) :
    chanDepth f k = pfDepthCode f k ∧ pfDepthCode f k ≤ 8 := by
  have hle : pfDepthCode f k ≤ 8 := by
    rw [chanOk_iff] at h; split at h <;> omega
  exact ⟨chanDepth_eq_code hle, hle⟩

/-- The indexed source formats are indexed and the direct formats are not. -/
theorem isIndexed_of_indexedOk {f : Word} (h : indexedOk f = true) : isIndexed f = true := by
  simp only [indexedOk, Bool.and_eq_true, beq_iff_eq] at h
  simp [isIndexed, h]

theorem isIndexed_of_directOk {f : Word} (h : directOk f = true) : isIndexed f = false := by
  simp only [directOk, Bool.and_eq_true, beq_iff_eq] at h
  simp [isIndexed, h]

theorem indexedOk_of_directOk {f : Word} (h : directOk f = true) : indexedOk f = false := by
  cases hi : indexedOk f
  · rfl
  · have := isIndexed_of_indexedOk hi
    rw [isIndexed_of_directOk h] at this
    cases this

end Sys2Proof.Machine
end

