-- ==== Sys2Proof/Laws/Pixel.lean ====
section
/-! SUPPORT. The pixel word: where its channels stand, what `pack` puts there, and one composited channel as a number. -/

namespace Sys2Proof.Machine

/-- A channel stands above the channels below it (R213, R221). -/
theorem chanOffset_eq_sum (f : Word) (k : Nat) :
    chanOffset f k = ((List.range k).map (chanDepth f)).sum := by
  induction k with
  | zero => rfl
  | succ k ih => simp [chanOffset, List.range_succ, ih]

/-- A channel lies whole below every later one. -/
theorem chanOffset_succ_le (f : Word) {k n : Nat} (h : k < n) : chanOffset f (k + 1) ≤ chanOffset f n := by
  induction n with
  | zero => omega
  | succ n ih =>
    rcases Nat.lt_succ_iff_lt_or_eq.mp h with h | rfl
    · exact (ih h).trans (Nat.le_add_right _ _)
    · exact Nat.le_refl _

/-- Narrowing to `d` bits leaves `d` bits (R214). -/
theorem narrow_lt {d : Nat} (c : Byte) (h : d ≤ 8) : narrow c.toNat d < 2 ^ d := by
  rw [narrow, Nat.div_lt_iff_lt_mul (Nat.two_pow_pos _), ← Nat.pow_add, Nat.add_sub_cancel' h]
  exact c.isLt

/-- The pixel word of the channels below `n` stays below the place of channel `n` (R221). -/
theorem packChans_lt {f : Word} {n : Nat} (p : Pixel) (h : ∀ k, k < n → chanDepth f k ≤ 8) :
    packChans f p n < 2 ^ chanOffset f n := by
  induction n with
  | zero => exact Nat.one_pos
  | succ n ih =>
    have hlo := ih fun k hk => h k (by omega)
    have hhi := narrow_lt (storeChan f p n) (h n (by omega))
    rw [packChans, chanOffset, Nat.pow_add]
    generalize packChans f p n = lo at *
    generalize narrow (storeChan f p n).toNat (chanDepth f n) = v at *
    calc lo + v * 2 ^ chanOffset f n
        < 2 ^ chanOffset f n + v * 2 ^ chanOffset f n := by omega
      _ = (v + 1) * 2 ^ chanOffset f n := by rw [Nat.add_mul, Nat.one_mul, Nat.add_comm]
      _ ≤ 2 ^ chanDepth f n * 2 ^ chanOffset f n := Nat.mul_le_mul_right _ hhi
      _ = 2 ^ chanOffset f n * 2 ^ chanDepth f n := Nat.mul_comm _ _

/-- At its place in the pixel word stands each channel, narrowed to its depth (R221). -/
theorem packChans_field {f : Word} {n k : Nat} (p : Pixel) (h : ∀ k, k < n → chanDepth f k ≤ 8)
    (hk : k < n) :
    packChans f p n / 2 ^ chanOffset f k % 2 ^ chanDepth f k
      = narrow (storeChan f p k).toNat (chanDepth f k) := by
  induction n with
  | zero => omega
  | succ n ih =>
    have hd : ∀ j, j < n → chanDepth f j ≤ 8 := fun j hj => h j (by omega)
    rw [packChans]
    rcases Nat.lt_succ_iff_lt_or_eq.mp hk with hlt | rfl
    · obtain ⟨e, he⟩ := Nat.exists_eq_add_of_le (chanOffset_succ_le f hlt)
      have hsplit : 2 ^ chanOffset f n = 2 ^ chanOffset f k * (2 ^ chanDepth f k * 2 ^ e) := by
        rw [he, chanOffset, Nat.pow_add, Nat.pow_add, Nat.mul_assoc]
      rw [← ih hd hlt, hsplit, Nat.mul_left_comm, Nat.add_mul_div_left _ _ (Nat.two_pow_pos _),
        Nat.mul_left_comm, Nat.add_mul_mod_self_left]
    · rw [Nat.add_mul_div_right _ _ (Nat.two_pow_pos _), Nat.div_eq_of_lt (packChans_lt p hd), Nat.zero_add,
        Nat.mod_eq_of_lt (narrow_lt _ (h k hk))]

/-- One channel of SRC_OVER, where `ia` is 255 less the alpha `a` (R220). -/
theorem overChan_eq (p q a : Byte) :
    overChan p q (255 - a)
      = BitVec.ofNat 8 (min 255 (p.toNat + (q.toNat * (255 - a.toNat) + 127) / 255)) := by
  have ha : (255 - a : Byte).toNat = 255 - a.toNat := by
    rw [BitVec.toNat_sub_of_le]
    · rfl
    · rw [BitVec.le_def]
      exact Nat.le_of_lt_succ a.isLt
  have hq : q.toNat * (255 - a.toNat) ≤ 255 * 255 :=
    Nat.mul_le_mul (Nat.le_of_lt_succ q.isLt) (Nat.sub_le _ _)
  simp only [overChan, satAdd, div255r, ha]
  generalize q.toNat * (255 - a.toNat) = t at *
  have ht : (BitVec.ofNat 8 ((t + 127) / 255)).toNat = (t + 127) / 255 := by
    rw [BitVec.toNat_ofNat]
    exact Nat.mod_eq_of_lt (by omega)
  rw [ht]
  apply BitVec.eq_of_toNat_eq
  split <;> simp only [BitVec.toNat_ofNat] <;> omega

end Sys2Proof.Machine
end

