-- ==== Sys2Proof/Laws/Swz.lean ====
section
/-! SUPPORT. What SWZ.PREPARE and SWZ.SWIZZLE can do, said once: the inversion lemmas of the two commands, and of the
conversion of one pixel and of a run of pixels. -/

namespace Sys2Proof.Machine

/-! ## SWZ.PREPARE -/

/-- A palette of 1024 bytes that were read is those bytes. -/
theorem paletteOfBytes_getElem (l : List Byte) (j : Nat) (h : j < 1024) :
    (paletteOfBytes l)[j] = l.getD j 0 := by
  simp [paletteOfBytes]

/-- All that SWZ.PREPARE can answer: an error that leaves the swizzler Unprepared, or the registers of a supported triple
with the palette kept (source not indexed) or captured (source indexed). -/
theorem execSwzPrepare_cases (df : Word) (dp : Slice) (sf : Word) (sp : Slice) (bl : Word) (s : State) :
    (∃ e : Status, e ≠ .ok ∧ e ≠ .badCommand ∧ e ≠ .notPrepared
        ∧ execSwzPrepare df dp sf sp bl s = .next (s.unprepare.emit [e.word]))
      ∨ ∃ pal : Palette, supported sf df bl = true
          ∧ execSwzPrepare df dp sf sp bl s
              = .next ((s.setSwz (preparedWith sf df bl pal)).emit [0x00000000#32])
          ∧ (isIndexed sf = false → pal = s.swz.srcPal)
          ∧ (isIndexed sf = true →
              ∃ l, s.mem.readBytes sp.ptr.toNat 1024 = some l ∧ pal = paletteOfBytes l) := by
  unfold execSwzPrepare
  split
  · exact .inl ⟨.badPaletteLength, by decide, by decide, by decide, rfl⟩
  split
  · exact .inl ⟨.badPaletteLength, by decide, by decide, by decide, rfl⟩
  split
  · exact .inl ⟨.unsupportedOption, by decide, by decide, by decide, rfl⟩
  · next hsup =>
    have hs : supported sf df bl = true := by simpa using hsup
    split
    · next hi =>
      split
      · exact .inl ⟨.badArgument, by decide, by decide, by decide, rfl⟩
      · split
        · exact .inl ⟨.memFault, by decide, by decide, by decide, rfl⟩
        · next l hl =>
          exact .inr ⟨_, hs, rfl, fun h => by simp [hi] at h, fun _ => ⟨l, hl, rfl⟩⟩
    · next hi =>
      exact .inr ⟨_, hs, rfl, fun _ => rfl, fun h => absurd h hi⟩

/-! ## One pixel -/

@[simp] theorem length_storedBytes (z : Swizzler) (p : Pixel) :
    (storedBytes z p).length = z.dbpp.toNat := by simp [storedBytes]

@[simp] theorem length_converted (z : Swizzler) (sb db : List Byte) :
    (converted z sb db).length = z.dbpp.toNat := by simp [converted]

/-- Converting a pixel writes nothing outside the pixel's destination bytes. -/
theorem convertPixel_outside (z : Swizzler) (dst src i : Nat) (m : Memory) (x : Nat)
    (hx : x < dstAddr z dst i ∨ dstAddr z dst i + z.dbpp.toNat ≤ x) :
    (convertPixel z dst src i m).1.read x = m.read x := by
  unfold convertPixel
  split
  · rfl
  · split
    · exact Memory.read_writeBytes_outside _ _ _ _ (by simpa using hx)
    · split
      · rfl
      · exact Memory.read_writeBytes_outside _ _ _ _ (by simpa using hx)

/-- Converting a pixel changes no backing. -/
theorem convertPixel_isSome (z : Swizzler) (dst src i : Nat) (m : Memory) (x : Nat) :
    ((convertPixel z dst src i m).1.read x).isSome = (m.read x).isSome := by
  unfold convertPixel
  split
  · rfl
  · split
    · exact Memory.isSome_writeBytes _ _ _ _
    · split
      · rfl
      · exact Memory.isSome_writeBytes _ _ _ _

theorem convertPixel_wf {z : Swizzler} {dst src i : Nat} {m : Memory} (h : m.wf) :
    (convertPixel z dst src i m).1.wf := by
  unfold convertPixel
  split
  · exact h
  · split
    · exact Memory.writeBytes_wf _ _ h
    · split
      · exact h
      · exact Memory.writeBytes_wf _ _ h

/-- A pixel is converted whole exactly where its source bytes and its destination bytes are backed. -/
theorem convertPixel_ok (z : Swizzler) (dst src i : Nat) (m : Memory) :
    (convertPixel z dst src i m).2 = true ↔
      m.backed (srcAddr z src i) z.sbpp.toNat ∧ m.backed (dstAddr z dst i) z.dbpp.toNat := by
  unfold convertPixel
  split
  · next hs =>
    simp only [Bool.false_eq_true, false_iff, not_and]
    intro h
    rw [← Memory.readBytes_isSome, hs] at h
    cases h
  · next sb hs =>
    have h1 : m.backed (srcAddr z src i) z.sbpp.toNat := by
      rw [← Memory.readBytes_isSome, hs]; rfl
    split
    · rw [Memory.writeBytes_ok]; simp only [length_storedBytes]
      exact ⟨fun h => ⟨h1, h⟩, fun h => h.2⟩
    · split
      · next hd =>
        simp only [Bool.false_eq_true, false_iff, not_and]
        intro _ h
        rw [← Memory.readBytes_isSome, hd] at h
        cases h
      · rw [Memory.writeBytes_ok]; simp only [length_storedBytes]
        exact ⟨fun h => ⟨h1, h⟩, fun h => h.2⟩

/-- A pixel that is converted whole is the conversion of the bytes it was read from. -/
theorem convertPixel_of_bytes {z : Swizzler} {dst src i : Nat} {m : Memory} {sb db : List Byte}
    (hs : m.readBytes (srcAddr z src i) z.sbpp.toNat = some sb)
    (hd : m.readBytes (dstAddr z dst i) z.dbpp.toNat = some db) :
    convertPixel z dst src i m = m.writeBytes (dstAddr z dst i) (converted z sb db) := by
  unfold convertPixel converted
  rw [hs]
  cases hb : z.blend <;> simp [hd]

/-- Under SRC the destination bytes are not looked at. -/
theorem convertPixel_src {z : Swizzler} {dst src i : Nat} {m : Memory} {sb : List Byte}
    (hb : z.blend = .src) (hs : m.readBytes (srcAddr z src i) z.sbpp.toNat = some sb) (db : List Byte) :
    convertPixel z dst src i m = m.writeBytes (dstAddr z dst i) (converted z sb db) := by
  unfold convertPixel converted
  rw [hs]
  simp [hb]

/-! ## A run of pixels -/

/-- A run of one pixel more: the first pixel, then the rest. -/
theorem convertPixels_succ (z : Swizzler) (dst src n i : Nat) (m : Memory) :
    convertPixels z dst src (n + 1) i m =
      if (convertPixel z dst src i m).2 = true then
        convertPixels z dst src n (i + 1) (convertPixel z dst src i m).1
      else ((convertPixel z dst src i m).1, some i) := by
  rw [convertPixels]
  split
  · next m' h => simp [h]
  · next m' h => simp [h]

/-- A run writes nothing outside the destination bytes of its pixels. -/
theorem convertPixels_outside (z : Swizzler) (dst src n i : Nat) (m : Memory) (x : Nat)
    (hx : x < dstAddr z dst i ∨ dstAddr z dst (i + n) ≤ x) :
    (convertPixels z dst src n i m).1.read x = m.read x := by
  induction n generalizing i m with
  | zero => rfl
  | succ n ih =>
    have hstep : dstAddr z dst (i + 1) = dstAddr z dst i + z.dbpp.toNat := by
      simp only [dstAddr, Nat.add_mul, Nat.one_mul]; omega
    have hle : dstAddr z dst (i + 1) ≤ dstAddr z dst (i + 1 + n) :=
      Nat.add_le_add_left (Nat.mul_le_mul_right _ (by omega)) _
    rw [show i + (n + 1) = i + 1 + n by omega] at hx
    rw [convertPixels_succ]
    split
    · rw [ih (i + 1) _ (by omega), convertPixel_outside z dst src i m x (by omega)]
    · exact convertPixel_outside z dst src i m x (by omega)

/-- A run changes no backing. -/
theorem convertPixels_isSome (z : Swizzler) (dst src n i : Nat) (m : Memory) (x : Nat) :
    ((convertPixels z dst src n i m).1.read x).isSome = (m.read x).isSome := by
  induction n generalizing i m with
  | zero => rfl
  | succ n ih =>
    rw [convertPixels_succ]
    split
    · rw [ih, convertPixel_isSome]
    · exact convertPixel_isSome z dst src i m x

theorem convertPixels_wf {z : Swizzler} {dst src n i : Nat} {m : Memory} (h : m.wf) :
    (convertPixels z dst src n i m).1.wf := by
  induction n generalizing i m with
  | zero => exact h
  | succ n ih =>
    rw [convertPixels_succ]
    split
    · exact ih (convertPixel_wf h)
    · exact convertPixel_wf h

/-- A run of two parts, where the first part is converted whole. -/
theorem convertPixels_append {z : Swizzler} {dst src n i : Nat} {m m' : Memory} (k : Nat)
    (h : convertPixels z dst src n i m = (m', none)) :
    convertPixels z dst src (n + k) i m = convertPixels z dst src k (i + n) m' := by
  induction n generalizing i m with
  | zero => simp only [convertPixels, Prod.mk.injEq] at h; simp [h.1]
  | succ n ih =>
    rw [convertPixels_succ] at h
    rw [show n + 1 + k = n + k + 1 by omega, convertPixels_succ]
    split at h
    · next hb => rw [if_pos hb, ih h]; congr 1; omega
    · cases h

/-- Two memories that back the same addresses back the same runs. -/
theorem Memory.backed_congr {m m' : Memory} (h : ∀ x, (m.read x).isSome = (m'.read x).isSome) (a n : Nat) :
    m.backed a n ↔ m'.backed a n := by
  simp only [Memory.backed, h]

/-- A run is converted whole exactly where the source and destination bytes of each of its pixels are backed. -/
theorem convertPixels_none_iff (z : Swizzler) (dst src n i : Nat) (m : Memory) :
    (convertPixels z dst src n i m).2 = none ↔
      ∀ k, i ≤ k → k < i + n →
        m.backed (srcAddr z src k) z.sbpp.toNat ∧ m.backed (dstAddr z dst k) z.dbpp.toNat := by
  induction n generalizing i m with
  | zero =>
    constructor
    · intro _ k h1 h2; omega
    · intro _; rfl
  | succ n ih =>
    have hc (x : Nat) := convertPixel_isSome z dst src i m x
    rw [convertPixels_succ]
    split
    · next hok =>
      rw [convertPixel_ok] at hok
      rw [ih]
      simp only [Memory.backed_congr hc]
      constructor
      · intro h k h1 h2
        by_cases hk : k = i
        · rw [hk]; exact hok
        · exact h k (by omega) (by omega)
      · intro h k h1 h2
        exact h k (by omega) (by omega)
    · next hok =>
      simp only [reduceCtorEq, false_iff]
      intro h
      exact hok ((convertPixel_ok z dst src i m).mpr (h i (by omega) (by omega)))

/-- The bytes of a run of pixels are backed when the bytes of each pixel are, and conversely. -/
theorem backed_pixels_iff (m : Memory) (a w n : Nat) :
    m.backed a (n * w) ↔ ∀ k, k < n → m.backed (a + k * w) w := by
  constructor
  · intro h k hk j hj
    have hle : (k + 1) * w ≤ n * w := Nat.mul_le_mul_right _ hk
    rw [Nat.add_mul, Nat.one_mul] at hle
    have := h (k * w + j) (by omega)
    rwa [← Nat.add_assoc] at this
  · intro h j hj
    have hw : 0 < w := Nat.pos_of_ne_zero fun hw => by simp [hw] at hj
    have hlt : j / w < n := (Nat.div_lt_iff_lt_mul hw).mpr hj
    have := h (j / w) hlt (j % w) (Nat.mod_lt _ hw)
    have hdiv := Nat.div_add_mod j w
    rw [Nat.mul_comm w] at hdiv
    rwa [Nat.add_assoc, hdiv] at this

/-! ## SWZ.SWIZZLE -/

/-- All that SWZ.SWIZZLE can answer. -/
theorem execSwzSwizzle_cases (dst dp src : Slice) (s : State) :
    (s.swz.state = .unprepared
        ∧ execSwzSwizzle dst dp src s = .next (s.emit [0x85000000#32, 0, 0]))
      ∨ (s.swz.state = .prepared ∧ (sliceWraps dst || sliceWraps src) = true
        ∧ execSwzSwizzle dst dp src s = .next (s.emit [0x82000000#32, 0, 0]))
      ∨ (s.swz.state = .prepared ∧ (sliceWraps dst || sliceWraps src) = false
        ∧ ∃ m r, convertPixels s.swz dst.ptr.toNat src.ptr.toNat (pixelCount s.swz dst src) 0 s.mem
            = (m, r)
        ∧ execSwzSwizzle dst dp src s =
            .next ((s.setMemory m).emit
              (match r with
                | none => 0x00000000#32 :: packCount (pixelCount s.swz dst src)
                | some i => 0x86000000#32 :: packCount i))) := by
  unfold execSwzSwizzle
  split
  · next h => exact .inl ⟨h, rfl⟩
  · next h =>
    right
    split
    · next hw => exact .inl ⟨h, hw, rfl⟩
    · next hw =>
      refine .inr ⟨h, by simpa using hw, ?_⟩
      split
      · next m hm => exact ⟨m, none, hm, rfl⟩
      · next m i hm => exact ⟨m, some i, hm, rfl⟩

theorem sliceWraps_eq_false (s : Slice) : sliceWraps s = false ↔ sliceFits s := by
  simp [sliceWraps, sliceFits, params]

end Sys2Proof.Machine
end

