-- ==== Sys2Proof/Tests/Slice0.lean ====
section
/-! SUPPORT. Tests. The decode tests write each command's words out from R51 to R54 (a header in binary is its fields AUX,
UNIT, OP, FLV, the AUX of zero left out); the tests of results take their words from the vectors of
`95_test_vectors.md` and `96_test_vectors_derived.md` (those of `sadd.w8` and of `ssub` at 8, 16 and 32
bits are worked by hand from R109 to R115). The witnesses show, for each statement with hypotheses, operands
that meet them. -/

namespace Sys2Proof.Tests

open Sys2Proof Sys2Proof.Machine

/-! ## Well-formedness -/

/-- `pxf.depth` has four channels: an AUX field of 4 names none (R51, R57). -/
theorem test_wf_refuses_channel_4 (f : Word) : Instr.wf (.pxfDepth 4 f) = false := rfl

/-- So does an AUX field with its high bit set. -/
theorem test_wf_refuses_channel_15 (f : Word) : Instr.wf (.pxfDepth 15 f) = false := rfl

theorem test_wf_accepts_channel_3 (f : Word) : Instr.wf (.pxfDepth 3 f) = true := rfl

/-! ## Decoding, one packet per constructor -/

theorem test_decode_minW8 :
    decode [0b0001_0000_0000, 1, 2]
      = .ok (.minW8 1 2) := by decide

theorem test_decode_minW16 :
    decode [0b0001_0000_0001, 1, 2]
      = .ok (.minW16 1 2) := by decide

theorem test_decode_minW32 :
    decode [0b0001_0000_0010, 1, 2]
      = .ok (.minW32 1 2) := by decide

theorem test_decode_minW64 :
    decode [0b0001_0000_0011, 1, 2, 3, 4]
      = .ok (.minW64 0x200000001 0x400000003) := by decide

theorem test_decode_maxW8 :
    decode [0b0001_0001_0000, 1, 2]
      = .ok (.maxW8 1 2) := by decide

theorem test_decode_maxW16 :
    decode [0b0001_0001_0001, 1, 2]
      = .ok (.maxW16 1 2) := by decide

theorem test_decode_maxW32 :
    decode [0b0001_0001_0010, 1, 2]
      = .ok (.maxW32 1 2) := by decide

theorem test_decode_maxW64 :
    decode [0b0001_0001_0011, 1, 2, 3, 4]
      = .ok (.maxW64 0x200000001 0x400000003) := by decide

theorem test_decode_saddW8 :
    decode [0b0001_0010_0000, 1, 2]
      = .ok (.saddW8 1 2) := by decide

theorem test_decode_saddW16 :
    decode [0b0001_0010_0001, 1, 2]
      = .ok (.saddW16 1 2) := by decide

theorem test_decode_saddW32 :
    decode [0b0001_0010_0010, 1, 2]
      = .ok (.saddW32 1 2) := by decide

theorem test_decode_saddW64 :
    decode [0b0001_0010_0011, 1, 2, 3, 4]
      = .ok (.saddW64 0x200000001 0x400000003) := by decide

theorem test_decode_ssubW8 :
    decode [0b0001_0011_0000, 1, 2]
      = .ok (.ssubW8 1 2) := by decide

theorem test_decode_ssubW16 :
    decode [0b0001_0011_0001, 1, 2]
      = .ok (.ssubW16 1 2) := by decide

theorem test_decode_ssubW32 :
    decode [0b0001_0011_0010, 1, 2]
      = .ok (.ssubW32 1 2) := by decide

theorem test_decode_ssubW64 :
    decode [0b0001_0011_0011, 1, 2, 3, 4]
      = .ok (.ssubW64 0x200000001 0x400000003) := by decide

theorem test_decode_bswapW8 :
    decode [0b0001_0100_0000, 1]
      = .ok (.bswapW8 1) := by decide

theorem test_decode_bswapW16 :
    decode [0b0001_0100_0001, 1]
      = .ok (.bswapW16 1) := by decide

theorem test_decode_bswapW32 :
    decode [0b0001_0100_0010, 1]
      = .ok (.bswapW32 1) := by decide

theorem test_decode_bswapW64 :
    decode [0b0001_0100_0011, 1, 2]
      = .ok (.bswapW64 0x200000001) := by decide

theorem test_decode_lowmaskW8 :
    decode [0b0001_0101_0000, 1]
      = .ok (.lowmaskW8 1) := by decide

theorem test_decode_lowmaskW16 :
    decode [0b0001_0101_0001, 1]
      = .ok (.lowmaskW16 1) := by decide

theorem test_decode_lowmaskW32 :
    decode [0b0001_0101_0010, 1]
      = .ok (.lowmaskW32 1) := by decide

theorem test_decode_lowmaskW64 :
    decode [0b0001_0101_0011, 1]
      = .ok (.lowmaskW64 1) := by decide

theorem test_decode_rngIsemptyIi32 :
    decode [0b0010_0000_0010, 1, 2]
      = .ok (.rngIsemptyIi32 ⟨1, 2⟩) := by decide

theorem test_decode_rngIsemptyIe32 :
    decode [0b0010_0000_0110, 1, 2]
      = .ok (.rngIsemptyIe32 ⟨1, 2⟩) := by decide

theorem test_decode_rngIsemptyIi64 :
    decode [0b0010_0000_0011, 1, 2, 3, 4]
      = .ok (.rngIsemptyIi64 ⟨0x200000001, 0x400000003⟩) := by decide

theorem test_decode_rngIsemptyIe64 :
    decode [0b0010_0000_0111, 1, 2, 3, 4]
      = .ok (.rngIsemptyIe64 ⟨0x200000001, 0x400000003⟩) := by decide

theorem test_decode_rngEqualsIi32 :
    decode [0b0010_0001_0010, 1, 2, 3, 4]
      = .ok (.rngEqualsIi32 ⟨1, 2⟩ ⟨3, 4⟩) := by decide

theorem test_decode_rngEqualsIe32 :
    decode [0b0010_0001_0110, 1, 2, 3, 4]
      = .ok (.rngEqualsIe32 ⟨1, 2⟩ ⟨3, 4⟩) := by decide

theorem test_decode_rngEqualsIi64 :
    decode [0b0010_0001_0011, 1, 2, 3, 4, 5, 6, 7, 8]
      = .ok (.rngEqualsIi64 ⟨0x200000001, 0x400000003⟩ ⟨0x600000005, 0x800000007⟩) := by decide

theorem test_decode_rngEqualsIe64 :
    decode [0b0010_0001_0111, 1, 2, 3, 4, 5, 6, 7, 8]
      = .ok (.rngEqualsIe64 ⟨0x200000001, 0x400000003⟩ ⟨0x600000005, 0x800000007⟩) := by decide

theorem test_decode_rngContainsIi32 :
    decode [0b0010_0010_0010, 1, 2, 3]
      = .ok (.rngContainsIi32 ⟨1, 2⟩ 3) := by decide

theorem test_decode_rngContainsIe32 :
    decode [0b0010_0010_0110, 1, 2, 3]
      = .ok (.rngContainsIe32 ⟨1, 2⟩ 3) := by decide

theorem test_decode_rngContainsIi64 :
    decode [0b0010_0010_0011, 1, 2, 3, 4, 5, 6]
      = .ok (.rngContainsIi64 ⟨0x200000001, 0x400000003⟩ 0x600000005) := by decide

theorem test_decode_rngContainsIe64 :
    decode [0b0010_0010_0111, 1, 2, 3, 4, 5, 6]
      = .ok (.rngContainsIe64 ⟨0x200000001, 0x400000003⟩ 0x600000005) := by decide

theorem test_decode_rngIsectIi32 :
    decode [0b0010_0011_0010, 1, 2, 3, 4]
      = .ok (.rngIsectIi32 ⟨1, 2⟩ ⟨3, 4⟩) := by decide

theorem test_decode_rngIsectIe32 :
    decode [0b0010_0011_0110, 1, 2, 3, 4]
      = .ok (.rngIsectIe32 ⟨1, 2⟩ ⟨3, 4⟩) := by decide

theorem test_decode_rngIsectIi64 :
    decode [0b0010_0011_0011, 1, 2, 3, 4, 5, 6, 7, 8]
      = .ok (.rngIsectIi64 ⟨0x200000001, 0x400000003⟩ ⟨0x600000005, 0x800000007⟩) := by decide

theorem test_decode_rngIsectIe64 :
    decode [0b0010_0011_0111, 1, 2, 3, 4, 5, 6, 7, 8]
      = .ok (.rngIsectIe64 ⟨0x200000001, 0x400000003⟩ ⟨0x600000005, 0x800000007⟩) := by decide

theorem test_decode_rngUnionIi32 :
    decode [0b0010_0100_0010, 1, 2, 3, 4]
      = .ok (.rngUnionIi32 ⟨1, 2⟩ ⟨3, 4⟩) := by decide

theorem test_decode_rngUnionIe32 :
    decode [0b0010_0100_0110, 1, 2, 3, 4]
      = .ok (.rngUnionIe32 ⟨1, 2⟩ ⟨3, 4⟩) := by decide

theorem test_decode_rngUnionIi64 :
    decode [0b0010_0100_0011, 1, 2, 3, 4, 5, 6, 7, 8]
      = .ok (.rngUnionIi64 ⟨0x200000001, 0x400000003⟩ ⟨0x600000005, 0x800000007⟩) := by decide

theorem test_decode_rngUnionIe64 :
    decode [0b0010_0100_0111, 1, 2, 3, 4, 5, 6, 7, 8]
      = .ok (.rngUnionIe64 ⟨0x200000001, 0x400000003⟩ ⟨0x600000005, 0x800000007⟩) := by decide

theorem test_decode_rngLengthIe32 :
    decode [0b0010_0101_0110, 1, 2]
      = .ok (.rngLengthIe32 ⟨1, 2⟩) := by decide

theorem test_decode_rngLengthIe64 :
    decode [0b0010_0101_0111, 1, 2, 3, 4]
      = .ok (.rngLengthIe64 ⟨0x200000001, 0x400000003⟩) := by decide

theorem test_decode_rctIsemptyIi32 :
    decode [0b0011_0000_0010, 1, 2, 3, 4]
      = .ok (.rctIsemptyIi32 ⟨1, 2, 3, 4⟩) := by decide

theorem test_decode_rctIsemptyIe32 :
    decode [0b0011_0000_0110, 1, 2, 3, 4]
      = .ok (.rctIsemptyIe32 ⟨1, 2, 3, 4⟩) := by decide

theorem test_decode_rctEqualsIi32 :
    decode [0b0011_0001_0010, 1, 2, 3, 4, 5, 6, 7, 8]
      = .ok (.rctEqualsIi32 ⟨1, 2, 3, 4⟩ ⟨5, 6, 7, 8⟩) := by decide

theorem test_decode_rctEqualsIe32 :
    decode [0b0011_0001_0110, 1, 2, 3, 4, 5, 6, 7, 8]
      = .ok (.rctEqualsIe32 ⟨1, 2, 3, 4⟩ ⟨5, 6, 7, 8⟩) := by decide

theorem test_decode_rctContainsIi32 :
    decode [0b0011_0010_0010, 1, 2, 3, 4, 5, 6]
      = .ok (.rctContainsIi32 ⟨1, 2, 3, 4⟩ 5 6) := by decide

theorem test_decode_rctContainsIe32 :
    decode [0b0011_0010_0110, 1, 2, 3, 4, 5, 6]
      = .ok (.rctContainsIe32 ⟨1, 2, 3, 4⟩ 5 6) := by decide

theorem test_decode_rctIsectIi32 :
    decode [0b0011_0011_0010, 1, 2, 3, 4, 5, 6, 7, 8]
      = .ok (.rctIsectIi32 ⟨1, 2, 3, 4⟩ ⟨5, 6, 7, 8⟩) := by decide

theorem test_decode_rctIsectIe32 :
    decode [0b0011_0011_0110, 1, 2, 3, 4, 5, 6, 7, 8]
      = .ok (.rctIsectIe32 ⟨1, 2, 3, 4⟩ ⟨5, 6, 7, 8⟩) := by decide

theorem test_decode_rctUnionIi32 :
    decode [0b0011_0100_0010, 1, 2, 3, 4, 5, 6, 7, 8]
      = .ok (.rctUnionIi32 ⟨1, 2, 3, 4⟩ ⟨5, 6, 7, 8⟩) := by decide

theorem test_decode_rctUnionIe32 :
    decode [0b0011_0100_0110, 1, 2, 3, 4, 5, 6, 7, 8]
      = .ok (.rctUnionIe32 ⟨1, 2, 3, 4⟩ ⟨5, 6, 7, 8⟩) := by decide

theorem test_decode_rctWidthIe32 :
    decode [0b0011_0101_0110, 1, 2, 3, 4]
      = .ok (.rctWidthIe32 ⟨1, 2, 3, 4⟩) := by decide

theorem test_decode_rctHeightIe32 :
    decode [0b0011_0110_0110, 1, 2, 3, 4]
      = .ok (.rctHeightIe32 ⟨1, 2, 3, 4⟩) := by decide

theorem test_decode_pxfIsvalid :
    decode [0b0100_0000_0000, 1]
      = .ok (.pxfIsvalid 1) := by decide

theorem test_decode_pxfIsindexed :
    decode [0b0100_0001_0000, 1]
      = .ok (.pxfIsindexed 1) := by decide

theorem test_decode_pxfNumplanes :
    decode [0b0100_0010_0000, 1]
      = .ok (.pxfNumplanes 1) := by decide

theorem test_decode_pxfDepth :
    decode [0b0010_0100_0011_0000, 1]
      = .ok (.pxfDepth 2 1) := by decide

theorem test_decode_swzPrepare :
    decode [0b0101_0000_0000, 1, 2, 3, 4, 5, 6, 7, 8, 9, 10, 11]
      = .ok (.swzPrepare 1 ⟨0x300000002, 0x500000004⟩ 6 ⟨0x800000007, 0xA00000009⟩ 11) := by decide

theorem test_decode_swzSwizzle :
    decode [0b0101_0001_0000, 1, 2, 3, 4, 5, 6, 7, 8, 9, 10, 11, 12]
      = .ok (.swzSwizzle ⟨0x200000001, 0x400000003⟩ ⟨0x600000005, 0x800000007⟩ ⟨0xA00000009, 0xC0000000B⟩) := by decide

/-! ## Illegal packets (R58, R59) -/

theorem test_decode_refuses_no_words : decode [] = .error .emptyPacket := by decide

/-- `rct.isempty` has no 64-bit flavour: header 0x303 is reserved (R57, R59). -/
theorem test_decode_refuses_a_64_bit_rectangle :
    decode [0x303, 0, 0, 0, 0, 0, 0, 0, 0] = .error .unknownHeader := by decide

/-- A channel index in `pxf.isvalid` makes the header a reserved one. -/
theorem test_decode_refuses_aux_elsewhere : decode [0x1400, 0] = .error .unknownHeader := by decide

/-- Header bit 14 is no part of the channel index. -/
theorem test_decode_refuses_channel_4 : decode [0x4430, 0] = .error .unknownHeader := by decide

theorem test_decode_refuses_a_high_header_bit : decode [0x80000100, 1, 2] = .error .unknownHeader := by decide

theorem test_decode_refuses_a_word_too_few : decode [0x100, 1] = .error .wrongLength := by decide

theorem test_decode_refuses_a_word_too_many : decode [0x100, 1, 2, 3] = .error .wrongLength := by decide

/-- The table's word of `swz.swizzle` is its header alone: the operand words are zero. -/
theorem test_table_word_of_swizzle :
    decodeTableWord 32 0x510 = some (.swzSwizzle ⟨0, 0⟩ ⟨0, 0⟩ ⟨0, 0⟩) := by decide

/-! ## Results -/

/-- What the block answers to one packet after reset. -/
def reply (p : Packet) : List Packet :=
  match step { State.reset with inbox := [.command p] } with
  | .next t => t.outbox
  | .fault _ => []
  | .refused _ => []

theorem test_minW8 : reply [0x100, 0x0, 0xFF] = [[0x0, 0x0]] := by decide

theorem test_minW16 : reply [0x101, 0x8000, 0x7FFF] = [[0x0, 0x7FFF]] := by decide

theorem test_minW32 : reply [0x102, 0x80000000, 0x7FFFFFFF] = [[0x0, 0x7FFFFFFF]] := by decide

theorem test_minW64 : reply [0x103, 0x0, 0x1, 0xFFFFFFFF, 0x0] = [[0x0, 0xFFFFFFFF, 0x0]] := by decide

theorem test_maxW8 : reply [0x110, 0x1FF, 0x200] = [[0x0, 0xFF]] := by decide

theorem test_maxW16 : reply [0x111, 0x18000, 0x7FFF] = [[0x0, 0x8000]] := by decide

theorem test_maxW32 : reply [0x112, 0x0, 0x0] = [[0x0, 0x0]] := by decide

theorem test_maxW64 :
    reply [0x113, 0x0, 0x80000000, 0xFFFFFFFF, 0x7FFFFFFF] = [[0x0, 0x0, 0x80000000]] := by decide

theorem test_saddW8 : reply [0x120, 0x17F, 0x201] = [[0x0, 0x80]] := by decide

theorem test_saddW16 : reply [0x121, 0xFFFE, 0x1] = [[0x0, 0xFFFF]] := by decide

theorem test_saddW32 : reply [0x122, 0x7FFFFFFF, 0x80000000] = [[0x0, 0xFFFFFFFF]] := by decide

theorem test_saddW64 :
    reply [0x123, 0xFFFFFFFE, 0xFFFFFFFF, 0x1, 0x0] = [[0x0, 0xFFFFFFFF, 0xFFFFFFFF]] := by decide

theorem test_ssubW8 : reply [0x130, 0x105, 0x202] = [[0x0, 0x3]] := by decide

theorem test_ssubW16 : reply [0x131, 0x10005, 0x3] = [[0x0, 0x2]] := by decide

theorem test_ssubW32 : reply [0x132, 0x80000000, 0x1] = [[0x0, 0x7FFFFFFF]] := by decide

theorem test_ssubW64 :
    reply [0x133, 0xFFFFFFFF, 0xFFFFFFFF, 0x0, 0x0] = [[0x0, 0xFFFFFFFF, 0xFFFFFFFF]] := by decide

theorem test_bswapW8 : reply [0x140, 0x1234] = [[0x0, 0x34]] := by decide

theorem test_bswapW16 : reply [0x141, 0xFFFF00AB] = [[0x0, 0xAB00]] := by decide

theorem test_bswapW32 : reply [0x142, 0x11223344] = [[0x0, 0x44332211]] := by decide

theorem test_bswapW64 : reply [0x143, 0x5060708, 0x1020304] = [[0x0, 0x4030201, 0x8070605]] := by decide

theorem test_lowmaskW8 : reply [0x150, 0x1] = [[0x0, 0x1]] := by decide

theorem test_lowmaskW16 : reply [0x151, 0xF] = [[0x0, 0x7FFF]] := by decide

theorem test_lowmaskW32 : reply [0x152, 0x1F] = [[0x0, 0x7FFFFFFF]] := by decide

theorem test_lowmaskW64 : reply [0x153, 0x21] = [[0x0, 0xFFFFFFFF, 0x1]] := by decide

theorem test_rngIsemptyIi32 : reply [0x202, 0x5, 0x4] = [[0x0, 0x1]] := by decide

theorem test_rngIsemptyIe32 : reply [0x206, 0x5, 0x5] = [[0x0, 0x1]] := by decide

theorem test_rngIsemptyIi64 : reply [0x203, 0x0, 0x1, 0xFFFFFFFF, 0x0] = [[0x0, 0x1]] := by decide

theorem test_rngIsemptyIe64 : reply [0x207, 0xFFFFFFFF, 0xFFFFFFFF, 0x0, 0x0] = [[0x0, 0x1]] := by decide

theorem test_rngEqualsIi32 : reply [0x212, 0x9, 0x3, 0x1, 0x0] = [[0x0, 0x1]] := by decide

theorem test_rngEqualsIe32 : reply [0x216, 0x4, 0x4, 0x0, 0x0] = [[0x0, 0x1]] := by decide

theorem test_rngEqualsIi64 :
    reply [0x213, 0x5, 0x0, 0x4, 0x0, 0xFFFFFFFF, 0xFFFFFFFF, 0x0, 0x0] = [[0x0, 0x1]] := by decide

theorem test_rngEqualsIe64 :
    reply [0x217, 0x0, 0x1, 0x1, 0x0, 0x7, 0x0, 0x7, 0x0] = [[0x0, 0x1]] := by decide

theorem test_rngContainsIi32 : reply [0x222, 0x3, 0x7, 0x3] = [[0x0, 0x1]] := by decide

theorem test_rngContainsIe32 : reply [0x226, 0x0, 0xFFFFFFFF, 0xFFFFFFFE] = [[0x0, 0x1]] := by decide

theorem test_rngContainsIi64 :
    reply [0x223, 0x0, 0x1, 0x0, 0x2, 0x80000000, 0x1] = [[0x0, 0x1]] := by decide

theorem test_rngContainsIe64 :
    reply [0x227, 0x0, 0x0, 0x0, 0x1, 0xFFFFFFFF, 0x0] = [[0x0, 0x1]] := by decide

theorem test_rngIsectIi32 : reply [0x232, 0x0, 0x4, 0x5, 0x9] = [[0x0, 0x5, 0x4]] := by decide

theorem test_rngIsectIe32 : reply [0x236, 0x0, 0xFFFFFFFF, 0x1, 0x2] = [[0x0, 0x1, 0x2]] := by decide

theorem test_rngIsectIi64 :
    reply [0x233, 0x0, 0x0, 0xFFFFFFFF, 0xFFFFFFFF, 0x0, 0x80000000, 0x0, 0x80000000]
      = [[0x0, 0x0, 0x80000000, 0x0, 0x80000000]] := by decide

theorem test_rngIsectIe64 :
    reply [0x237, 0x0, 0x0, 0x0, 0x1, 0xFFFFFFFF, 0x0, 0x0, 0x2]
      = [[0x0, 0xFFFFFFFF, 0x0, 0x0, 0x1]] := by decide

theorem test_rngUnionIi32 : reply [0x242, 0x3, 0x9, 0x7, 0x2] = [[0x0, 0x3, 0x9]] := by decide

theorem test_rngUnionIe32 : reply [0x246, 0x3, 0x9, 0x0, 0x0] = [[0x0, 0x3, 0x9]] := by decide

theorem test_rngUnionIi64 :
    reply [0x243, 0x5, 0x0, 0x4, 0x0, 0x0, 0x1, 0x0, 0x1] = [[0x0, 0x0, 0x1, 0x0, 0x1]] := by decide

theorem test_rngUnionIe64 :
    reply [0x247, 0x0, 0x0, 0x1, 0x0, 0xFFFFFFFE, 0xFFFFFFFF, 0xFFFFFFFF, 0xFFFFFFFF]
      = [[0x0, 0x0, 0x0, 0xFFFFFFFF, 0xFFFFFFFF]] := by decide

theorem test_rngLengthIe32 : reply [0x256, 0x0, 0xFFFFFFFF] = [[0x0, 0xFFFFFFFF]] := by decide

theorem test_rngLengthIe64 :
    reply [0x257, 0x1, 0x0, 0xFFFFFFFF, 0xFFFFFFFF] = [[0x0, 0xFFFFFFFE, 0xFFFFFFFF]] := by decide

theorem test_rctIsemptyIi32 : reply [0x302, 0x1, 0x0, 0x0, 0x0] = [[0x0, 0x1]] := by decide

theorem test_rctIsemptyIe32 : reply [0x306, 0xC8, 0x14, 0x64, 0x28] = [[0x0, 0x1]] := by decide

theorem test_rctEqualsIi32 :
    reply [0x312, 0x5, 0x0, 0x4, 0x9, 0x0, 0x7, 0x9, 0x6] = [[0x0, 0x1]] := by decide

theorem test_rctEqualsIe32 :
    reply [0x316, 0x0, 0x0, 0x0, 0x9, 0x5, 0x5, 0x9, 0x5] = [[0x0, 0x1]] := by decide

theorem test_rctContainsIi32 : reply [0x322, 0x2, 0x3, 0x8, 0x9, 0x2, 0x3] = [[0x0, 0x1]] := by decide

theorem test_rctContainsIe32 : reply [0x326, 0x5A, 0x1E, 0x64, 0x32, 0x63, 0x31] = [[0x0, 0x1]] := by decide

theorem test_rctIsectIi32 :
    reply [0x332, 0x0, 0x0, 0x4, 0x9, 0x5, 0x0, 0x9, 0x9] = [[0x0, 0x5, 0x0, 0x4, 0x9]] := by decide

theorem test_rctIsectIe32 :
    reply [0x336, 0xA, 0x14, 0x12C, 0x190, 0x0, 0x0, 0x64, 0x32] = [[0x0, 0xA, 0x14, 0x64, 0x32]] := by decide

theorem test_rctUnionIi32 :
    reply [0x342, 0x3, 0x0, 0x2, 0x9, 0x5, 0x1, 0x6, 0x9] = [[0x0, 0x5, 0x1, 0x6, 0x9]] := by decide

theorem test_rctUnionIe32 :
    reply [0x346, 0x5A, 0x28, 0x78, 0x2D, 0x5F, 0x1E, 0x63, 0x46] = [[0x0, 0x5A, 0x1E, 0x78, 0x46]] := by decide

theorem test_rctWidthIe32 : reply [0x356, 0x5A, 0x1E, 0x64, 0x32] = [[0x0, 0xA]] := by decide

theorem test_rctHeightIe32 : reply [0x366, 0x5A, 0x1E, 0x64, 0x32] = [[0x0, 0x14]] := by decide

theorem test_pxfIsvalid : reply [0x400, 0x20000565] = [[0x0, 0x1]] := by decide

theorem test_pxfIsindexed : reply [0x410, 0x22088888] = [[0x0, 0x1]] := by decide

theorem test_pxfNumplanes : reply [0x420, 0x20000565] = [[0x0, 0x1]] := by decide

theorem test_pxfDepth : reply [0x430, 0x20000565] = [[0x0, 0x5]] := by decide

/-- An index past the table is answered with ERR_BAD_ARGUMENT and zero result words (R121, R262). -/
theorem test_lowmaskW64_past_the_table : reply [0x153, 65] = [[0x82000000, 0, 0]] := by decide

/-- `depth` of channel 1 of BGR 565 (vectors of `43_pixfmt.md`). -/
theorem test_pxfDepth_of_green : reply [0x1430, 0x20000565] = [[0, 6]] := by decide
/-! ## SWZ: one command on a small state -/

/-- The cells of some bytes at an address. -/
def cellsAt : Nat → List Byte → List Host.Cell
  | _, [] => []
  | a, b :: bs => (a, b) :: cellsAt (a + 1) bs

/-- A state with the swizzler Prepared for a triple and some bytes of memory. -/
def ready (srcFormat dstFormat blend : Word) (cells : List Host.Cell) : State :=
  { State.reset with
    swz := preparedWith srcFormat dstFormat blend (Vector.replicate 1024 0), mem := ⟨cells⟩ }

/-- The responses and the memory cells after one command. -/
def after (i : Instr) (s : State) : List Packet × List Host.Cell :=
  match exec i s with
  | .next t => (t.outbox, t.mem.cells)
  | .fault _ => ([], [])
  | .refused _ => ([], [])

/-- Program P6: the destination starts three bytes after the source, so pixel 1 reads what pixel 0 wrote. -/
theorem test_swizzle_of_overlapping_slices :
    after (.swzSwizzle ⟨0x1003, 9⟩ ⟨0, 0⟩ ⟨0x1000, 9⟩)
        (ready 0x30000888 0x20000888 0 (cellsAt 0x1000 [3, 2, 1, 6, 5, 4, 9, 8, 7, 10, 11, 12]))
      = ([[0, 3, 0]], cellsAt 0x1000 [3, 2, 1, 1, 2, 3, 3, 2, 1, 1, 2, 3]) := by decide

/-- Program P5, step 4: the byte at 0x1005 is refused, in the middle of pixel 1. -/
theorem test_swizzle_of_a_refused_access :
    after (.swzSwizzle ⟨0x1000, 9⟩ ⟨0, 0⟩ ⟨0x2000, 9⟩)
        (ready 0x30000888 0x20000888 0
          (cellsAt 0x1000 [0xAA, 0xAA, 0xAA, 0xAA, 0xAA] ++ cellsAt 0x2000 [1, 2, 3, 4, 5, 6, 7, 8, 9]))
      = ([[0x86000000, 1, 0]],
          cellsAt 0x1000 [3, 2, 1, 6, 5] ++ cellsAt 0x2000 [1, 2, 3, 4, 5, 6, 7, 8, 9]) := by decide

/-- Program P4: an indexed destination format is not supported; the swizzler is left Unprepared. -/
theorem test_prepare_refuses_an_indexed_destination :
    after (.swzPrepare 0x22088888 ⟨0x3000, 1024⟩ 0x20000565 ⟨0, 0⟩ 0) (ready 0x20000565 0x20000565 0 [])
      = ([[0x84000000]], []) := by decide

/-- Program P4: a palette slice of 1023 bytes. -/
theorem test_prepare_refuses_a_short_palette :
    after (.swzPrepare 0x20000565 ⟨0, 0⟩ 0x22088888 ⟨0x3000, 1023⟩ 0) State.reset
      = ([[0x83000000]], []) := by decide

/-- Program P3: (200, 100, 50, 128) over opaque white, by SRC_OVER. -/
theorem test_converted_over_white :
    converted (ready 0x32008888 0x33008888 1 []).swz [0xC8, 0x64, 0x32, 0x80] [0xFF, 0xFF, 0xFF, 0xFF]
      = [0xE3, 0xB1, 0x98, 0xFF] := by decide

/-- A vector of `96_test_vectors_derived.md`: half red over white, packed to BGR 565. -/
theorem test_converted_to_565 :
    converted (ready 0x32008888 0x20000565 1 []).swz [0xFF, 0, 0, 0x80] [0xFF, 0xFF] = [0xEF, 0xFB] := by
  decide

/-- The packet the host would put before the first step. -/
theorem test_fetch_word_runs :
    (State.reset.withFetchWord 32 0x3430).inbox = [.command [0x3430, 0]] := by decide

/-! ## Witnesses: operands that meet the hypotheses of the statements -/

theorem witness_DecodeOfEncode :
    Instr.wf (.pxfDepth 3 0xFFFFFFFF) = true ∧ Instr.wf (.pxfDepth 0 0) = true
    ∧ Instr.wf (.minW64 0xFFFFFFFFFFFFFFFF 0) = true := by decide

theorem witness_EncodeOfDecode : decode [0x3430, 5] = .ok (.pxfDepth 3 5) := by decide

/-- The three ways a packet is illegal, and a legal packet of the longest kind. -/
theorem witness_IllegalPacketAnswersBadCommand :
    ({ State.reset with inbox := [.command []] } : State).inbox = [.command []] ∧ ¬ legal []
    ∧ ¬ legal [0x303, 0, 0, 0, 0, 0, 0, 0, 0] ∧ ¬ legal [0x100, 1] ∧ ¬ legal [0x100, 1, 2, 3]
    ∧ legal [0x510, 0, 0, 0, 0, 0, 0, 0, 0, 0, 0, 0, 0] := by
  unfold legal; decide

theorem witness_ResponseLengthIsFixed : Instr.wf (.pxfDepth 3 0) = true := by decide

theorem witness_UpperOperandBitsAreIgnored :
    ((0x1FF : Word).toNat % 2 ^ 8 = (0xFF : Word).toNat % 2 ^ 8)
    ∧ ((0x1FFFF : Word).toNat % 2 ^ 16 = (0xFFFF : Word).toNat % 2 ^ 16) := by decide

theorem witness_StepRunsTheDecodedCommand :
    ({ State.reset with inbox := [.command [0x140, 7], .reset] } : State).inbox
        = .command [0x140, 7] :: [.reset]
    ∧ decode [0x140, 7] = .ok (.bswapW8 7) := by decide

theorem witness_IdleStepChangesNothing : State.reset.inbox = [] := rfl

/-- At the last address, a byte set and a byte's backing taken away. -/
theorem witness_HostSetsOneByte :
    ({ State.reset with inbox := [.setMem 0xFFFFFFFFFFFFFFFF (some 9)] } : State).inbox
        = [.setMem 0xFFFFFFFFFFFFFFFF (some 9)]
    ∧ ({ State.reset with inbox := [.setMem 0 none] } : State).inbox = [.setMem 0 none] := ⟨rfl, rfl⟩

theorem witness_ResetLeavesUnprepared :
    (({ ready 0x30000888 0x20000888 0 [] with inbox := [.reset] }) : State).inbox = [.reset] := rfl

/-- An illegal command; and a host move that is no command. -/
theorem witness_OneResponsePerCommand :
    ({ State.reset with inbox := [.command []] } : State).inbox = [.command []]
    ∧ (∀ p rest, ({ State.reset with inbox := [.reset] } : State).inbox ≠ .command p :: rest)
    ∧ ∃ t, step { State.reset with inbox := [.reset] } = .next t :=
  ⟨rfl, by simp, _, rfl⟩

/-- Both kinds at the boundary of emptiness, and two ranges without a common point. -/
theorem witness_RngLaws :
    rangeEmpty .ii (⟨7, 7⟩ : Range 32) = false ∧ rangeEmpty .ii (⟨8, 7⟩ : Range 32) = true
    ∧ rangeEmpty .ie (⟨7, 8⟩ : Range 32) = false ∧ rangeEmpty .ie (⟨7, 7⟩ : Range 32) = true
    ∧ ∀ p : BitVec 4, ¬ (rangeContains .ii (⟨0, 7⟩ : Range 4) p = true
        ∧ rangeContains .ii (⟨8, 15⟩ : Range 4) p = true) := by decide

theorem witness_RctLaws :
    rectEmpty .ii ⟨0, 0, 0, 0⟩ = false ∧ rectEmpty .ii ⟨1, 0, 0, 9⟩ = true
    ∧ rectEmpty .ie ⟨0, 0, 1, 1⟩ = false ∧ rectEmpty .ie ⟨0, 0, 0, 9⟩ = true
    ∧ ∀ x y : Word, ¬ (rectContains .ie ⟨0, 0, 1, 1⟩ x y = true
        ∧ rectContains .ie ⟨1, 0, 2, 1⟩ x y = true) := by
  refine ⟨by decide, by decide, by decide, by decide, fun x y ⟨h1, h2⟩ => ?_⟩
  simp only [rectContains, rangeContains, xAxis, Bool.and_eq_true, decide_eq_true_eq, BitVec.lt_def,
    BitVec.le_def] at h1 h2
  have e1 : (1 : Word).toNat = 1 := rfl
  omega

theorem witness_PxfDepthAnswersTheTable : 0 < 4 ∧ 3 < 4 := by decide

/-- A direct format of one byte, one of four bytes, and an indexed one. -/
theorem witness_SupportedTriplesAndPixelWidths :
    directOk 0x10000008 = true ∧ directOk 0x33008888 = true ∧ indexedOk 0x22088888 = true := by decide

theorem witness_PrepareStoresADirectTriple :
    supported 0x30000888 0x20000565 1 = true ∧ (0x30000888 : Word).extractLsb' 16 4 = 0 := by decide

/-- What a run of cells holds inside itself. -/
theorem lookup_cellsAt (l : List Byte) (a j : Nat) (h : j < l.length) :
    (lookup (cellsAt a l) (a + j)).isSome = true := by
  induction l generalizing a j with
  | nil => simp at h
  | cons b bs ih =>
    simp only [cellsAt, lookup]
    split
    · rfl
    · next hne =>
      have := ih (a + 1) (j - 1) (by simp at h; omega)
      rwa [show a + 1 + (j - 1) = a + j by omega] at this

/-- The last 1024 addresses, backed: a palette slice at the end of the address space. -/
def paletteMemory : Memory := ⟨cellsAt 0xFFFFFFFFFFFFFC00 (List.replicate 1024 0)⟩

theorem witness_PrepareCapturesThePalette :
    supported 0x22088888 0x20000565 0 = true ∧ (0x22088888 : Word).extractLsb' 16 4 ≠ 0
    ∧ (⟨0xFFFFFFFFFFFFFC00, 1024⟩ : Slice).len = 1024
    ∧ (⟨0xFFFFFFFFFFFFFC00, 1024⟩ : Slice).ptr.toNat + 1024 ≤ 2 ^ 64
    ∧ paletteMemory.backed (⟨0xFFFFFFFFFFFFFC00, 1024⟩ : Slice).ptr.toNat 1024 := by
  refine ⟨by decide, by decide, rfl, by decide, fun j hj => ?_⟩
  exact lookup_cellsAt (List.replicate 1024 0) 0xFFFFFFFFFFFFFC00 j
    (by rw [List.length_replicate]; exact hj)

/-- A short palette beside an indexed destination, and beside an indexed source. -/
theorem witness_FailedPrepare_length :
    ((0x22088888 : Word).extractLsb' 16 4 ≠ 0 ∧ (⟨0, 1023⟩ : Slice).len ≠ 1024)
    ∧ ((0x20080888 : Word).extractLsb' 16 4 ≠ 0 ∧ (⟨0, 1025⟩ : Slice).len ≠ 1024) := by decide

/-- An unsupported triple with no palette in play: a blend mode of 2. -/
theorem witness_FailedPrepare_unsupported :
    ¬ (((0x20000888 : Word).extractLsb' 16 4 ≠ 0 ∧ (⟨0, 0⟩ : Slice).len ≠ 1024)
        ∨ ((0x30000888 : Word).extractLsb' 16 4 ≠ 0 ∧ (⟨0, 0⟩ : Slice).len ≠ 1024))
    ∧ supported 0x30000888 0x20000888 2 = false := by decide

/-- A palette slice that wraps by one byte. -/
theorem witness_FailedPrepare_wraps :
    ¬ (((0x20000888 : Word).extractLsb' 16 4 ≠ 0 ∧ (⟨0, 0⟩ : Slice).len ≠ 1024)
        ∨ ((0x22088888 : Word).extractLsb' 16 4 ≠ 0 ∧ (⟨0xFFFFFFFFFFFFFC01, 1024⟩ : Slice).len ≠ 1024))
    ∧ supported 0x22088888 0x20000888 0 = true ∧ (0x22088888 : Word).extractLsb' 16 4 ≠ 0
    ∧ (⟨0xFFFFFFFFFFFFFC01, 1024⟩ : Slice).ptr.toNat + 1024 > 2 ^ 64 := by decide

/-- A palette slice that ends at the end of the address space, and is not backed. -/
theorem witness_FailedPrepare_refused :
    ¬ (((0x20000888 : Word).extractLsb' 16 4 ≠ 0 ∧ (⟨0, 0⟩ : Slice).len ≠ 1024)
        ∨ ((0x22088888 : Word).extractLsb' 16 4 ≠ 0 ∧ (⟨0xFFFFFFFFFFFFFC00, 1024⟩ : Slice).len ≠ 1024))
    ∧ supported 0x22088888 0x20000888 0 = true ∧ (0x22088888 : Word).extractLsb' 16 4 ≠ 0
    ∧ (⟨0xFFFFFFFFFFFFFC00, 1024⟩ : Slice).ptr.toNat + 1024 ≤ 2 ^ 64
    ∧ ¬ State.reset.mem.backed (⟨0xFFFFFFFFFFFFFC00, 1024⟩ : Slice).ptr.toNat 1024 :=
  ⟨by decide, by decide, by decide, by decide, fun h => by nomatch h 0 (by omega)⟩

theorem witness_SwizzleUnpreparedIsRefused : State.reset.swz.state = .unprepared := rfl

/-- A destination, then a source, one byte past the end of the address space. -/
theorem witness_SwizzleOfAWrappingSliceIsRefused :
    (ready 0x30000888 0x20000888 0 []).swz.state = .prepared
    ∧ ¬ sliceFits ⟨0xFFFFFFFFFFFFFFFF, 2⟩ ∧ sliceFits ⟨0xFFFFFFFFFFFFFFFF, 1⟩ := by decide

/-- One RGB pixel at 0x2000 and room for one BGR pixel at the end of the address space. -/
def onePixel : State :=
  ready 0x30000888 0x20000888 0 (cellsAt 0x2000 [1, 2, 3] ++ cellsAt 0xFFFFFFFFFFFFFFFD [0xAA, 0xAA, 0xAA])

theorem witness_SwizzleCompletesOnBackedPixels :
    onePixel.swz.state = .prepared ∧ sliceFits ⟨0xFFFFFFFFFFFFFFFD, 3⟩ ∧ sliceFits ⟨0x2000, 3⟩
    ∧ min ((⟨0xFFFFFFFFFFFFFFFD, 3⟩ : Slice).len.toNat / onePixel.swz.dbpp.toNat)
        ((⟨0x2000, 3⟩ : Slice).len.toNat / onePixel.swz.sbpp.toNat) = 1
    ∧ onePixel.mem.backed 0x2000 3 ∧ onePixel.mem.backed 0xFFFFFFFFFFFFFFFD 3 := by decide

/-- A slice that holds no whole pixel needs no backed byte. -/
theorem witness_SwizzleCompletes_with_no_pixel :
    min ((⟨0xFFFFFFFFFFFFFFFF, 1⟩ : Slice).len.toNat / onePixel.swz.dbpp.toNat)
        ((⟨0x2000, 3⟩ : Slice).len.toNat / onePixel.swz.sbpp.toNat) = 0
    ∧ onePixel.mem.backed 0x2000 0 ∧ onePixel.mem.backed 0xFFFFFFFFFFFFFFFF 0 := by decide

theorem witness_SwizzleConvertsEveryPixel :
    (0x2000 + 1 * 3 ≤ 0xFFFFFFFFFFFFFFFD) ∧ 0 < 1
    ∧ onePixel.mem.readBytes 0x2000 3 = some [1, 2, 3]
    ∧ onePixel.mem.readBytes 0xFFFFFFFFFFFFFFFD 3 = some [0xAA, 0xAA, 0xAA]
    ∧ ∃ t, exec (.swzSwizzle ⟨0xFFFFFFFFFFFFFFFD, 3⟩ ⟨0, 0⟩ ⟨0x2000, 3⟩) onePixel = .next t :=
  ⟨by decide, by decide, by decide, by decide, _, rfl⟩

/-- The formats of the conversion's clauses: a direct source and destination, and an indexed source with its one byte. -/
theorem witness_SwizzleConvertsEveryPixel_formats :
    directOk onePixel.swz.srcFmt = true ∧ directOk onePixel.swz.dstFmt = true
    ∧ onePixel.swz.dbpp.toNat = bpp onePixel.swz.dstFmt
    ∧ indexedOk (ready 0x22088888 0x20000565 1 []).swz.srcFmt = true ∧ ([255] : List Byte) = [255]
    ∧ (0 : Nat) < 3 ∧ (2 : Nat) < 3 := by decide

/-- Two RGB pixels converted in place. -/
def twoPixels : State := ready 0x30000888 0x20000888 0 (cellsAt 0x1000 [1, 2, 3, 4, 5, 6])

/-- One pixel of the two done (`k` is 1), then the second. -/
theorem witness_SwizzleConvertsInAscendingOrder :
    sliceFits ⟨0x1000, 6⟩
    ∧ min ((⟨0x1000, 3⟩ : Slice).len.toNat / twoPixels.swz.dbpp.toNat)
        ((⟨0x1000, 5⟩ : Slice).len.toNat / twoPixels.swz.sbpp.toNat) = 1
    ∧ min ((⟨0x1000, 6⟩ : Slice).len.toNat / twoPixels.swz.dbpp.toNat)
        ((⟨0x1000, 6⟩ : Slice).len.toNat / twoPixels.swz.sbpp.toNat) = 1 + 1
    ∧ ∃ t sb db, exec (.swzSwizzle ⟨0x1000, 3⟩ ⟨0, 0⟩ ⟨0x1000, 5⟩) twoPixels = .next t
        ∧ t.outbox = twoPixels.outbox ++ [0 :: wordsOf 1]
        ∧ t.mem.readBytes 0x1003 3 = some sb ∧ t.mem.readBytes 0x1003 3 = some db :=
  ⟨by decide, by decide, by decide, _, [4, 5, 6], [4, 5, 6], rfl, rfl, rfl, rfl⟩

theorem witness_SwizzleWritesOnlyItsPixels :
    ∃ t, exec (.swzSwizzle ⟨0x1000, 3⟩ ⟨0, 0⟩ ⟨0x1000, 5⟩) twoPixels = .next t := ⟨_, rfl⟩

/-- Two memories alike on the pixel's bytes and different next to them. -/
theorem witness_SwizzleReadsOnlyItsPixels :
    (⟨cellsAt 0x1000 [1, 2, 3, 4]⟩ : Memory).sameOn ⟨cellsAt 0x1000 [1, 2, 3, 5]⟩ 0x1000 (1 * 3)
    ∧ (⟨cellsAt 0x1000 [1, 2, 3, 4]⟩ : Memory) ≠ ⟨cellsAt 0x1000 [1, 2, 3, 5]⟩ := by decide

/-- Two memories alike on the source bytes, that hold different bytes at the destination. -/
theorem witness_SrcReadsNoDestinationByte :
    twoPixels.swz.state = .prepared ∧ twoPixels.swz.blend = .src ∧ sliceFits ⟨0x1003, 3⟩
    ∧ sliceFits ⟨0x1000, 3⟩
    ∧ (⟨cellsAt 0x1000 [1, 2, 3, 4, 5, 6]⟩ : Memory).sameOn ⟨cellsAt 0x1000 [1, 2, 3, 7, 8, 9]⟩ 0x1000 (1 * 3)
    ∧ (⟨cellsAt 0x1000 [1, 2, 3, 4, 5, 6]⟩ : Memory).backedAlike ⟨cellsAt 0x1000 [1, 2, 3, 7, 8, 9]⟩
        0x1003 (1 * 3) := by decide

/-- The source of pixel 0 is refused; and the destination of pixel 1, the last one, at its third byte. -/
theorem witness_RefusedAccessEndsTheSwizzle :
    (0 < 1 ∧ ¬ onePixel.mem.backed (0x2001 + 0 * 3) 3)
    ∧ (1 < 2 ∧ twoPixels.mem.backed 0x1000 (1 * 3) ∧ twoPixels.mem.backed 0x1001 (1 * 3)
        ∧ ¬ twoPixels.mem.backed (0x1001 + 1 * 3) 3 ∧ sliceFits ⟨0x1001, 6⟩ ∧ sliceFits ⟨0x1000, 6⟩) := by
  decide

/-- Under SRC, byte 2 of the destination of pixel 1 is the first refused one; and a state under SRC_OVER. -/
theorem witness_RefusedAccess_in_the_middle :
    twoPixels.swz.blend = .src ∧ 2 < twoPixels.swz.dbpp.toNat
    ∧ twoPixels.mem.backed (0x1001 + 1 * 3) 2 ∧ twoPixels.mem.read (0x1001 + 1 * 3 + 2) = none
    ∧ (ready 0x30000888 0x20000888 1 []).swz.blend = .srcOver
    ∧ ∃ t sb, exec (.swzSwizzle ⟨0x1001, 3⟩ ⟨0, 0⟩ ⟨0x1000, 3⟩) twoPixels = .next t
        ∧ t.mem.readBytes (0x1000 + 1 * 3) 3 = some sb :=
  ⟨by decide, by decide, by decide, by decide, by decide, _, [1, 5, 6], rfl, by decide⟩

theorem witness_NarrowUndoesWiden :
    (1 ≤ 1 ∧ 1 ≤ 8 ∧ 1 < 2 ^ 1) ∧ (1 ≤ 8 ∧ 8 ≤ 8 ∧ 255 < 2 ^ 8) ∧ 255 < 256 ∧ 127 < 128 ∧ 63 < 64 ∧ 31 < 32
    ∧ 15 < 16 ∧ 7 < 8 ∧ 3 < 4 ∧ 1 < 2 := by
  decide

theorem witness_UnpremulRoundsAndClamps : (1 : Byte) ≠ 0 ∧ (255 : Byte) ≠ 0 := by decide

theorem witness_OpaqueSrcOverIsSrc :
    alphaKind onePixel.swz.srcFmt = .opaqueKind ∧ onePixel.mem.backed 0x2000 (1 * 3)
    ∧ onePixel.mem.backed 0xFFFFFFFFFFFFFFFD (1 * 3) := by decide

/-- The same format twice, and BGR against RGB. -/
theorem witness_RoundTripKeepsThePixel :
    (directOk 0x20000565 = true ∧ pfTransp 0x20000565 ≠ 1 ∧ bpp 0x20000565 = 2
        ∧ ∀ k : Nat, k < 4 → chanDepth 0x20000565 k = chanDepth 0x20000565 k)
    ∧ (directOk 0x32008888 = true ∧ directOk 0x22008888 = true ∧ pfTransp 0x32008888 ≠ 1
        ∧ pfTransp 0x32008888 = pfTransp 0x22008888
        ∧ pfModel 0x32008888 ≠ 1 ∧ pfModel 0x22008888 ≠ 1 ∧ pfModel 0x32008888 ≠ pfModel 0x22008888
        ∧ chanDepth 0x32008888 0 = chanDepth 0x22008888 2 ∧ chanDepth 0x32008888 1 = chanDepth 0x22008888 1
        ∧ chanDepth 0x32008888 2 = chanDepth 0x22008888 0 ∧ chanDepth 0x32008888 3 = chanDepth 0x22008888 3
        ∧ ([1, 2, 3, 4] : List Byte).length = bpp 0x32008888) := by decide

/-- A Prepared state that keeps the invariant, with a command to run. -/
theorem witness_EveryStepKeepsTheInvariant :
    ({ onePixel with inbox := [.command [0x140, 7]] } : State).inv
    ∧ ∃ t, step { onePixel with inbox := [.command [0x140, 7]] } = .next t :=
  ⟨by decide, _, rfl⟩

/-- Unprepared states with different formats; Prepared states with different palettes and a direct source. -/
theorem witness_UnspecifiedRegistersAreNeverObserved :
    State.alike State.reset { State.reset with swz := { Swizzler.reset with srcFmt := 5 } }
    ∧ State.alike onePixel
        { onePixel with swz := { onePixel.swz with srcPal := Vector.replicate 1024 9 } } := by
  refine ⟨⟨rfl, rfl, rfl, rfl, nofun⟩, rfl, rfl, rfl, rfl, fun _ => ⟨rfl, rfl, rfl, rfl, rfl, ?_⟩⟩
  intro h
  exact absurd h (by decide)

theorem witness_OnlySwzCommandsChangeState :
    (∃ t, exec (.minW8 1 2) State.reset = .next t)
    ∧ (∀ df dp sf sp bl, Instr.minW8 1 2 ≠ .swzPrepare df dp sf sp bl)
    ∧ ∀ dst dp src, Instr.minW8 1 2 ≠ .swzSwizzle dst dp src :=
  ⟨⟨_, rfl⟩, nofun, nofun⟩

theorem witness_CommandsKeepTheBacking :
    ∃ t, exec (.swzSwizzle ⟨0x1000, 6⟩ ⟨0, 0⟩ ⟨0x1000, 6⟩) twoPixels = .next t := ⟨_, rfl⟩

end Sys2Proof.Tests
end

section
/-! The whole machine, step by step: what one command can do, what one step can do, and the proofs of the
statements about the step and about the whole machine (`10_state.md`). -/

namespace Sys2Proof.Machine

/-! ## What one command can do -/

/-- A meaning that only responds: one response of at least one word, the same at every state, and nothing else. -/
def RespondsOnly (f : State → Result) : Prop :=
  ∃ (status : Word) (results : List Word), ∀ s, f s = .next (s.emit (status :: results))

theorem respondsOnly_lowmask (w : Nat) (n : Word) : RespondsOnly (lowmask w n) := by
  by_cases h : n.toNat > w
  · exact ⟨_, _, fun s => by rw [lowmask_eq, if_pos h]⟩
  · exact ⟨_, _, fun s => by rw [lowmask_eq, if_neg h]⟩

/-- Every command but the two of the SWZ unit only responds (R11). -/
theorem exec_cases (i : Instr) :
    (∃ df dp sf sp bl, i = .swzPrepare df dp sf sp bl)
      ∨ (∃ dst dp src, i = .swzSwizzle dst dp src)
      ∨ RespondsOnly (exec i) := by
  cases i with
  | swzPrepare df dp sf sp bl => exact .inl ⟨df, dp, sf, sp, bl, rfl⟩
  | swzSwizzle dst dp src => exact .inr (.inl ⟨dst, dp, src, rfl⟩)
  | lowmaskW8 n => exact .inr (.inr (respondsOnly_lowmask 8 n))
  | lowmaskW16 n => exact .inr (.inr (respondsOnly_lowmask 16 n))
  | lowmaskW32 n => exact .inr (.inr (respondsOnly_lowmask 32 n))
  | lowmaskW64 n => exact .inr (.inr (respondsOnly_lowmask 64 n))
  | _ => exact .inr (.inr ⟨_, _, fun _ => rfl⟩)

/-- `SWZ.BLEND` loses nothing of a supported blend word (R201, R205). -/
theorem blendWord_blendOfWord {sf df bl : Word} (h : supported sf df bl = true) :
    blendWord (blendOfWord bl) = bl := by
  have hbl : bl = 0 ∨ bl = 1 := by
    simp only [supported, Bool.and_eq_true, Bool.or_eq_true, beq_iff_eq] at h
    obtain ⟨⟨⟨hbl, _⟩, _⟩, _⟩ := h
    exact hbl
  rcases hbl with rfl | rfl <;> decide

/-- A pixel of a direct format has at most 32 bits: four channels of at most 8 (R203). -/
theorem pixelBits_le_of_directOk {f : Word} (h : directOk f = true) : pixelBits f ≤ 32 := by
  simp only [directOk, Bool.and_eq_true] at h
  obtain ⟨⟨⟨⟨⟨_, h0⟩, h1⟩, h2⟩, h3⟩, _⟩ := h
  have hle {k : Nat} (hk : chanOk f k = true) : chanDepth f k ≤ 8 := by
    obtain ⟨he, hc⟩ := chanDepth_of_chanOk hk
    omega
  have := hle h0
  have := hle h1
  have := hle h2
  have := hle h3
  unfold pixelBits
  omega

/-- The bytes per pixel of an admitted format fit in the three bits of `SWZ.SBPP` and `SWZ.DBPP` (R14, R206). -/
theorem bpp_lt_of_srcOk {f : Word} (h : srcOk f = true) : bpp f < 2 ^ 3 := by
  unfold bpp
  split
  · decide
  · next hi =>
    have hd : directOk f = true := by simpa [srcOk, hi] using h
    have := pixelBits_le_of_directOk hd
    omega

/-- The registers that a successful PREPARE writes keep R16. -/
theorem preparedWith_ok {sf df bl : Word} (h : supported sf df bl = true) (pal : Palette) :
    (preparedWith sf df bl pal).ok := by
  have hsup := h
  simp only [supported, Bool.and_eq_true] at hsup
  obtain ⟨⟨⟨_, hdst⟩, hsrc⟩, _⟩ := hsup
  have hs := bpp_lt_of_srcOk hsrc
  have hd : bpp df < 2 ^ 3 := bpp_lt_of_srcOk (by simp [srcOk, hdst])
  intro _
  refine ⟨?_, ?_, ?_⟩
  · simpa [preparedWith, blendWord_blendOfWord h] using h
  · simp only [preparedWith, BitVec.toNat_ofNat, Nat.mod_eq_of_lt hs]
  · simp only [preparedWith, BitVec.toNat_ofNat, Nat.mod_eq_of_lt hd]

/-- All that a command can do to the state: one response of at least one word, the swizzler's registers only by
SWZ.PREPARE, memory only by SWZ.SWIZZLE, the host's moves never, and what R16 and R30 require is kept. -/
structure CommandEffect (i : Instr) (s t : State) : Prop where
  inbox : t.inbox = s.inbox
  outbox : ∃ (status : Word) (results : List Word), t.outbox = s.outbox ++ [status :: results]
  swz : (∀ df dp sf sp bl, i ≠ .swzPrepare df dp sf sp bl) → t.swz = s.swz
  mem : (∀ dst dp src, i ≠ .swzSwizzle dst dp src) → t.mem = s.mem
  inv : s.inv → t.inv

/-- A response alone is an effect any command may have. -/
theorem CommandEffect.emit (i : Instr) (s : State) (status : Word) (results : List Word) :
    CommandEffect i s (s.emit (status :: results)) :=
  ⟨rfl, ⟨_, _, rfl⟩, fun _ => rfl, fun _ => rfl, fun h => h⟩

theorem execSwzPrepare_effect (df : Word) (dp : Slice) (sf : Word) (sp : Slice) (bl : Word) (s : State) :
    ∃ t, execSwzPrepare df dp sf sp bl s = .next t ∧ CommandEffect (.swzPrepare df dp sf sp bl) s t := by
  rcases execSwzPrepare_cases df dp sf sp bl s with ⟨e, _, _, _, he⟩ | ⟨pal, hsup, he, _, _⟩
  · exact ⟨_, he, rfl, ⟨_, _, rfl⟩, fun h => absurd rfl (h df dp sf sp bl), fun _ => rfl,
      fun ⟨hm, _⟩ => ⟨hm, nofun⟩⟩
  · exact ⟨_, he, rfl, ⟨_, _, rfl⟩, fun h => absurd rfl (h df dp sf sp bl), fun _ => rfl,
      fun ⟨hm, _⟩ => ⟨hm, preparedWith_ok hsup pal⟩⟩

theorem execSwzSwizzle_effect (dst dp src : Slice) (s : State) :
    ∃ t, execSwzSwizzle dst dp src s = .next t ∧ CommandEffect (.swzSwizzle dst dp src) s t := by
  rcases execSwzSwizzle_cases dst dp src s with ⟨_, he⟩ | ⟨_, _, he⟩ | ⟨_, _, m, r, hr, he⟩
  · exact ⟨_, he, .emit ..⟩
  · exact ⟨_, he, .emit ..⟩
  · have hwf (h : s.mem.wf) : m.wf := by
      have := convertPixels_wf (z := s.swz) (dst := dst.ptr.toNat) (src := src.ptr.toNat)
        (n := pixelCount s.swz dst src) (i := 0) h
      rwa [hr] at this
    refine ⟨_, he, rfl, ?_, fun _ => rfl, fun h => absurd rfl (h dst dp src), fun ⟨hm, hz⟩ => ⟨hwf hm, hz⟩⟩
    cases r with
    | none => exact ⟨_, _, rfl⟩
    | some i => exact ⟨_, _, rfl⟩

/-- Every command answers a next state, with an effect that a command may have (R262, R265). -/
theorem exec_effect (i : Instr) (s : State) : ∃ t, exec i s = .next t ∧ CommandEffect i s t := by
  rcases exec_cases i with ⟨df, dp, sf, sp, bl, rfl⟩ | ⟨dst, dp, src, rfl⟩ | ⟨status, results, h⟩
  · exact execSwzPrepare_effect df dp sf sp bl s
  · exact execSwzSwizzle_effect dst dp src s
  · exact ⟨_, h s, .emit ..⟩

/-- The effect of a command that is known to have answered `t`. -/
theorem effect_of_exec {i : Instr} {s t : State} (h : exec i s = .next t) : CommandEffect i s t := by
  obtain ⟨t', ht', heff⟩ := exec_effect i s
  obtain rfl : t' = t := by simpa [ht'] using h
  exact heff

/-! ## What one step can do -/

/-- A step is one of five: idle, the host's change of a byte, the host's reset, a command, an illegal packet. -/
theorem step_cases (s : State) :
    (s.inbox = [] ∧ step s = .next s)
      ∨ (∃ a b rest, s.inbox = .setMem a b :: rest
          ∧ step s = .next ((s.setInbox rest).setMemory (s.mem.hostSet a.toNat b)))
      ∨ (∃ rest, s.inbox = .reset :: rest ∧ step s = .next (s.setInbox rest).unprepare)
      ∨ ∃ p rest, s.inbox = .command p :: rest
          ∧ ((∃ i, step s = exec i (s.setInbox rest))
            ∨ step s = .next ((s.setInbox rest).emit [0x81000000#32])) := by
  cases hin : s.inbox with
  | nil => exact .inl ⟨rfl, step_idle hin⟩
  | cons move rest =>
    cases move with
    | setMem a b => exact .inr (.inl ⟨a, b, rest, rfl, step_setMem hin⟩)
    | reset => exact .inr (.inr (.inl ⟨rest, rfl, step_reset hin⟩))
    | command p =>
      refine .inr (.inr (.inr ⟨p, rest, rfl, ?_⟩))
      cases hd : decode p with
      | ok i => exact .inl ⟨i, step_decoded hin hd⟩
      | error e => exact .inr (step_illegal hin hd)

/-- Every step keeps the invariant: an idle step and an illegal packet leave memory and registers as they are, the host's
moves keep the canonical form or leave the swizzler Unprepared, and a command is covered by its effect. -/
theorem step_inv {s t : State} (hinv : s.inv) (h : step s = .next t) : t.inv := by
  rcases step_cases s with ⟨_, he⟩ | ⟨a, b, rest, _, he⟩ | ⟨rest, _, he⟩ | ⟨p, rest, _, ⟨i, he⟩ | he⟩ <;>
    rw [he] at h
  case inl => cases h; exact hinv
  case inr.inl => cases h; exact ⟨Memory.hostSet_wf b a.isLt hinv.1, hinv.2⟩
  case inr.inr.inl => cases h; exact ⟨hinv.1, nofun⟩
  case inr.inr.inr.inl => exact (effect_of_exec h).inv hinv
  case inr.inr.inr.inr => cases h; exact hinv

/-- A step on a command packet takes the packet and emits one response of at least one word (R10, R295). -/
theorem step_command {s : State} {p : Packet} {rest : List HostEvent} (h : s.inbox = .command p :: rest) :
    ∃ (t : State) (status : Word) (results : List Word),
      step s = .next t ∧ t.inbox = rest ∧ t.outbox = s.outbox ++ [status :: results] := by
  cases hd : decode p with
  | ok i =>
    obtain ⟨t, ht, heff⟩ := exec_effect i (s.setInbox rest)
    obtain ⟨status, results, hout⟩ := heff.outbox
    exact ⟨t, status, results, (step_decoded h hd).trans ht, heff.inbox, hout⟩
  | error e => exact ⟨_, _, _, step_illegal h hd, rfl, rfl⟩

/-- A step on anything else emits nothing and takes at most the oldest move (R263). -/
theorem step_no_command {s t : State} (hn : ∀ p rest, s.inbox ≠ .command p :: rest) (h : step s = .next t) :
    t.outbox = s.outbox ∧ t.inbox = s.inbox.tail := by
  rcases step_cases s with ⟨hin, he⟩ | ⟨a, b, rest, hin, he⟩ | ⟨rest, hin, he⟩ | ⟨p, rest, hin, _⟩
  case inr.inr.inr => exact absurd hin (hn p rest)
  all_goals
    rw [he] at h
    cases h
    simp [hin]

/-! ## What no step observes -/

/-- Two answers are next states that no command sequence can tell apart. -/
def AnswerAlike (a b : Result) : Prop := ∃ s' t' : State, a = .next s' ∧ b = .next t' ∧ s'.alike t'

theorem State.alike.mem_eq {s t : State} (h : s.alike t) : s.mem = t.mem := h.1

theorem State.alike.inbox_eq {s t : State} (h : s.alike t) : s.inbox = t.inbox := h.2.1

theorem State.alike.state_eq {s t : State} (h : s.alike t) : s.swz.state = t.swz.state := by
  obtain ⟨_, _, _, hstate, _⟩ := h
  exact hstate

/-- The registers with another palette. -/
def Swizzler.setSrcPal (z : Swizzler) (pal : Palette) : Swizzler := { z with srcPal := pal }

theorem sourcePixel_setSrcPal {z : Swizzler} (h : isIndexed z.srcFmt = false) (pal : Palette)
    (bytes : List Byte) : sourcePixel (z.setSrcPal pal) bytes = sourcePixel z bytes := by
  simp [sourcePixel, Swizzler.setSrcPal, h]

/-- A source that is not indexed is converted without a look at the palette (R14, R213). -/
theorem convertPixel_setSrcPal {z : Swizzler} (h : isIndexed z.srcFmt = false) (pal : Palette)
    (dst src i : Nat) (m : Memory) :
    convertPixel (z.setSrcPal pal) dst src i m = convertPixel z dst src i m := by
  unfold convertPixel
  simp only [sourcePixel_setSrcPal h]
  rfl

theorem convertPixels_setSrcPal {z : Swizzler} (h : isIndexed z.srcFmt = false) (pal : Palette)
    (dst src n i : Nat) (m : Memory) :
    convertPixels (z.setSrcPal pal) dst src n i m = convertPixels z dst src n i m := by
  induction n generalizing i m with
  | zero => rfl
  | succ n ih => simp only [convertPixels_succ, convertPixel_setSrcPal h, ih]

/-- Alike Prepared swizzlers have the same registers, but for a palette that the source format does not use. -/
theorem State.alike.swz_eq {s t : State} (h : s.alike t) (hp : s.swz.state = .prepared) :
    t.swz = s.swz.setSrcPal t.swz.srcPal
      ∧ (isIndexed s.swz.srcFmt = true → t.swz = s.swz) := by
  obtain ⟨_, _, _, hstate, hregs⟩ := h
  obtain ⟨hsf, hdf, hb, hsb, hdb, hpal⟩ := hregs hp
  obtain ⟨swz, mem, inbox, outbox, draws⟩ := s
  obtain ⟨swz', mem', inbox', outbox', draws'⟩ := t
  cases swz
  cases swz'
  simp_all [Swizzler.setSrcPal]

/-- A SWIZZLE of alike Prepared states converts the same pixels to the same memory. -/
theorem State.alike.convertPixels_eq {s t : State} (h : s.alike t) (hp : s.swz.state = .prepared)
    (dst src n i : Nat) (m : Memory) :
    convertPixels t.swz dst src n i m = convertPixels s.swz dst src n i m := by
  obtain ⟨hz, hidx⟩ := h.swz_eq hp
  cases hi : isIndexed s.swz.srcFmt with
  | true => rw [hidx hi]
  | false => rw [hz, convertPixels_setSrcPal hi]

theorem State.alike.pixelCount_eq {s t : State} (h : s.alike t) (hp : s.swz.state = .prepared)
    (dst src : Slice) : pixelCount t.swz dst src = pixelCount s.swz dst src := by
  rw [(h.swz_eq hp).1]
  rfl

/-! Updates that keep states alike. -/

theorem State.alike.emit {s t : State} (h : s.alike t) (p : Packet) : (s.emit p).alike (t.emit p) := by
  obtain ⟨hm, hin, hout, hz⟩ := h
  exact ⟨hm, hin, by simp [hout], hz⟩

theorem State.alike.setInbox {s t : State} (h : s.alike t) (q : List HostEvent) :
    (s.setInbox q).alike (t.setInbox q) := by
  obtain ⟨hm, _, hout, hz⟩ := h
  exact ⟨hm, rfl, hout, hz⟩

theorem State.alike.setMemory {s t : State} (h : s.alike t) (m : Memory) :
    (s.setMemory m).alike (t.setMemory m) := by
  obtain ⟨_, hin, hout, hz⟩ := h
  exact ⟨rfl, hin, hout, hz⟩

/-- Free values are not observed: the swizzler is Unprepared beside them (R208, R290). -/
theorem State.alike.unprepare {s t : State} (h : s.alike t) : s.unprepare.alike t.unprepare := by
  obtain ⟨hm, hin, hout, _⟩ := h
  exact ⟨hm, hin, hout, rfl, nofun⟩

/-- A PREPARE makes alike states Prepared alike: the palettes differ only where the source is not indexed. -/
theorem State.alike.setSwz_preparedWith {s t : State} (h : s.alike t) {sf df bl : Word} {pal pal' : Palette}
    (hpal : isIndexed sf = true → pal = pal') :
    (s.setSwz (preparedWith sf df bl pal)).alike (t.setSwz (preparedWith sf df bl pal')) := by
  obtain ⟨hm, hin, hout, _⟩ := h
  exact ⟨hm, hin, hout, rfl, fun _ => ⟨rfl, rfl, rfl, rfl, rfl, hpal⟩⟩

theorem answerAlike_next {s t : State} (h : s.alike t) : AnswerAlike (.next s) (.next t) :=
  ⟨s, t, rfl, rfl, h⟩

/-! The commands and the step on alike states. -/

/-- PREPARE decides by its operands and by memory alone, and writes every register that its Prepared state uses. -/
theorem execSwzPrepare_alike {s t : State} (h : s.alike t) (df : Word) (dp : Slice) (sf : Word) (sp : Slice)
    (bl : Word) : AnswerAlike (execSwzPrepare df dp sf sp bl s) (execSwzPrepare df dp sf sp bl t) := by
  have hfail (e : Status) : AnswerAlike (failPrepare e s) (failPrepare e t) :=
    answerAlike_next (h.unprepare.emit _)
  unfold execSwzPrepare
  rw [h.mem_eq]
  split
  · exact hfail _
  split
  · exact hfail _
  split
  · exact hfail _
  split
  · split
    · exact hfail _
    · cases t.mem.readBytes sp.ptr.toNat params.paletteBytes with
      | none => exact hfail _
      | some bytes => exact answerAlike_next ((h.setSwz_preparedWith fun _ => rfl).emit _)
  · next hi => exact answerAlike_next ((h.setSwz_preparedWith fun hx => absurd hx hi).emit _)

theorem execSwzSwizzle_alike {s t : State} (h : s.alike t) (dst dp src : Slice) :
    AnswerAlike (execSwzSwizzle dst dp src s) (execSwzSwizzle dst dp src t) := by
  have hfail (e : Status) : AnswerAlike (fail e 2 s) (fail e 2 t) := answerAlike_next (h.emit _)
  unfold execSwzSwizzle
  cases hp : s.swz.state with
  | unprepared => simpa only [← h.state_eq, hp] using hfail .notPrepared
  | prepared =>
    simp only [← h.state_eq, hp, ← h.mem_eq, h.convertPixels_eq hp, h.pixelCount_eq hp]
    split
    · exact hfail _
    · rcases convertPixels s.swz dst.ptr.toNat src.ptr.toNat (pixelCount s.swz dst src) 0 s.mem
        with ⟨m, _ | i⟩
      · exact answerAlike_next ((h.setMemory m).emit _)
      · exact answerAlike_next ((h.setMemory m).emit _)

theorem exec_alike {s t : State} (h : s.alike t) (i : Instr) : AnswerAlike (exec i s) (exec i t) := by
  rcases exec_cases i with ⟨df, dp, sf, sp, bl, rfl⟩ | ⟨dst, dp, src, rfl⟩ | ⟨status, results, he⟩
  · exact execSwzPrepare_alike h df dp sf sp bl
  · exact execSwzSwizzle_alike h dst dp src
  · rw [he s, he t]
    exact answerAlike_next (h.emit _)

/-- Alike states have the same moves waiting and so make the same step. -/
theorem step_alike {s t : State} (h : s.alike t) : AnswerAlike (step s) (step t) := by
  have hin := h.inbox_eq
  cases hs : s.inbox with
  | nil =>
    rw [step_idle hs, step_idle (hin.symm.trans hs)]
    exact answerAlike_next h
  | cons move rest =>
    have ht : t.inbox = move :: rest := hin.symm.trans hs
    have hrest := h.setInbox rest
    cases move with
    | setMem a b =>
      rw [step_setMem hs, step_setMem ht, hostSetMem_eq, hostSetMem_eq, State.setInbox_mem,
        State.setInbox_mem, h.mem_eq]
      exact answerAlike_next (hrest.setMemory _)
    | reset =>
      rw [step_reset hs, step_reset ht]
      exact answerAlike_next hrest.unprepare
    | command p =>
      cases hd : decode p with
      | ok i =>
        rw [step_decoded hs hd, step_decoded ht hd]
        exact exec_alike hrest i
      | error e =>
        rw [step_illegal hs hd, step_illegal ht hd]
        exact answerAlike_next (hrest.emit _)

/-! ## The statements -/

/-- Settles O56, from the one inversion lemma of the step and the effect of a command. -/
theorem everyStepKeepsTheInvariant : Obligations.EveryStepKeepsTheInvariant :=
  fun _ _ => step_inv

/-- Settles O58: the two states make the same step, and each update a step is made of keeps states alike. -/
theorem unspecifiedRegistersAreNeverObserved : Obligations.UnspecifiedRegistersAreNeverObserved :=
  fun _ _ => step_alike

/-- Settles O9, from the law of the host's change of one byte. -/
theorem hostSetsOneByte : Obligations.HostSetsOneByte := by
  intro s a b rest h
  have hread (x : Nat) := Memory.read_hostSet s.mem a.toNat b x
  exact ⟨s.mem.hostSet a.toNat b, step_setMem h, by rw [hread, if_pos rfl],
    fun x hx => by rw [hread, if_neg hx]⟩

/-- Settles O12: a command packet by the effect of its command, every other step by its case. -/
theorem oneResponsePerCommand : Obligations.OneResponsePerCommand :=
  ⟨fun _ _ _ => step_command, fun _ _ => step_no_command⟩

/-- Settles O59, by the effect of the command. -/
theorem onlySwzCommandsChangeState : Obligations.OnlySwzCommandsChangeState := by
  intro i s t h
  have heff := effect_of_exec h
  obtain ⟨status, results, hout⟩ := heff.outbox
  exact ⟨heff.swz, heff.mem, heff.inbox, status :: results, hout⟩

/-- Settles O7. -/
theorem stepRunsTheDecodedCommand : Obligations.StepRunsTheDecodedCommand :=
  fun _ _ _ _ => step_decoded

/-- Settles O8. -/
theorem idleStepChangesNothing : Obligations.IdleStepChangesNothing :=
  fun _ => step_idle

/-- Settles O10: the registers after a reset move are free values beside an Unprepared state. -/
theorem resetLeavesUnprepared : Obligations.ResetLeavesUnprepared :=
  ⟨⟨rfl, rfl, rfl⟩, fun s _ h => ⟨unspecified s.draws, s.draws + 1, rfl, step_reset h⟩⟩

/-- Settles O57: nothing is backed at reset, and an Unprepared swizzler keeps R16. -/
theorem resetKeepsTheInvariant : Obligations.ResetKeepsTheInvariant :=
  ⟨reset_mem_wf, nofun⟩

end Sys2Proof.Machine
end

section
/-! The memory port (`20_memory.md`): no command changes what is backed, and what a SWZ.SWIZZLE leaves when the port
refuses an access of it (R43, R225). -/

namespace Sys2Proof.Machine

/-- The arm of the command. -/
theorem exec_swzSwizzle (dst dp src : Slice) (s : State) :
    exec (.swzSwizzle dst dp src) s = execSwzSwizzle dst dp src s := rfl

/-! ## A run of pixels on backed bytes, and the refused pixel after it -/

section Run
variable {z : Swizzler} {dst src : Nat} {i : Nat} {m m' : Memory}

/-- A run over backed source and destination bytes is converted whole. -/
theorem convertPixels_of_backed (hs : m.backed src (i * z.sbpp.toNat)) (hd : m.backed dst (i * z.dbpp.toNat)) :
    ∃ m', convertPixels z dst src i 0 m = (m', none) := by
  have hnone : (convertPixels z dst src i 0 m).2 = none := by
    rw [convertPixels_none_iff]
    intro k _ hk
    rw [Nat.zero_add] at hk
    exact ⟨(backed_pixels_iff ..).mp hs k hk, (backed_pixels_iff ..).mp hd k hk⟩
  exact ⟨_, Prod.ext rfl hnone⟩

/-- What a run leaves is backed where it was before. -/
theorem isSome_read_of_run {n : Nat} {r : Option Nat} (h : convertPixels z dst src n i m = (m', r)) (x : Nat) :
    (m'.read x).isSome = (m.read x).isSome := by
  have hkeep := convertPixels_isSome z dst src n i m x
  rwa [h] at hkeep

/-- A run from pixel 0 writes only the destination bytes of its pixels. -/
theorem read_of_run_outside {n : Nat} {r : Option Nat} (h : convertPixels z dst src n 0 m = (m', r)) {x : Nat}
    (hx : x < dst ∨ dstAddr z dst n ≤ x) : m'.read x = m.read x := by
  have hout := convertPixels_outside z dst src n 0 m x
  rw [h, Nat.zero_add] at hout
  exact hout (by simpa [dstAddr] using hx)

/-- After `i` whole pixels, a refused access of pixel `i` ends the run there, with what the attempt at pixel `i`
leaves. -/
theorem convertPixels_of_refused {n : Nat} (hi : i < n) (h : convertPixels z dst src i 0 m = (m', none))
    (hf : ¬ (m'.backed (srcAddr z src i) z.sbpp.toNat ∧ m'.backed (dstAddr z dst i) z.dbpp.toNat)) :
    convertPixels z dst src n 0 m = ((convertPixel z dst src i m').1, some i) := by
  obtain ⟨k, rfl⟩ : ∃ k, n = i + (k + 1) := ⟨n - i - 1, by omega⟩
  rw [← convertPixel_ok] at hf
  rw [convertPixels_append (k + 1) h, convertPixels_succ, Nat.zero_add, if_neg hf]

/-- A pixel whose source is refused stores nothing: its bytes are read first (R212). -/
theorem convertPixel_of_source_refused (hs : ¬ m.backed (srcAddr z src i) z.sbpp.toNat) :
    convertPixel z dst src i m = (m, false) := by
  rw [← Memory.readBytes_isSome, Option.not_isSome_iff_eq_none] at hs
  unfold convertPixel
  rw [hs]

/-- Under SRC_OVER a pixel whose destination is refused stores nothing: its bytes are read before they are written
(R220). -/
theorem convertPixel_of_over_refused (hb : z.blend = .srcOver)
    (hd : ¬ m.backed (dstAddr z dst i) z.dbpp.toNat) :
    convertPixel z dst src i m = (m, false) := by
  rw [← Memory.readBytes_isSome, Option.not_isSome_iff_eq_none] at hd
  unfold convertPixel
  cases hs : m.readBytes (srcAddr z src i) z.sbpp.toNat with
  | none => rfl
  | some sb => simp only [hb, hd]

/-- Of a pixel that is refused, nothing is stored where its source is refused or under SRC_OVER. -/
theorem convertPixel_stores_nothing
    (hf : ¬ m.backed (srcAddr z src i) z.sbpp.toNat ∨ ¬ m.backed (dstAddr z dst i) z.dbpp.toNat)
    (h : ¬ m.backed (srcAddr z src i) z.sbpp.toNat ∨ z.blend = .srcOver) :
    (convertPixel z dst src i m).1 = m := by
  by_cases hs : m.backed (srcAddr z src i) z.sbpp.toNat
  · rw [convertPixel_of_over_refused (h.resolve_left (not_not_intro hs)) (hf.resolve_left (not_not_intro hs))]
  · rw [convertPixel_of_source_refused hs]

/-- Under SRC, a pixel whose source was read and whose destination is first refused at byte `j` is stored up to that
byte (R43). -/
theorem read_convertPixel_stopped {sb : List Byte} {j : Nat} (hb : z.blend = .src)
    (hs : m.readBytes (srcAddr z src i) z.sbpp.toNat = some sb) (hj : j < z.dbpp.toNat)
    (hbk : m.backed (dstAddr z dst i) j) (hn : m.read (dstAddr z dst i + j) = none) :
    (∀ l, l < j →
        (convertPixel z dst src i m).1.read (dstAddr z dst i + l) = some ((converted z sb []).getD l 0))
      ∧ ∀ l, j ≤ l →
        (convertPixel z dst src i m).1.read (dstAddr z dst i + l) = m.read (dstAddr z dst i + l) := by
  rw [convertPixel_src hb hs []]
  exact Memory.read_writeBytes_stopped (by rwa [length_converted]) hbk hn

end Run

/-! ## The backing -/

theorem exec_swzSwizzle_isSome {dst dp src : Slice} {s t : State} (h : exec (.swzSwizzle dst dp src) s = .next t)
    (x : Nat) : (t.mem.read x).isSome = (s.mem.read x).isSome := by
  rcases execSwzSwizzle_cases dst dp src s with ⟨_, he⟩ | ⟨_, _, he⟩ | ⟨_, _, m, r, hr, he⟩ <;>
    rw [exec_swzSwizzle, he] at h
  case inl => cases h; rfl
  case inr.inl => cases h; rfl
  case inr.inr =>
    cases h
    exact isSome_read_of_run hr x

/-! ## The number of pixels -/

theorem pixelCount_lt (z : Swizzler) (dst src : Slice) : pixelCount z dst src < 2 ^ 64 :=
  calc pixelCount z dst src ≤ dst.len.toNat / z.dbpp.toNat := Nat.min_le_left ..
    _ ≤ dst.len.toNat := Nat.div_le_self ..
    _ < 2 ^ 64 := dst.len.isLt

/-- The slice of the first `i` pixels of `w` bytes each of a slice. -/
def firstPixels (s : Slice) (i w : Nat) : Slice := ⟨s.ptr, BitVec.ofNat 64 (i * w)⟩

@[simp] theorem firstPixels_ptr (s : Slice) (i w : Nat) : (firstPixels s i w).ptr = s.ptr := rfl

/-- The first pixels of a slice that holds more of them have their own number of bytes, which is no more than the
slice's, and that number holds `i` pixels. -/
theorem firstPixels_len {s : Slice} {i w : Nat} (h : i < s.len.toNat / w) :
    (firstPixels s i w).len.toNat = i * w ∧ i * w ≤ s.len.toNat ∧ i * w / w = i := by
  have hw : 0 < w := Nat.pos_of_ne_zero fun hw => by simp [hw] at h
  have hle : i * w ≤ s.len.toNat := (Nat.le_div_iff_mul_le hw).mp h.le
  have hlt : i * w < 2 ^ 64 := hle.trans_lt s.len.isLt
  exact ⟨(BitVec.toNat_ofNat ..).trans (Nat.mod_eq_of_lt hlt), hle, Nat.mul_div_cancel i hw⟩

theorem sliceFits_firstPixels {s : Slice} {i w : Nat} (h : i < s.len.toNat / w) (hs : sliceFits s) :
    sliceFits (firstPixels s i w) := by
  obtain ⟨hlen, hle, _⟩ := firstPixels_len h
  simp only [sliceFits, firstPixels_ptr, hlen] at hs ⊢
  omega

theorem pixelCount_firstPixels {z : Swizzler} {dst src : Slice} {i : Nat} (h : i < pixelCount z dst src) :
    pixelCount z (firstPixels dst i z.dbpp.toNat) (firstPixels src i z.sbpp.toNat) = i := by
  obtain ⟨hd, hs⟩ := lt_min_iff.mp h
  obtain ⟨hdlen, _, hdi⟩ := firstPixels_len hd
  obtain ⟨hslen, _, hsi⟩ := firstPixels_len hs
  simp only [pixelCount, hdlen, hslen, hdi, hsi, Nat.min_self]

/-! ## The answer of a SWZ.SWIZZLE, from its run of pixels -/

section Answer
variable {s : State} {dst dp src : Slice} {m : Memory}

/-- The response of a SWZ.SWIZZLE of `n` pixels, from the pixel at which its run was refused, if one was (R209,
R225). -/
def runResponse (n : Nat) : Option Nat → Packet
  | none => 0x00000000#32 :: packCount n
  | some i => 0x86000000#32 :: packCount i

/-- A Prepared SWZ.SWIZZLE on slices that fit runs over its pixels. -/
theorem exec_swzSwizzle_of_run {r : Option Nat} (hp : s.swz.state = .prepared) (hd : sliceFits dst)
    (hs : sliceFits src)
    (hr : convertPixels s.swz dst.ptr.toNat src.ptr.toNat (pixelCount s.swz dst src) 0 s.mem = (m, r)) :
    exec (.swzSwizzle dst dp src) s =
      .next ((s.setMemory m).emit (runResponse (pixelCount s.swz dst src) r)) := by
  rcases execSwzSwizzle_cases dst dp src s with ⟨hu, _⟩ | ⟨_, hw, _⟩ | ⟨_, _, m', r', hr', he⟩
  · simp [hp] at hu
  · simp [(sliceWraps_eq_false dst).mpr hd, (sliceWraps_eq_false src).mpr hs] at hw
  · obtain ⟨rfl, rfl⟩ := Prod.mk.inj (hr'.symm.trans hr)
    cases r' with
    | none => exact he
    | some i => exact he

/-- A run in which no access is refused: OK and the number of pixels (R209, R224). -/
theorem exec_swzSwizzle_completes (hp : s.swz.state = .prepared) (hd : sliceFits dst) (hs : sliceFits src)
    (hr : convertPixels s.swz dst.ptr.toNat src.ptr.toNat (pixelCount s.swz dst src) 0 s.mem = (m, none)) :
    exec (.swzSwizzle dst dp src) s =
      .next { s with mem := m, outbox := s.outbox ++ [0 :: wordsOf (pixelCount s.swz dst src)] } := by
  rw [exec_swzSwizzle_of_run hp hd hs hr, ← packCount_eq (pixelCount_lt s.swz dst src)]
  rfl

/-- A run that ends at a refused access of pixel `i`: ERR_MEM_FAULT and `i` (R225). -/
theorem exec_swzSwizzle_faults {i : Nat} (hp : s.swz.state = .prepared) (hd : sliceFits dst) (hs : sliceFits src)
    (hi : i < pixelCount s.swz dst src)
    (hr : convertPixels s.swz dst.ptr.toNat src.ptr.toNat (pixelCount s.swz dst src) 0 s.mem = (m, some i)) :
    exec (.swzSwizzle dst dp src) s =
      .next { s with mem := m, outbox := s.outbox ++ [0x86000000 :: wordsOf i] } := by
  rw [exec_swzSwizzle_of_run hp hd hs hr, ← packCount_eq (hi.trans (pixelCount_lt s.swz dst src))]
  rfl

end Answer

/-! ## The statements -/

/-- Settles O60: every command but SWZ.SWIZZLE keeps the memory itself, and a SWZ.SWIZZLE writes backed bytes only. -/
theorem commandsKeepTheBacking : Obligations.CommandsKeepTheBacking := by
  intro i s t h x
  by_cases hi : ∃ dst dp src, i = .swzSwizzle dst dp src
  · obtain ⟨dst, dp, src, rfl⟩ := hi
    exact exec_swzSwizzle_isSome h x
  · have hmem : t.mem = s.mem :=
      (effect_of_exec h).mem fun dst dp src he => hi ⟨dst, dp, src, he⟩
    rw [hmem]

/-- Settles O50: the run of the first `i` pixels is whole, and the command ends with what the attempt at pixel `i`
leaves. -/
theorem refusedAccessEndsTheSwizzle : Obligations.RefusedAccessEndsTheSwizzle := by
  intro s dst dp src i n sw dw srcI dstI hp hd hs hi hsb hdb hf
  obtain ⟨hid, his⟩ := lt_min_iff.mp hi
  obtain ⟨m', hrun⟩ := convertPixels_of_backed (z := s.swz) hsb hdb
  have hkeep := Memory.backed_congr (isSome_read_of_run hrun)
  have hf' : ¬ m'.backed srcI sw ∨ ¬ m'.backed dstI dw := by rwa [hkeep, hkeep]
  have hstop := convertPixels_of_refused hi hrun (not_and_or.mpr hf')
  have hcount : pixelCount s.swz (firstPixels dst i dw) (firstPixels src i sw) = i :=
    pixelCount_firstPixels hi
  have hwhole := exec_swzSwizzle_completes (dp := dp) hp (sliceFits_firstPixels hid hd)
    (sliceFits_firstPixels his hs) (by rw [hcount]; exact hrun)
  rw [hcount] at hwhole
  have hpixel := convertPixel_outside s.swz dst.ptr.toNat src.ptr.toNat i m'
  refine ⟨_, m', exec_swzSwizzle_faults hp hd hs hi hstop, hwhole, hpixel, fun x hx => ?_, fun hno x => ?_,
    fun sb j hb hread hj hbk hn => ?_⟩
  · have hbelow : dst.ptr.toNat ≤ dstI := Nat.le_add_right ..
    have habove : dstI ≤ dstI + dw := Nat.le_add_right ..
    rw [hpixel x (hx.imp_left hbelow.trans_lt'), read_of_run_outside hrun (hx.imp_right habove.trans)]
  · rw [← hkeep] at hno
    rw [convertPixel_stores_nothing hf' hno]
  · have hnone : m'.read (dstI + j) = none := by
      simpa [hn] using isSome_read_of_run hrun (dstI + j)
    obtain ⟨hlow, hhigh⟩ := read_convertPixel_stopped hb hread hj ((hkeep _ _).mpr hbk) hnone
    exact ⟨hlow, fun l hl _ => hhigh l hl⟩

end Sys2Proof.Machine
end

section
/-! The encoding (`30_encoding.md`): the decoder and the encoder are inverse to each other, the legal packets are those
that decode, and a response has the length the opcode map gives its command. -/

namespace Sys2Proof

/-! ## Decoding what was encoded -/

/-- How a packet decodes whose header and length have a row and whose operand words the row reads. -/
theorem decode_of_row {h : Word} {ops : List Word} {r : Row} {i : Instr} (hr : findRow h = some r)
    (hl : ops.length + 1 = r.cmdWords) (hm : r.make h ops = some i) : decode (h :: ops) = .ok i := by
  simp only [decode, hr, List.length_cons, hl, if_true, hm]

/-! Each reader of 64-bit operands gets them back from their words. -/

section Readers
variable (h : Word)

theorem one64_words (f : BitVec 64 → Instr) (x : BitVec 64) :
    one64 f h [lo32 x, hi32 x] = some (f x) := by
  simp only [one64, join_lo32_hi32]

theorem two64_words (f : BitVec 64 → BitVec 64 → Instr) (x y : BitVec 64) :
    two64 f h [lo32 x, hi32 x, lo32 y, hi32 y] = some (f x y) := by
  simp only [two64, join_lo32_hi32]

theorem range64_words (f : Range 64 → Instr) (r : Range 64) :
    range64 f h [lo32 r.lo, hi32 r.lo, lo32 r.hi, hi32 r.hi] = some (f r) := by
  simp only [range64, join_lo32_hi32]

theorem ranges64_words (f : Range 64 → Range 64 → Instr) (r t : Range 64) :
    ranges64 f h [lo32 r.lo, hi32 r.lo, lo32 r.hi, hi32 r.hi, lo32 t.lo, hi32 t.lo, lo32 t.hi, hi32 t.hi]
      = some (f r t) := by
  simp only [ranges64, join_lo32_hi32]

theorem rangePoint64_words (f : Range 64 → BitVec 64 → Instr) (r : Range 64) (p : BitVec 64) :
    rangePoint64 f h [lo32 r.lo, hi32 r.lo, lo32 r.hi, hi32 r.hi, lo32 p, hi32 p] = some (f r p) := by
  simp only [rangePoint64, join_lo32_hi32]

theorem prepare_words (df : Word) (dp : Slice) (sf : Word) (sp : Slice) (bl : Word) :
    prepare h [df, lo32 dp.ptr, hi32 dp.ptr, lo32 dp.len, hi32 dp.len, sf, lo32 sp.ptr, hi32 sp.ptr,
      lo32 sp.len, hi32 sp.len, bl] = some (.swzPrepare df dp sf sp bl) := by
  simp only [prepare, join_lo32_hi32]

theorem swizzle_words (d p t : Slice) :
    swizzle h [lo32 d.ptr, hi32 d.ptr, lo32 d.len, hi32 d.len, lo32 p.ptr, hi32 p.ptr, lo32 p.len, hi32 p.len,
      lo32 t.ptr, hi32 t.ptr, lo32 t.len, hi32 t.len] = some (.swzSwizzle d p t) := by
  simp only [swizzle, join_lo32_hi32]

end Readers

/-- The four channel indices of `pxf.depth`, each in its own header (R51). -/
theorem aux_cases {aux : BitVec 4} (h : aux.toNat < 4) : aux = 0 ∨ aux = 1 ∨ aux = 2 ∨ aux = 3 := by
  bv_omega

/-- A command is read back from its own words: operand words of 32 bits stand as they are, 64-bit operands are put
together again from their halves, and the channel index from the header. -/
theorem decode_encode (i : Instr) (hi : i.wf = true) : decode (encode i) = .ok i := by
  cases i with
  | minW64 x y => exact decode_of_row rfl rfl (two64_words 0x103 _ x y)
  | maxW64 x y => exact decode_of_row rfl rfl (two64_words 0x113 _ x y)
  | saddW64 x y => exact decode_of_row rfl rfl (two64_words 0x123 _ x y)
  | ssubW64 x y => exact decode_of_row rfl rfl (two64_words 0x133 _ x y)
  | bswapW64 x => exact decode_of_row rfl rfl (one64_words 0x143 _ x)
  | rngIsemptyIi64 r => exact decode_of_row rfl rfl (range64_words 0x203 _ r)
  | rngIsemptyIe64 r => exact decode_of_row rfl rfl (range64_words 0x207 _ r)
  | rngEqualsIi64 r t => exact decode_of_row rfl rfl (ranges64_words 0x213 _ r t)
  | rngEqualsIe64 r t => exact decode_of_row rfl rfl (ranges64_words 0x217 _ r t)
  | rngContainsIi64 r p => exact decode_of_row rfl rfl (rangePoint64_words 0x223 _ r p)
  | rngContainsIe64 r p => exact decode_of_row rfl rfl (rangePoint64_words 0x227 _ r p)
  | rngIsectIi64 r t => exact decode_of_row rfl rfl (ranges64_words 0x233 _ r t)
  | rngIsectIe64 r t => exact decode_of_row rfl rfl (ranges64_words 0x237 _ r t)
  | rngUnionIi64 r t => exact decode_of_row rfl rfl (ranges64_words 0x243 _ r t)
  | rngUnionIe64 r t => exact decode_of_row rfl rfl (ranges64_words 0x247 _ r t)
  | rngLengthIe64 r => exact decode_of_row rfl rfl (range64_words 0x257 _ r)
  | swzPrepare df dp sf sp bl => exact decode_of_row rfl rfl (prepare_words 0x500 df dp sf sp bl)
  | swzSwizzle d p t => exact decode_of_row rfl rfl (swizzle_words 0x510 d p t)
  | pxfDepth aux f =>
    rcases aux_cases (by simpa [Instr.wf] using hi) with rfl | rfl | rfl | rfl <;> rfl
  | _ => rfl

/-! ## Encoding what was decoded -/

/-- What the decoder takes of a row: every list of operand words of the length the row gives, and only as the words of
a command whose encoding they are. -/
structure Row.Lawful (r : Row) : Prop where
  reads : ∀ (h : Word) (ops : List Word), ops.length + 1 = r.cmdWords → ∃ i, r.make h ops = some i
  encodes : ∀ (h : Word) (ops : List Word) (i : Instr), h &&& r.mask = r.header →
    r.make h ops = some i → i.wf = true ∧ encode i = h :: ops

theorem and_fullMask (h : Word) : h &&& fullMask = h := BitVec.and_allOnes

/-- A field that a mask covers with ones is left as it is. -/
theorem extractLsb'_and_of_allOnes {h m : Word} {lo w : Nat} (hm : m.extractLsb' lo w = BitVec.allOnes w) :
    (h &&& m).extractLsb' lo w = h.extractLsb' lo w := by
  rw [BitVec.extractLsb'_and, hm, BitVec.and_allOnes]

/-- The headers of `pxf.depth`: the mask leaves only bits 13:12 open (R51, R57). -/
theorem depth_header_cases {h : Word} (e : h &&& depthMask = 0x430) :
    h = 0x430 ∨ h = 0x1430 ∨ h = 0x2430 ∨ h = 0x3430 := by
  have low : h.extractLsb' 0 12 = 0x430 := by
    rw [← extractLsb'_and_of_allOnes (m := depthMask) (by decide), e]; decide
  have high : h.extractLsb' 14 18 = 0 := by
    rw [← extractLsb'_and_of_allOnes (m := depthMask) (by decide), e]; decide
  have low := congrArg BitVec.toNat low
  have high := congrArg BitVec.toNat high
  simp only [BitVec.extractLsb'_toNat, Nat.shiftRight_eq_div_pow] at low high
  bv_omega

section Lawful
variable {hd : Word} {n : Nat}

/-- A row that compares the whole header: one header, and so one encoding of each operand list. -/
theorem Row.lawful_of_fullMask {c : Nat} {make : Word → List Word → Option Instr}
    (hr : ∀ h ops, ops.length + 1 = c → ∃ i, make h ops = some i)
    (he : ∀ ops i, make hd ops = some i → i.wf = true ∧ encode i = hd :: ops) :
    Row.Lawful ⟨hd, fullMask, c, n, make⟩ where
  reads := hr
  encodes h ops i hh e := by
    obtain rfl : h = hd := (and_fullMask h).symm.trans hh
    exact he ops i e

theorem lawful_one32 {f : Word → Instr} (hf : ∀ x, (f x).wf = true ∧ encode (f x) = [hd, x]) :
    Row.Lawful ⟨hd, fullMask, 2, n, one32 f⟩ :=
  Row.lawful_of_fullMask (fun | _, [_], _ => ⟨_, rfl⟩) fun ops i e => by
    obtain ⟨x, rfl, rfl⟩ := one32_eq_some e
    exact hf x

theorem lawful_one64 {f : BitVec 64 → Instr} (hf : ∀ x, (f x).wf = true ∧ encode (f x) = [hd, lo32 x, hi32 x]) :
    Row.Lawful ⟨hd, fullMask, 3, n, one64 f⟩ :=
  Row.lawful_of_fullMask (fun | _, [_, _], _ => ⟨_, rfl⟩) fun ops i e => by
    obtain ⟨x, rfl, rfl⟩ := one64_eq_some e
    exact hf x

theorem lawful_two32 {f : Word → Word → Instr} (hf : ∀ x y, (f x y).wf = true ∧ encode (f x y) = [hd, x, y]) :
    Row.Lawful ⟨hd, fullMask, 3, n, two32 f⟩ :=
  Row.lawful_of_fullMask (fun | _, [_, _], _ => ⟨_, rfl⟩) fun ops i e => by
    obtain ⟨x, y, rfl, rfl⟩ := two32_eq_some e
    exact hf x y

theorem lawful_two64 {f : BitVec 64 → BitVec 64 → Instr}
    (hf : ∀ x y, (f x y).wf = true ∧ encode (f x y) = [hd, lo32 x, hi32 x, lo32 y, hi32 y]) :
    Row.Lawful ⟨hd, fullMask, 5, n, two64 f⟩ :=
  Row.lawful_of_fullMask (fun | _, [_, _, _, _], _ => ⟨_, rfl⟩) fun ops i e => by
    obtain ⟨x, y, rfl, rfl⟩ := two64_eq_some e
    exact hf x y

theorem lawful_range32 {f : Range 32 → Instr} (hf : ∀ r, (f r).wf = true ∧ encode (f r) = [hd, r.lo, r.hi]) :
    Row.Lawful ⟨hd, fullMask, 3, n, range32 f⟩ :=
  Row.lawful_of_fullMask (fun | _, [_, _], _ => ⟨_, rfl⟩) fun ops i e => by
    obtain ⟨r, rfl, rfl⟩ := range32_eq_some e
    exact hf r

theorem lawful_range64 {f : Range 64 → Instr}
    (hf : ∀ r, (f r).wf = true ∧ encode (f r) = [hd, lo32 r.lo, hi32 r.lo, lo32 r.hi, hi32 r.hi]) :
    Row.Lawful ⟨hd, fullMask, 5, n, range64 f⟩ :=
  Row.lawful_of_fullMask (fun | _, [_, _, _, _], _ => ⟨_, rfl⟩) fun ops i e => by
    obtain ⟨r, rfl, rfl⟩ := range64_eq_some e
    exact hf r

theorem lawful_ranges32 {f : Range 32 → Range 32 → Instr}
    (hf : ∀ r t, (f r t).wf = true ∧ encode (f r t) = [hd, r.lo, r.hi, t.lo, t.hi]) :
    Row.Lawful ⟨hd, fullMask, 5, n, ranges32 f⟩ :=
  Row.lawful_of_fullMask (fun | _, [_, _, _, _], _ => ⟨_, rfl⟩) fun ops i e => by
    obtain ⟨r, t, rfl, rfl⟩ := ranges32_eq_some e
    exact hf r t

theorem lawful_ranges64 {f : Range 64 → Range 64 → Instr}
    (hf : ∀ r t, (f r t).wf = true
      ∧ encode (f r t)
        = [hd, lo32 r.lo, hi32 r.lo, lo32 r.hi, hi32 r.hi, lo32 t.lo, hi32 t.lo, lo32 t.hi, hi32 t.hi]) :
    Row.Lawful ⟨hd, fullMask, 9, n, ranges64 f⟩ :=
  Row.lawful_of_fullMask (fun | _, [_, _, _, _, _, _, _, _], _ => ⟨_, rfl⟩) fun ops i e => by
    obtain ⟨r, t, rfl, rfl⟩ := ranges64_eq_some e
    exact hf r t

theorem lawful_rangePoint32 {f : Range 32 → Word → Instr}
    (hf : ∀ r p, (f r p).wf = true ∧ encode (f r p) = [hd, r.lo, r.hi, p]) :
    Row.Lawful ⟨hd, fullMask, 4, n, rangePoint32 f⟩ :=
  Row.lawful_of_fullMask (fun | _, [_, _, _], _ => ⟨_, rfl⟩) fun ops i e => by
    obtain ⟨r, p, rfl, rfl⟩ := rangePoint32_eq_some e
    exact hf r p

theorem lawful_rangePoint64 {f : Range 64 → BitVec 64 → Instr}
    (hf : ∀ r p, (f r p).wf = true
      ∧ encode (f r p) = [hd, lo32 r.lo, hi32 r.lo, lo32 r.hi, hi32 r.hi, lo32 p, hi32 p]) :
    Row.Lawful ⟨hd, fullMask, 7, n, rangePoint64 f⟩ :=
  Row.lawful_of_fullMask (fun | _, [_, _, _, _, _, _], _ => ⟨_, rfl⟩) fun ops i e => by
    obtain ⟨r, p, rfl, rfl⟩ := rangePoint64_eq_some e
    exact hf r p

theorem lawful_rect {f : Rect → Instr}
    (hf : ∀ r, (f r).wf = true ∧ encode (f r) = [hd, r.minX, r.minY, r.maxX, r.maxY]) :
    Row.Lawful ⟨hd, fullMask, 5, n, rect f⟩ :=
  Row.lawful_of_fullMask (fun | _, [_, _, _, _], _ => ⟨_, rfl⟩) fun ops i e => by
    obtain ⟨r, rfl, rfl⟩ := rect_eq_some e
    exact hf r

theorem lawful_rects {f : Rect → Rect → Instr}
    (hf : ∀ r t, (f r t).wf = true
      ∧ encode (f r t) = [hd, r.minX, r.minY, r.maxX, r.maxY, t.minX, t.minY, t.maxX, t.maxY]) :
    Row.Lawful ⟨hd, fullMask, 9, n, rects f⟩ :=
  Row.lawful_of_fullMask (fun | _, [_, _, _, _, _, _, _, _], _ => ⟨_, rfl⟩) fun ops i e => by
    obtain ⟨r, t, rfl, rfl⟩ := rects_eq_some e
    exact hf r t

theorem lawful_rectPoint {f : Rect → Word → Word → Instr}
    (hf : ∀ r x y, (f r x y).wf = true ∧ encode (f r x y) = [hd, r.minX, r.minY, r.maxX, r.maxY, x, y]) :
    Row.Lawful ⟨hd, fullMask, 7, n, rectPoint f⟩ :=
  Row.lawful_of_fullMask (fun | _, [_, _, _, _, _, _], _ => ⟨_, rfl⟩) fun ops i e => by
    obtain ⟨r, x, y, rfl, rfl⟩ := rectPoint_eq_some e
    exact hf r x y

theorem lawful_prepare : Row.Lawful ⟨0x500, fullMask, 12, n, prepare⟩ :=
  Row.lawful_of_fullMask (fun | _, [_, _, _, _, _, _, _, _, _, _, _], _ => ⟨_, rfl⟩) fun ops i e => by
    obtain ⟨df, dp, sf, sp, bl, rfl, rfl⟩ := prepare_eq_some e
    exact ⟨rfl, rfl⟩

theorem lawful_swizzle : Row.Lawful ⟨0x510, fullMask, 13, n, swizzle⟩ :=
  Row.lawful_of_fullMask (fun | _, [_, _, _, _, _, _, _, _, _, _, _, _], _ => ⟨_, rfl⟩) fun ops i e => by
    obtain ⟨d, p, t, rfl, rfl⟩ := swizzle_eq_some e
    exact ⟨rfl, rfl⟩

/-- The channel index stands in the two header bits that the mask leaves open. -/
theorem lawful_depth : Row.Lawful ⟨0x430, depthMask, 2, n, depth .pxfDepth⟩ where
  reads | _, [_], _ => ⟨_, rfl⟩
  encodes h ops i hh e := by
    obtain ⟨x, rfl, rfl⟩ := depth_eq_some e
    rcases depth_header_cases hh with rfl | rfl | rfl | rfl <;> exact ⟨rfl, rfl⟩

end Lawful

/-! The rows of the five units. -/

theorem numRows_lawful : ∀ r ∈ numRows, r.Lawful := by
  simp only [numRows, List.forall_mem_cons, List.not_mem_nil, false_imp_iff, implies_true, and_true]
  refine ⟨lawful_two32 ?_, lawful_two32 ?_, lawful_two32 ?_, lawful_two64 ?_,
    lawful_two32 ?_, lawful_two32 ?_, lawful_two32 ?_, lawful_two64 ?_,
    lawful_two32 ?_, lawful_two32 ?_, lawful_two32 ?_, lawful_two64 ?_,
    lawful_two32 ?_, lawful_two32 ?_, lawful_two32 ?_, lawful_two64 ?_,
    lawful_one32 ?_, lawful_one32 ?_, lawful_one32 ?_, lawful_one64 ?_,
    lawful_one32 ?_, lawful_one32 ?_, lawful_one32 ?_, lawful_one32 ?_⟩
  all_goals intros; exact ⟨rfl, rfl⟩

theorem rngRows_lawful : ∀ r ∈ rngRows, r.Lawful := by
  simp only [rngRows, List.forall_mem_cons, List.not_mem_nil, false_imp_iff, implies_true, and_true]
  refine ⟨lawful_range32 ?_, lawful_range32 ?_, lawful_range64 ?_, lawful_range64 ?_,
    lawful_ranges32 ?_, lawful_ranges32 ?_, lawful_ranges64 ?_, lawful_ranges64 ?_,
    lawful_rangePoint32 ?_, lawful_rangePoint32 ?_, lawful_rangePoint64 ?_, lawful_rangePoint64 ?_,
    lawful_ranges32 ?_, lawful_ranges32 ?_, lawful_ranges64 ?_, lawful_ranges64 ?_,
    lawful_ranges32 ?_, lawful_ranges32 ?_, lawful_ranges64 ?_, lawful_ranges64 ?_,
    lawful_range32 ?_, lawful_range64 ?_⟩
  all_goals intros; exact ⟨rfl, rfl⟩

theorem rctRows_lawful : ∀ r ∈ rctRows, r.Lawful := by
  simp only [rctRows, List.forall_mem_cons, List.not_mem_nil, false_imp_iff, implies_true, and_true]
  refine ⟨lawful_rect ?_, lawful_rect ?_, lawful_rects ?_, lawful_rects ?_,
    lawful_rectPoint ?_, lawful_rectPoint ?_, lawful_rects ?_, lawful_rects ?_,
    lawful_rects ?_, lawful_rects ?_, lawful_rect ?_, lawful_rect ?_⟩
  all_goals intros; exact ⟨rfl, rfl⟩

theorem pxfRows_lawful : ∀ r ∈ pxfRows, r.Lawful := by
  simp only [pxfRows, List.forall_mem_cons, List.not_mem_nil, false_imp_iff, implies_true, and_true]
  refine ⟨lawful_one32 ?_, lawful_one32 ?_, lawful_one32 ?_, lawful_depth⟩
  all_goals intros; exact ⟨rfl, rfl⟩

theorem swzRows_lawful : ∀ r ∈ swzRows, r.Lawful := by
  simp only [swzRows, List.forall_mem_cons, List.not_mem_nil, false_imp_iff, implies_true, and_true]
  exact ⟨lawful_prepare, lawful_swizzle⟩

theorem rows_lawful {r : Row} (hr : r ∈ rows) : r.Lawful := by
  simp only [rows, List.mem_append] at hr
  rcases hr with (((h | h) | h) | h) | h
  · exact numRows_lawful r h
  · exact rngRows_lawful r h
  · exact rctRows_lawful r h
  · exact pxfRows_lawful r h
  · exact swzRows_lawful r h

/-- A packet that decodes is, word for word, the encoding of its command. -/
theorem encode_of_decode {p : Packet} {i : Instr} (e : decode p = .ok i) : i.wf = true ∧ encode i = p := by
  obtain ⟨h, ops, r, rfl, hr, hh, _, hm⟩ := decode_eq_ok e
  exact (rows_lawful hr).encodes h ops i hh hm

/-! ## The opcode map as numbers -/

/-- A header that a row takes, with the row's two lengths, is a line of R57's table. -/
theorem row_mem_commandTable {r : Row} {h : Word} (hr : r ∈ rows) (hh : h &&& r.mask = r.header) :
    (h.toNat, r.cmdWords, r.rspWords) ∈ Machine.commandTable := by
  have all : ∀ r ∈ rows, r.mask = fullMask ∧ (r.header.toNat, r.cmdWords, r.rspWords) ∈ Machine.commandTable
      ∨ r.mask = depthMask ∧ r.header = 0x430 ∧ r.cmdWords = 2 ∧ r.rspWords = 2 := by decide
  rcases all r hr with ⟨hm, ht⟩ | ⟨hm, hd, hc, hn⟩
  · rwa [← hh, hm, and_fullMask] at ht
  · rw [hm, hd] at hh
    rw [hc, hn]
    rcases depth_header_cases hh with rfl | rfl | rfl | rfl <;> decide

/-- The decoder gives a header of R57's table the two lengths of its line. -/
theorem words_of_mem_commandTable :
    ∀ row ∈ Machine.commandTable, cmdWords (BitVec.ofNat 32 row.1) = some row.2.1
      ∧ rspWords (BitVec.ofNat 32 row.1) = some row.2.2 := by decide

/-! The legal packets are those that decode. -/

theorem legal_of_decode {p : Packet} {i : Instr} (e : decode p = .ok i) : Machine.legal p := by
  obtain ⟨h, ops, r, rfl, hr, hh, hl, _⟩ := decode_eq_ok e
  exact ⟨_, row_mem_commandTable hr hh, by simp, hl⟩

theorem decode_of_legal {p : Packet} (h : Machine.legal p) : ∃ i, decode p = .ok i := by
  obtain ⟨row, hrow, hhead, hlen⟩ := h
  obtain ⟨ops, rfl⟩ := List.head?_eq_some_iff.mp hhead
  obtain ⟨r, hr, hc⟩ := Option.map_eq_some_iff.mp (words_of_mem_commandTable row hrow).1
  have hl : ops.length + 1 = r.cmdWords := hlen.trans hc.symm
  obtain ⟨i, hi⟩ := (rows_lawful (findRow_eq_some hr).1).reads _ ops hl
  exact ⟨i, decode_of_row hr hl hi⟩

end Sys2Proof

namespace Sys2Proof.Machine

/-! ## The length of a response -/

/-- The status words a command can answer: OK, and every error but that of an illegal packet (R261, R262). -/
def commandStatuses : List Word :=
  [0x00000000#32, 0x82000000, 0x83000000, 0x84000000, 0x85000000, 0x86000000]

theorem word_mem_commandStatuses {e : Status} (h : e ≠ .badCommand) : e.word ∈ commandStatuses := by
  cases e with
  | badCommand => exact absurd rfl h
  | _ => decide

/-- From the state `s`, a next state with one more response, which has `n` words and a status of a command; the host's
moves are untouched. -/
def Responds (s : State) (n : Nat) (a : Result) : Prop :=
  ∃ (t : State) (status : Word) (results : List Word),
    a = .next t ∧ t.outbox = s.outbox ++ [status :: results] ∧ t.inbox = s.inbox
      ∧ results.length + 1 = n ∧ status ∈ commandStatuses

/-- How many words a scalar result takes depends on its width alone. -/
theorem length_packScalar_eq {w : Nat} (u v : BitVec w) : (packScalar u).length = (packScalar v).length := by
  unfold packScalar
  split <;> rfl

theorem responds_lowmask (w : Nat) (n : Word) (s : State) :
    Responds s ((packScalar (0 : BitVec w)).length + 1) (lowmask w n s) := by
  by_cases h : n.toNat > w
  · rw [lowmask_eq, if_pos h]
    exact ⟨_, _, _, rfl, rfl, rfl, by rw [List.length_replicate], by decide⟩
  · rw [lowmask_eq, if_neg h]
    exact ⟨_, _, _, rfl, rfl, rfl, by rw [length_packScalar_eq], by decide⟩

/-- SWZ.PREPARE has no result words, whatever it answers (R201, R262). -/
theorem responds_swzPrepare (df : Word) (dp : Slice) (sf : Word) (sp : Slice) (bl : Word) (s : State) :
    Responds s 1 (execSwzPrepare df dp sf sp bl s) := by
  rcases execSwzPrepare_cases df dp sf sp bl s with ⟨e, _, hbad, _, he⟩ | ⟨pal, _, he, _, _⟩
  · exact ⟨_, _, _, he, rfl, rfl, rfl, word_mem_commandStatuses hbad⟩
  · exact ⟨_, _, _, he, rfl, rfl, rfl, by decide⟩

/-- SWZ.SWIZZLE answers a count in two words, zero where it converts nothing (R209, R225, R262). -/
theorem responds_swzSwizzle (dst dp src : Slice) (s : State) :
    Responds s 3 (execSwzSwizzle dst dp src s) := by
  rcases execSwzSwizzle_cases dst dp src s with ⟨_, he⟩ | ⟨_, _, he⟩ | ⟨_, _, m, r, _, he⟩
  · exact ⟨_, _, _, he, rfl, rfl, rfl, by decide⟩
  · exact ⟨_, _, _, he, rfl, rfl, rfl, by decide⟩
  · cases r with
    | none => exact ⟨_, _, _, he, rfl, rfl, rfl, by decide⟩
    | some i => exact ⟨_, _, _, he, rfl, rfl, rfl, by decide⟩

/-- The response of a well-formed command has the length that the row of its header gives. -/
theorem responds_exec (i : Instr) (s : State) (hi : i.wf = true) :
    ∃ n, (encode i).head?.bind rspWords = some n ∧ Responds s n (exec i s) := by
  cases i with
  | swzPrepare df dp sf sp bl => exact ⟨1, rfl, responds_swzPrepare df dp sf sp bl s⟩
  | swzSwizzle dst dp src => exact ⟨3, rfl, responds_swzSwizzle dst dp src s⟩
  | lowmaskW8 n => exact ⟨2, rfl, responds_lowmask 8 n s⟩
  | lowmaskW16 n => exact ⟨2, rfl, responds_lowmask 16 n s⟩
  | lowmaskW32 n => exact ⟨2, rfl, responds_lowmask 32 n s⟩
  | lowmaskW64 n => exact ⟨3, rfl, responds_lowmask 64 n s⟩
  | pxfDepth aux f =>
    refine ⟨2, ?_, _, _, _, rfl, rfl, rfl, rfl, by decide⟩
    rcases aux_cases (by simpa [Instr.wf] using hi) with rfl | rfl | rfl | rfl <;> rfl
  | _ => exact ⟨_, rfl, _, _, _, rfl, rfl, rfl, rfl, by decide⟩

/-! ## Narrow operands -/

theorem scalar_congr {w : Nat} {x x' : Word} (h : x.toNat % 2 ^ w = x'.toNat % 2 ^ w) :
    scalar w x = scalar w x' :=
  BitVec.eq_of_toNat_eq (by rw [toNat_scalar, toNat_scalar, h])

theorem answer_unary_congr {w : Nat} {x x' : Word} (f : BitVec w → BitVec w)
    (hx : x.toNat % 2 ^ w = x'.toNat % 2 ^ w) (s : State) :
    answer (packScalar (f (scalar w x))) s = answer (packScalar (f (scalar w x'))) s := by
  rw [scalar_congr hx]

theorem answer_binary_congr {w : Nat} {x y x' y' : Word} (f : BitVec w → BitVec w → BitVec w)
    (hx : x.toNat % 2 ^ w = x'.toNat % 2 ^ w) (hy : y.toNat % 2 ^ w = y'.toNat % 2 ^ w) (s : State) :
    answer (packScalar (f (scalar w x) (scalar w y))) s = answer (packScalar (f (scalar w x') (scalar w y'))) s := by
  rw [scalar_congr hx, scalar_congr hy]

/-! ## The statements -/

/-- Settles O1, by the case of each command. -/
theorem decodeOfEncode : Obligations.DecodeOfEncode :=
  decode_encode

/-- Settles O2, by the row that the packet was read by. -/
theorem encodeOfDecode : Obligations.EncodeOfDecode :=
  fun _ _ => encode_of_decode

/-- Settles O3: the legal packets are those that decode. -/
theorem illegalPacketAnswersBadCommand : Obligations.IllegalPacketAnswersBadCommand := by
  refine ⟨fun s p rest hin hp => ?_, fun p hp => ?_⟩
  · cases hd : decode p with
    | ok i => exact absurd (legal_of_decode hd) hp
    | error e => exact step_illegal hin hd
  · obtain ⟨i, hd⟩ := decode_of_legal hp
    obtain ⟨hwf, he⟩ := encode_of_decode hd
    exact ⟨i, hwf, he, hd⟩

/-- Settles O5: the encoding of a well-formed command decodes, so it is legal, and the line of the table that makes it
so gives the length of the response. -/
theorem responseLengthIsFixed : Obligations.ResponseLengthIsFixed := by
  intro i s hi
  obtain ⟨row, hrow, hhead, hlen⟩ := legal_of_decode (decode_encode i hi)
  obtain ⟨n, hn, t, status, results, ht, hout, hin, hres, hstatus⟩ := responds_exec i s hi
  have hrsp : n = row.2.2 := by
    rw [hhead, Option.bind_some, (words_of_mem_commandTable row hrow).2] at hn
    exact (Option.some.inj hn).symm
  exact ⟨t, status, results, row, ht, hout, hin, hrow, hhead, hlen, hres.trans hrsp, hstatus⟩

/-- Settles O4: each packet is the encoding of its command, which decoding gives back. -/
theorem writtenPacketsDecode : Obligations.WrittenPacketsDecode :=
  ⟨decode_encode (.saddW8 0x1FF 0x101) rfl,
    decode_encode (.minW64 0x0000000100000000 0x00000000FFFFFFFF) rfl,
    decode_encode (.rngContainsIe64 ⟨1, 2⟩ 0x0000000400000003) rfl,
    decode_encode (.rctIsectIe32 ⟨1, 2, 3, 4⟩ ⟨5, 6, 7, 8⟩) rfl,
    decode_encode (.pxfDepth 2 0x20000565) rfl,
    decode_encode (.swzSwizzle ⟨0x1000, 8⟩ ⟨0, 0⟩ ⟨0x2000, 7⟩) rfl⟩

/-- Settles O6: these commands read their operands through `scalar` alone, which the upper bits do not change. -/
theorem upperOperandBitsAreIgnored : Obligations.UpperOperandBitsAreIgnored :=
  fun s _ _ _ _ => ⟨
    fun hx hy => ⟨answer_binary_congr umin hx hy s, answer_binary_congr umax hx hy s,
      answer_binary_congr satAdd hx hy s, answer_binary_congr satSub hx hy s, answer_unary_congr id hx s⟩,
    fun hx hy => ⟨answer_binary_congr umin hx hy s, answer_binary_congr umax hx hy s,
      answer_binary_congr satAdd hx hy s, answer_binary_congr satSub hx hy s, answer_unary_congr bswap16 hx s⟩⟩

end Sys2Proof.Machine
end

section
/-! The NUM unit (`40_numeric.md`): what its operations are on the numbers their operands stand for, the laws of R126,
and what each command of the unit answers. -/

namespace Sys2Proof.Machine

/-! ## The operations as numbers -/

section Values
variable {w : Nat}

@[simp] theorem toNat_umin (x y : BitVec w) : (umin x y).toNat = min x.toNat y.toNat := by
  unfold umin
  split <;> bv_omega

@[simp] theorem toNat_umax (x y : BitVec w) : (umax x y).toNat = max x.toNat y.toNat := by
  unfold umax
  split <;> bv_omega

/-- A sum that fits is the answer; the greatest value stands for every other sum. -/
@[simp] theorem toNat_satAdd (x y : BitVec w) : (satAdd x y).toNat = min (x.toNat + y.toNat) (2 ^ w - 1) := by
  have hpos := Nat.two_pow_pos w
  unfold satAdd
  split
  · rw [BitVec.toNat_ofNat, Nat.mod_eq_of_lt (by omega)]
    omega
  · rw [BitVec.toNat_ofNat, Nat.mod_eq_of_lt (by omega)]
    omega

@[simp] theorem toNat_satSub (x y : BitVec w) :
    (satSub x y).toNat = if x.toNat < y.toNat then 0 else x.toNat - y.toNat := by
  unfold satSub
  simp only [BitVec.lt_def]
  split
  · exact BitVec.toNat_zero
  · exact BitVec.toNat_sub_of_le (BitVec.le_def.mpr (by omega))

/-- The mask of an index up to the width fits in the width (R121 to R124). -/
theorem toNat_lowmask {n : Nat} (h : n ≤ w) : (BitVec.ofNat w (2 ^ n - 1)).toNat = 2 ^ n - 1 := by
  have hle : 2 ^ n ≤ 2 ^ w := Nat.pow_le_pow_right (by decide) h
  have hpos := Nat.two_pow_pos n
  rw [BitVec.toNat_ofNat, Nat.mod_eq_of_lt (by omega)]

end Values

/-! ## Bytes in reverse order -/

/-- The number whose `n` bytes are those of `v` in reverse order. -/
def reverseBytes (n v : Nat) : Nat := leNat (leBytes v n).reverse

/-- Bytes are the bytes of the number they make. -/
theorem leBytes_leNat (l : List Byte) : leBytes (leNat l) l.length = l := by
  induction l with
  | nil => rfl
  | cons b bs ih =>
    have hlow : BitVec.ofNat 8 (leNat (b :: bs)) = b := by
      simp only [leNat]
      bv_omega
    have hrest : leNat (b :: bs) / 256 = leNat bs := by
      simp only [leNat]
      omega
    simp only [List.length_cons, leBytes, hlow, hrest, ih]

/-- What stands above the low `n` bytes of a number does not change them. -/
theorem leBytes_mod (v n : Nat) : leBytes (v % 256 ^ n) n = leBytes v n := by
  have h := leBytes_leNat (leBytes v n)
  rwa [leNat_leBytes, length_leBytes] at h

/-- Reversing the low `n` bytes does not look at what stands above them. -/
theorem reverseBytes_mod (n v : Nat) : reverseBytes n (v % 256 ^ n) = reverseBytes n v := by
  rw [reverseBytes, leBytes_mod, reverseBytes]

/-- Reversing the bytes twice gives the number back: a list reversed twice is the list. -/
theorem reverseBytes_reverseBytes {n v : Nat} (h : v < 256 ^ n) : reverseBytes n (reverseBytes n v) = v := by
  have hbytes : leBytes (reverseBytes n v) n = (leBytes v n).reverse := by
    have h := leBytes_leNat (leBytes v n).reverse
    rwa [List.length_reverse, length_leBytes] at h
  calc reverseBytes n (reverseBytes n v)
      = leNat (leBytes v n).reverse.reverse := by rw [reverseBytes, hbytes]
    _ = v := by rw [List.reverse_reverse, leNat_leBytes, Nat.mod_eq_of_lt h]

/-- The bytes of a word from bit `k` up are its slices of eight bits. -/
theorem leBytes_shiftRight {w : Nat} (x : BitVec w) (n k : Nat) :
    leBytes (x.toNat >>> k) n = (List.range n).map fun i => x.extractLsb' (k + 8 * i) 8 := by
  induction n generalizing k with
  | zero => rfl
  | succ n ih =>
    have hdiv : x.toNat >>> k / 256 = x.toNat >>> (k + 8) := by
      rw [Nat.shiftRight_add, Nat.shiftRight_eq_div_pow _ 8]
    rw [leBytes, hdiv, ih, List.range_succ_eq_map, List.map_cons, List.map_map]
    congr 1
    refine List.map_congr_left fun i _ => ?_
    simp only [Function.comp_apply]
    congr 1
    omega

/-- The bytes of a word are its slices of eight bits. -/
theorem leBytes_toNat {w : Nat} (x : BitVec w) (n : Nat) :
    leBytes x.toNat n = (List.range n).map fun i => x.extractLsb' (8 * i) 8 := by
  simpa using leBytes_shiftRight x n 0

theorem toNat_append_byte {w : Nat} (a : BitVec w) (b : Byte) : (a ++ b).toNat = b.toNat + 256 * a.toNat := by
  rw [BitVec.toNat_append, ← Nat.shiftLeft_add_eq_or_of_lt b.isLt, Nat.shiftLeft_eq]
  omega

theorem toNat_bswap16 (x : BitVec 16) : (bswap16 x).toNat = reverseBytes 2 x.toNat := by
  rw [reverseBytes, leBytes_toNat]
  simp [bswap16, toNat_append_byte, List.range_succ, leNat]

theorem toNat_bswap32 (x : BitVec 32) : (bswap32 x).toNat = reverseBytes 4 x.toNat := by
  rw [reverseBytes, leBytes_toNat]
  simp [bswap32, toNat_append_byte, List.range_succ, leNat]

theorem toNat_bswap64 (x : BitVec 64) : (bswap64 x).toNat = reverseBytes 8 x.toNat := by
  rw [reverseBytes, leBytes_toNat]
  simp [bswap64, toNat_append_byte, List.range_succ, leNat]

/-- A swap that reverses the bytes of its operand undoes itself. -/
theorem involutive_of_toNat_eq_reverseBytes {w n : Nat} {swap : BitVec w → BitVec w} (hw : 2 ^ w = 256 ^ n)
    (hswap : ∀ x, (swap x).toNat = reverseBytes n x.toNat) (x : BitVec w) : swap (swap x) = x :=
  BitVec.eq_of_toNat_eq <| by rw [hswap, hswap, reverseBytes_reverseBytes (hw ▸ x.isLt)]

/-! ## What the commands answer -/

/-- A 32-bit operand is its whole word (R52). -/
theorem scalar_word (x : Word) : scalar 32 x = x := BitVec.setWidth_eq x

section Answers
variable {w : Nat} (s : State)

/-- The answer with one result of at most 32 bits, by the number the result stands for (R52). -/
theorem answer_narrow (hw : w ≤ 32) {v : BitVec w} {n : Nat} (hv : v.toNat = n) :
    answer (packScalar v) s = .next { s with outbox := s.outbox ++ [[0, BitVec.ofNat 32 n]] } := by
  rw [packScalar_narrow hw, hv]
  rfl

/-- The answer with one 64-bit result, by the number the result stands for (R53). -/
theorem answer_wide {v : BitVec 64} {n : Nat} (hv : v.toNat = n) :
    answer (packScalar v) s = .next { s with outbox := s.outbox ++ [0 :: wordsOf n] } := by
  rw [packScalar_wide, hv]
  rfl

/-- What a command of two narrow operands answers whose operation is `g` on the operands' numbers. -/
theorem answer_binary_narrow (hw : w ≤ 32) {f : BitVec w → BitVec w → BitVec w} (g : Nat → Nat → Nat)
    (hf : ∀ a b, (f a b).toNat = g a.toNat b.toNat) (x y : Word) :
    answer (packScalar (f (scalar w x) (scalar w y))) s
      = .next { s with outbox := s.outbox ++
          [[0, BitVec.ofNat 32 (g (x.toNat % 2 ^ w) (y.toNat % 2 ^ w))]] } :=
  answer_narrow s hw (by rw [hf, toNat_scalar, toNat_scalar])

/-- What a command of two 32-bit operands answers: each operand is its whole word. -/
theorem answer_binary_word {f : Word → Word → Word} (g : Nat → Nat → Nat)
    (hf : ∀ a b, (f a b).toNat = g a.toNat b.toNat) (x y : Word) :
    answer (packScalar (f (scalar 32 x) (scalar 32 y))) s
      = .next { s with outbox := s.outbox ++ [[0, BitVec.ofNat 32 (g x.toNat y.toNat)]] } :=
  answer_narrow s (Nat.le_refl 32) (by rw [hf, scalar_word, scalar_word])

/-- What a byte swap of a narrow operand answers: the bytes of the operand word that count, in reverse order. -/
theorem answer_swap_narrow (hw : w ≤ 32) {n : Nat} {swap : BitVec w → BitVec w} (hn : 2 ^ w = 256 ^ n)
    (hswap : ∀ x, (swap x).toNat = reverseBytes n x.toNat) (x : Word) :
    answer (packScalar (swap (scalar w x))) s
      = .next { s with outbox := s.outbox ++ [[0, BitVec.ofNat 32 (leNat (leBytes x.toNat n).reverse)]] } :=
  answer_narrow s hw (by rw [hswap, toNat_scalar, hn, reverseBytes_mod, reverseBytes])

/-- `lowmask` of at most 32 bits: the mask, or the error with one result word 0 (R121 to R123). -/
theorem lowmask_narrow (hw : w ≤ 32) (n : Word) :
    lowmask w n s = .next { s with outbox := s.outbox ++
      [if n.toNat > w then [0x82000000, 0] else [0, BitVec.ofNat 32 (2 ^ n.toNat - 1)]] } := by
  by_cases h : n.toNat > w
  · rw [lowmask_eq, if_pos h, if_pos h, packScalar_narrow hw]
    rfl
  · rw [lowmask_eq, if_neg h, if_neg h, packScalar_narrow hw, toNat_lowmask (Nat.le_of_not_gt h)]
    rfl

/-- `lowmask` of 64 bits: the mask in two words, or the error with two result words 0 (R124). -/
theorem lowmask_wide (n : Word) :
    lowmask 64 n s = .next { s with outbox := s.outbox ++
      [if n.toNat > 64 then [0x82000000, 0, 0] else 0 :: wordsOf (2 ^ n.toNat - 1)] } := by
  by_cases h : n.toNat > 64
  · rw [lowmask_eq, if_pos h, if_pos h, packScalar_wide]
    rfl
  · rw [lowmask_eq, if_neg h, if_neg h, packScalar_wide, toNat_lowmask (Nat.le_of_not_gt h)]
    rfl

end Answers

/-! ## The laws of R126 -/

section Laws
variable {w : Nat} (x y : BitVec w)

theorem satAdd_zero : satAdd x 0#w = x := by
  apply BitVec.eq_of_toNat_eq
  have := x.isLt
  rw [toNat_satAdd, BitVec.toNat_zero]
  omega

theorem satAdd_comm : satAdd x y = satAdd y x := by
  apply BitVec.eq_of_toNat_eq
  rw [toNat_satAdd, toNat_satAdd, Nat.add_comm]

theorem satSub_zero : satSub x 0#w = x := by
  apply BitVec.eq_of_toNat_eq
  rw [toNat_satSub, BitVec.toNat_zero, if_neg (Nat.not_lt_zero _), Nat.sub_zero]

theorem satSub_self : satSub x x = 0#w := by
  apply BitVec.eq_of_toNat_eq
  rw [toNat_satSub, if_neg (Nat.lt_irrefl _), Nat.sub_self, BitVec.toNat_zero]

/-- On integers the saturating difference is the difference, stopped at 0. -/
theorem satSub_eq_intMax : ((satSub x y).toNat : Int) = max ((x.toNat : Int) - y.toNat) 0 := by
  rw [toNat_satSub]
  split <;> omega

end Laws

/-! ## The statements -/

/-- Settles O19: each law of the operations from the numbers they answer, and each byte swap as the reversal of the
bytes, which undoes itself. -/
theorem numLaws : Obligations.NumLaws :=
  ⟨fun _ x y => ⟨toNat_umin x y, toNat_umax x y, toNat_satAdd x y, satSub_eq_intMax x y, satAdd_zero x,
      satSub_zero x, satSub_self x, satAdd_comm x y⟩,
    involutive_of_toNat_eq_reverseBytes (by decide) toNat_bswap16,
    involutive_of_toNat_eq_reverseBytes (by decide) toNat_bswap32,
    involutive_of_toNat_eq_reverseBytes (by decide) toNat_bswap64⟩

/-- Settles O13: each packet is the encoding of its command, which answers the lesser number. -/
theorem minAnswersTheLesser : Obligations.MinAnswersTheLesser := fun s =>
  ⟨fun x y => ⟨decode_encode (.minW8 x y) rfl, answer_binary_narrow s (by decide) min toNat_umin x y⟩,
    fun x y => ⟨decode_encode (.minW16 x y) rfl, answer_binary_narrow s (by decide) min toNat_umin x y⟩,
    fun x y => ⟨decode_encode (.minW32 x y) rfl, answer_binary_word s min toNat_umin x y⟩,
    fun x y => ⟨decode_encode (.minW64 x y) rfl, answer_wide s (toNat_umin x y)⟩⟩

/-- Settles O14: each packet is the encoding of its command, which answers the greater number. -/
theorem maxAnswersTheGreater : Obligations.MaxAnswersTheGreater := fun s =>
  ⟨fun x y => ⟨decode_encode (.maxW8 x y) rfl, answer_binary_narrow s (by decide) max toNat_umax x y⟩,
    fun x y => ⟨decode_encode (.maxW16 x y) rfl, answer_binary_narrow s (by decide) max toNat_umax x y⟩,
    fun x y => ⟨decode_encode (.maxW32 x y) rfl, answer_binary_word s max toNat_umax x y⟩,
    fun x y => ⟨decode_encode (.maxW64 x y) rfl, answer_wide s (toNat_umax x y)⟩⟩

/-- Settles O15: each packet is the encoding of its command, which answers the sum up to the width's greatest value. -/
theorem saddSaturates : Obligations.SaddSaturates := fun s =>
  ⟨fun x y => ⟨decode_encode (.saddW8 x y) rfl,
      answer_binary_narrow s (by decide) (fun a b => min (a + b) 255) toNat_satAdd x y⟩,
    fun x y => ⟨decode_encode (.saddW16 x y) rfl,
      answer_binary_narrow s (by decide) (fun a b => min (a + b) 65535) toNat_satAdd x y⟩,
    fun x y => ⟨decode_encode (.saddW32 x y) rfl,
      answer_binary_word s (fun a b => min (a + b) 0xFFFFFFFF) toNat_satAdd x y⟩,
    fun x y => ⟨decode_encode (.saddW64 x y) rfl, answer_wide s (toNat_satAdd x y)⟩⟩

/-- Settles O16: each packet is the encoding of its command, which answers the difference, stopped at 0. -/
theorem ssubStopsAtZero : Obligations.SsubStopsAtZero := fun s =>
  ⟨fun x y => ⟨decode_encode (.ssubW8 x y) rfl,
      answer_binary_narrow s (by decide) (fun a b => if a < b then 0 else a - b) toNat_satSub x y⟩,
    fun x y => ⟨decode_encode (.ssubW16 x y) rfl,
      answer_binary_narrow s (by decide) (fun a b => if a < b then 0 else a - b) toNat_satSub x y⟩,
    fun x y => ⟨decode_encode (.ssubW32 x y) rfl,
      answer_binary_word s (fun a b => if a < b then 0 else a - b) toNat_satSub x y⟩,
    fun x y => ⟨decode_encode (.ssubW64 x y) rfl, answer_wide s (toNat_satSub x y)⟩⟩

/-- Settles O17: each packet is the encoding of its command, whose swap reverses the bytes; one byte stays as it is. -/
theorem bswapReversesTheBytes : Obligations.BswapReversesTheBytes := fun s =>
  ⟨fun x => ⟨decode_encode (.bswapW8 x) rfl, answer_narrow s (by decide) (toNat_scalar 8 x)⟩,
    fun x => ⟨decode_encode (.bswapW16 x) rfl, answer_swap_narrow s (by decide) (by decide) toNat_bswap16 x⟩,
    fun x => ⟨decode_encode (.bswapW32 x) rfl, answer_swap_narrow s (by decide) (by decide) toNat_bswap32 x⟩,
    fun x => ⟨decode_encode (.bswapW64 x) rfl, answer_wide s (toNat_bswap64 x)⟩⟩

/-- Settles O18: each packet is the encoding of its command, which looks its mask up by the whole operand word. -/
theorem lowmaskAnswersTheMask : Obligations.LowmaskAnswersTheMask := fun s n =>
  ⟨⟨decode_encode (.lowmaskW8 n) rfl, lowmask_narrow s (by decide) n⟩,
    ⟨decode_encode (.lowmaskW16 n) rfl, lowmask_narrow s (by decide) n⟩,
    ⟨decode_encode (.lowmaskW32 n) rfl, lowmask_narrow s (by decide) n⟩,
    decode_encode (.lowmaskW64 n) rfl, lowmask_wide s n⟩

end Sys2Proof.Machine
end

section
/-! The RNG unit (`41_range.md`): when a range is empty and which points it contains, what its operations are on the
bounds, the laws of R154, and what each command of the unit answers. -/

namespace Sys2Proof.Machine

/-! ## Ranges by the numbers of their bounds -/

section Bounds
variable {w : Nat} {r t : Range w} {p : BitVec w}

/-- `empty_ii` (R131). -/
theorem rangeEmpty_ii_iff : rangeEmpty .ii r = true ↔ r.lo.toNat > r.hi.toNat := decide_eq_true_iff

/-- `empty_ie` (R131). -/
theorem rangeEmpty_ie_iff : rangeEmpty .ie r = true ↔ r.lo.toNat ≥ r.hi.toNat := decide_eq_true_iff

theorem rangeContains_ii_iff :
    rangeContains .ii r p = true ↔ r.lo.toNat ≤ p.toNat ∧ p.toNat ≤ r.hi.toNat := by
  simp only [rangeContains, Bool.and_eq_true, decide_eq_true_eq, BitVec.le_def]

theorem rangeContains_ie_iff :
    rangeContains .ie r p = true ↔ r.lo.toNat ≤ p.toNat ∧ p.toNat < r.hi.toNat := by
  simp only [rangeContains, Bool.and_eq_true, decide_eq_true_eq, BitVec.le_def, BitVec.lt_def]

/-- Equality of ranges, from what emptiness is (R136 to R139). -/
theorem rangeEquals_iff {k : BoundKind} {a b : Prop} (hr : rangeEmpty k r = true ↔ a)
    (ht : rangeEmpty k t = true ↔ b) :
    rangeEquals k r t = true ↔ (r.lo = t.lo ∧ r.hi = t.hi) ∨ (a ∧ b) := by
  simp only [rangeEquals, Bool.or_eq_true, Bool.and_eq_true, beq_iff_eq, hr, ht]

@[simp] theorem toNat_rangeIsect_lo (r t : Range w) :
    (rangeIsect r t).lo.toNat = max r.lo.toNat t.lo.toNat := toNat_umax ..

@[simp] theorem toNat_rangeIsect_hi (r t : Range w) :
    (rangeIsect r t).hi.toNat = min r.hi.toNat t.hi.toNat := toNat_umin ..

@[simp] theorem toNat_rangeLength (r : Range w) :
    (rangeLength r).toNat = if r.hi.toNat < r.lo.toNat then 0 else r.hi.toNat - r.lo.toNat := toNat_satSub ..

end Bounds

/-! ## The laws of R154 -/

section Laws
variable {w : Nat} {k : BoundKind} {r e t : Range w}

theorem rangeIsect_self (r : Range w) : rangeIsect r r = r := by
  simp only [rangeIsect, umax, umin, ite_self]

/-- An empty first operand is not looked at further (R148 to R151). -/
theorem rangeUnion_of_empty_left (he : rangeEmpty k e = true) : rangeUnion k e t = t := if_pos he

/-- An empty second operand leaves the first where that one is not empty (R148 to R151). -/
theorem rangeUnion_of_empty_right (hr : rangeEmpty k r = false) (he : rangeEmpty k e = true) :
    rangeUnion k r e = r := by
  rw [rangeUnion, if_neg (Bool.eq_false_iff.mp hr), if_pos he]

/-- A range that is not empty contains its lower bound. -/
theorem rangeContains_lo (h : rangeEmpty k r = false) : rangeContains k r r.lo = true := by
  rw [← Bool.not_eq_true] at h
  cases k with
  | ii => exact rangeContains_ii_iff.mpr ⟨le_rfl, not_lt.mp (mt rangeEmpty_ii_iff.mpr h)⟩
  | ie => exact rangeContains_ie_iff.mpr ⟨le_rfl, not_le.mp (mt rangeEmpty_ie_iff.mpr h)⟩

/-- The intersection contains the points that both ranges contain. -/
theorem rangeContains_rangeIsect (k : BoundKind) (r t : Range w) (p : BitVec w) :
    rangeContains k (rangeIsect r t) p = true ↔ rangeContains k r p = true ∧ rangeContains k t p = true := by
  cases k with
  | ii =>
    simp only [rangeContains_ii_iff, toNat_rangeIsect_lo, toNat_rangeIsect_hi]
    omega
  | ie =>
    simp only [rangeContains_ie_iff, toNat_rangeIsect_lo, toNat_rangeIsect_hi]
    omega

/-- Ranges without a common point have an empty intersection: its lower bound would be one. -/
theorem rangeEmpty_rangeIsect_of_disjoint
    (h : ∀ p, ¬ (rangeContains k r p = true ∧ rangeContains k t p = true)) :
    rangeEmpty k (rangeIsect r t) = true := by
  by_contra hne
  have hlo := rangeContains_lo (Bool.not_eq_true _ ▸ hne)
  exact h _ ((rangeContains_rangeIsect ..).mp hlo)

theorem rangeLength_eq_zero_iff : rangeLength r = 0 ↔ rangeEmpty .ie r = true := by
  rw [rangeEmpty_ie_iff, ← BitVec.toNat_inj, toNat_rangeLength, BitVec.ofNat_eq_ofNat, BitVec.toNat_zero]
  split <;> omega

end Laws

/-! ## What the commands answer -/

section Answers
variable (s : State)

/-- The answer with a truth value, by the proposition it decides (R56). -/
theorem answerBool_of_iff {b : Bool} {p : Prop} [Decidable p] (h : b = true ↔ p) :
    answerBool b s = .next { s with outbox := s.outbox ++ [[0, if p then 1 else 0]] } := by
  simp only [answerBool_eq, h]
  rfl

/-- A result of two 32-bit bounds is the two bounds (R54). -/
theorem packRange_word (r : Range 32) : packRange r = [r.lo, r.hi] := by
  simp only [packRange, packScalar_narrow (Nat.le_refl 32), BitVec.ofNat_toNat, BitVec.setWidth_eq,
    List.cons_append, List.nil_append]

/-- A result of two 64-bit bounds is the words of the one and of the other (R53, R54). -/
theorem packRange_wide (r : Range 64) : packRange r = wordsOf r.lo.toNat ++ wordsOf r.hi.toNat := by
  rw [packRange, packScalar_wide, packScalar_wide]

/-- The answer with a 32-bit range, by the numbers its bounds stand for. -/
theorem answer_range_word {r : Range 32} {a b : Nat} (hlo : r.lo.toNat = a) (hhi : r.hi.toNat = b) :
    answer (packRange r) s
      = .next { s with outbox := s.outbox ++ [[0, BitVec.ofNat 32 a, BitVec.ofNat 32 b]] } := by
  subst hlo hhi
  rw [packRange_word, BitVec.ofNat_toNat, BitVec.ofNat_toNat, BitVec.setWidth_eq, BitVec.setWidth_eq]
  rfl

/-- The answer with a 64-bit range, by the numbers its bounds stand for. -/
theorem answer_range_wide {r : Range 64} {a b : Nat} (hlo : r.lo.toNat = a) (hhi : r.hi.toNat = b) :
    answer (packRange r) s
      = .next { s with outbox := s.outbox ++ [0 :: (wordsOf a ++ wordsOf b)] } := by
  subst hlo hhi
  rw [packRange_wide]
  rfl

section Union
variable {k : BoundKind} {p q : Prop} [Decidable p] [Decidable q]

/-- What `rng.union` answers at 32 bits, from what emptiness is (R148, R149). -/
theorem answer_union_word {r t : Range 32} (hr : rangeEmpty k r = true ↔ p) (ht : rangeEmpty k t = true ↔ q) :
    answer (packRange (rangeUnion k r t)) s
      = .next { s with outbox := s.outbox ++
          [if p then [0, t.lo, t.hi] else if q then [0, r.lo, r.hi]
            else [0, BitVec.ofNat 32 (min r.lo.toNat t.lo.toNat),
              BitVec.ofNat 32 (max r.hi.toNat t.hi.toNat)]] } := by
  simp only [rangeUnion, hr, ht]
  split_ifs
  · rw [packRange_word]; rfl
  · rw [packRange_word]; rfl
  · exact answer_range_word s (toNat_umin ..) (toNat_umax ..)

/-- What `rng.union` answers at 64 bits, from what emptiness is (R150, R151). -/
theorem answer_union_wide {r t : Range 64} (hr : rangeEmpty k r = true ↔ p) (ht : rangeEmpty k t = true ↔ q) :
    answer (packRange (rangeUnion k r t)) s
      = .next { s with outbox := s.outbox ++
          [if p then 0 :: (wordsOf t.lo.toNat ++ wordsOf t.hi.toNat)
            else if q then 0 :: (wordsOf r.lo.toNat ++ wordsOf r.hi.toNat)
            else 0 :: (wordsOf (min r.lo.toNat t.lo.toNat) ++ wordsOf (max r.hi.toNat t.hi.toNat))] } := by
  simp only [rangeUnion, hr, ht]
  split_ifs
  · exact answer_range_wide s rfl rfl
  · exact answer_range_wide s rfl rfl
  · exact answer_range_wide s (toNat_umin ..) (toNat_umax ..)

end Union

end Answers

/-! ## The statements -/

/-- Settles O26, from the laws of R154 one by one. -/
theorem rngLaws : Obligations.RngLaws := fun _ _ r _ _ =>
  ⟨fun _ => rangeIsect_self r,
    fun hr he => ⟨rangeUnion_of_empty_right hr he, rangeUnion_of_empty_left he⟩,
    rangeEmpty_rangeIsect_of_disjoint,
    rangeLength_eq_zero_iff⟩

/-- Settles O20: each packet is the encoding of its command, which answers whether its range is empty. -/
theorem rngIsemptyAnswersEmptiness : Obligations.RngIsemptyAnswersEmptiness := fun s =>
  ⟨fun a b => ⟨decode_encode (.rngIsemptyIi32 ⟨a, b⟩) rfl, answerBool_of_iff s rangeEmpty_ii_iff⟩,
    fun a b => ⟨decode_encode (.rngIsemptyIe32 ⟨a, b⟩) rfl, answerBool_of_iff s rangeEmpty_ie_iff⟩,
    fun a b => ⟨decode_encode (.rngIsemptyIi64 ⟨a, b⟩) rfl, answerBool_of_iff s rangeEmpty_ii_iff⟩,
    fun a b => ⟨decode_encode (.rngIsemptyIe64 ⟨a, b⟩) rfl, answerBool_of_iff s rangeEmpty_ie_iff⟩⟩

/-- Settles O21: each packet is the encoding of its command, which answers whether its ranges are equal. -/
theorem rngEqualsJoinsTheEmptyRanges : Obligations.RngEqualsJoinsTheEmptyRanges := fun s =>
  ⟨fun a b c d => ⟨decode_encode (.rngEqualsIi32 ⟨a, b⟩ ⟨c, d⟩) rfl,
      answerBool_of_iff s (rangeEquals_iff rangeEmpty_ii_iff rangeEmpty_ii_iff)⟩,
    fun a b c d => ⟨decode_encode (.rngEqualsIe32 ⟨a, b⟩ ⟨c, d⟩) rfl,
      answerBool_of_iff s (rangeEquals_iff rangeEmpty_ie_iff rangeEmpty_ie_iff)⟩,
    fun a b c d => ⟨decode_encode (.rngEqualsIi64 ⟨a, b⟩ ⟨c, d⟩) rfl,
      answerBool_of_iff s (rangeEquals_iff rangeEmpty_ii_iff rangeEmpty_ii_iff)⟩,
    fun a b c d => ⟨decode_encode (.rngEqualsIe64 ⟨a, b⟩ ⟨c, d⟩) rfl,
      answerBool_of_iff s (rangeEquals_iff rangeEmpty_ie_iff rangeEmpty_ie_iff)⟩⟩

/-- Settles O22: each packet is the encoding of its command, which answers whether its range contains its point. -/
theorem rngContainsComparesThePoint : Obligations.RngContainsComparesThePoint := fun s =>
  ⟨fun a b p => ⟨decode_encode (.rngContainsIi32 ⟨a, b⟩ p) rfl,
      answerBool_of_iff s (scalar_word p ▸ rangeContains_ii_iff)⟩,
    fun a b p => ⟨decode_encode (.rngContainsIe32 ⟨a, b⟩ p) rfl,
      answerBool_of_iff s (scalar_word p ▸ rangeContains_ie_iff)⟩,
    fun a b p => ⟨decode_encode (.rngContainsIi64 ⟨a, b⟩ p) rfl, answerBool_of_iff s rangeContains_ii_iff⟩,
    fun a b p => ⟨decode_encode (.rngContainsIe64 ⟨a, b⟩ p) rfl, answerBool_of_iff s rangeContains_ie_iff⟩⟩

/-- Settles O23: each packet is the encoding of its command, which answers the intersection's bounds. -/
theorem rngIsectAnswersTheInnerBounds : Obligations.RngIsectAnswersTheInnerBounds := fun s =>
  ⟨fun a b c d => ⟨decode_encode (.rngIsectIi32 ⟨a, b⟩ ⟨c, d⟩) rfl,
      answer_range_word s (toNat_rangeIsect_lo ..) (toNat_rangeIsect_hi ..)⟩,
    fun a b c d => ⟨decode_encode (.rngIsectIe32 ⟨a, b⟩ ⟨c, d⟩) rfl,
      answer_range_word s (toNat_rangeIsect_lo ..) (toNat_rangeIsect_hi ..)⟩,
    fun a b c d => ⟨decode_encode (.rngIsectIi64 ⟨a, b⟩ ⟨c, d⟩) rfl,
      answer_range_wide s (toNat_rangeIsect_lo ..) (toNat_rangeIsect_hi ..)⟩,
    fun a b c d => ⟨decode_encode (.rngIsectIe64 ⟨a, b⟩ ⟨c, d⟩) rfl,
      answer_range_wide s (toNat_rangeIsect_lo ..) (toNat_rangeIsect_hi ..)⟩⟩

/-- Settles O24: each packet is the encoding of its command, which tests its ranges for emptiness in their order. -/
theorem rngUnionAnswersTheHull : Obligations.RngUnionAnswersTheHull := fun s =>
  ⟨fun a b c d => ⟨decode_encode (.rngUnionIi32 ⟨a, b⟩ ⟨c, d⟩) rfl,
      answer_union_word s rangeEmpty_ii_iff rangeEmpty_ii_iff⟩,
    fun a b c d => ⟨decode_encode (.rngUnionIe32 ⟨a, b⟩ ⟨c, d⟩) rfl,
      answer_union_word s rangeEmpty_ie_iff rangeEmpty_ie_iff⟩,
    fun a b c d => ⟨decode_encode (.rngUnionIi64 ⟨a, b⟩ ⟨c, d⟩) rfl,
      answer_union_wide s rangeEmpty_ii_iff rangeEmpty_ii_iff⟩,
    fun a b c d => ⟨decode_encode (.rngUnionIe64 ⟨a, b⟩ ⟨c, d⟩) rfl,
      answer_union_wide s rangeEmpty_ie_iff rangeEmpty_ie_iff⟩⟩

/-- Settles O25: each packet is the encoding of its command, which answers the saturating difference of its bounds. -/
theorem rngLengthStopsAtZero : Obligations.RngLengthStopsAtZero := fun s =>
  ⟨fun a b => ⟨decode_encode (.rngLengthIe32 ⟨a, b⟩) rfl, answer_narrow s (by decide) (toNat_rangeLength _)⟩,
    fun a b => ⟨decode_encode (.rngLengthIe64 ⟨a, b⟩) rfl, answer_wide s (toNat_rangeLength _)⟩⟩

end Sys2Proof.Machine
end

section
/-! The RCT unit (`42_rect.md`): when a rectangle is empty and which points it contains, what its operations are on the
fields, the laws of R175, and what each command of the unit answers. Each fact is that of its two axes (R160). -/

namespace Sys2Proof.Machine

/-! ## Rectangles by the numbers of their fields -/

section Fields
variable {r t : Rect} {x y : Word}

/-- `empty_ii` (R174). -/
theorem rectEmpty_ii_iff :
    rectEmpty .ii r = true ↔ r.minX.toNat > r.maxX.toNat ∨ r.minY.toNat > r.maxY.toNat := by
  simp only [rectEmpty, Bool.or_eq_true, rangeEmpty_ii_iff, xAxis, yAxis]

/-- `empty_ie` (R174). -/
theorem rectEmpty_ie_iff :
    rectEmpty .ie r = true ↔ r.minX.toNat ≥ r.maxX.toNat ∨ r.minY.toNat ≥ r.maxY.toNat := by
  simp only [rectEmpty, Bool.or_eq_true, rangeEmpty_ie_iff, xAxis, yAxis]

/-- A rectangle contains a point when both axes do (R165, R166). -/
theorem rectContains_iff {k : BoundKind} :
    rectContains k r x y = true ↔
      rangeContains k (xAxis r) x = true ∧ rangeContains k (yAxis r) y = true := by
  rw [rectContains, Bool.and_eq_true]

theorem rectContains_ii_iff :
    rectContains .ii r x y = true ↔
      (r.minX.toNat ≤ x.toNat ∧ x.toNat ≤ r.maxX.toNat) ∧ r.minY.toNat ≤ y.toNat ∧ y.toNat ≤ r.maxY.toNat := by
  simp only [rectContains_iff, rangeContains_ii_iff, xAxis, yAxis]

theorem rectContains_ie_iff :
    rectContains .ie r x y = true ↔
      (r.minX.toNat ≤ x.toNat ∧ x.toNat < r.maxX.toNat) ∧ r.minY.toNat ≤ y.toNat ∧ y.toNat < r.maxY.toNat := by
  simp only [rectContains_iff, rangeContains_ie_iff, xAxis, yAxis]

/-- Equality of rectangles, from what emptiness is (R163, R164). -/
theorem rectEquals_iff {k : BoundKind} {a b : Prop} (hr : rectEmpty k r = true ↔ a)
    (ht : rectEmpty k t = true ↔ b) : rectEquals k r t = true ↔ r = t ∨ (a ∧ b) := by
  have hfields : r = t ↔ r.minX = t.minX ∧ r.minY = t.minY ∧ r.maxX = t.maxX ∧ r.maxY = t.maxY := by
    cases r; cases t; exact Iff.of_eq (Rect.mk.injEq ..)
  simp only [rectEquals, Bool.or_eq_true, Bool.and_eq_true, beq_iff_eq, hr, ht, hfields, and_assoc]

@[simp] theorem toNat_rectIsect_minX (r t : Rect) :
    (rectIsect r t).minX.toNat = max r.minX.toNat t.minX.toNat := toNat_umax ..

@[simp] theorem toNat_rectIsect_minY (r t : Rect) :
    (rectIsect r t).minY.toNat = max r.minY.toNat t.minY.toNat := toNat_umax ..

@[simp] theorem toNat_rectIsect_maxX (r t : Rect) :
    (rectIsect r t).maxX.toNat = min r.maxX.toNat t.maxX.toNat := toNat_umin ..

@[simp] theorem toNat_rectIsect_maxY (r t : Rect) :
    (rectIsect r t).maxY.toNat = min r.maxY.toNat t.maxY.toNat := toNat_umin ..

end Fields

/-! ## The axes of a rectangle -/

@[simp] theorem xAxis_rectIsect (r t : Rect) :
    xAxis (rectIsect r t) = rangeIsect (xAxis r) (xAxis t) := rfl

@[simp] theorem yAxis_rectIsect (r t : Rect) :
    yAxis (rectIsect r t) = rangeIsect (yAxis r) (yAxis t) := rfl

/-! ## The laws of R175 -/

section Laws
variable {k : BoundKind} {r e t : Rect}

theorem rectIsect_self (r : Rect) : rectIsect r r = r := by
  rw [rectIsect, rangeIsect_self, rangeIsect_self]
  rfl

/-- An empty first operand is not looked at further (R169, R170). -/
theorem rectUnion_of_empty_left (he : rectEmpty k e = true) : rectUnion k e t = t := if_pos he

/-- An empty second operand leaves the first where that one is not empty (R169, R170). -/
theorem rectUnion_of_empty_right (hr : rectEmpty k r = false) (he : rectEmpty k e = true) :
    rectUnion k r e = r := by
  rw [rectUnion, if_neg (Bool.eq_false_iff.mp hr), if_pos he]

/-- A rectangle that is not empty contains its top-left corner. -/
theorem rectContains_corner (h : rectEmpty k r = false) : rectContains k r r.minX r.minY = true := by
  obtain ⟨hx, hy⟩ := Bool.or_eq_false_iff.mp h
  exact rectContains_iff.mpr ⟨rangeContains_lo hx, rangeContains_lo hy⟩

/-- The intersection contains the points that both rectangles contain. -/
theorem rectContains_rectIsect (k : BoundKind) (r t : Rect) (x y : Word) :
    rectContains k (rectIsect r t) x y = true ↔
      rectContains k r x y = true ∧ rectContains k t x y = true := by
  simp only [rectContains_iff, xAxis_rectIsect, yAxis_rectIsect, rangeContains_rangeIsect]
  exact and_and_and_comm

/-- Rectangles without a common point have an empty intersection: its top-left corner would be one. -/
theorem rectEmpty_rectIsect_of_disjoint
    (h : ∀ x y, ¬ (rectContains k r x y = true ∧ rectContains k t x y = true)) :
    rectEmpty k (rectIsect r t) = true := by
  by_contra hne
  have hcorner := rectContains_corner (Bool.not_eq_true _ ▸ hne)
  exact h _ _ ((rectContains_rectIsect ..).mp hcorner)

theorem umax_zero {w : Nat} (x : BitVec w) : umax x 0 = x := by
  apply BitVec.eq_of_toNat_eq
  rw [toNat_umax, BitVec.ofNat_eq_ofNat, BitVec.toNat_zero, Nat.max_zero]

/-- Clipping to an image at the origin keeps the lower bounds: no bound is below 0. -/
theorem rectIsect_image_min (r : Rect) (width height : Word) :
    (rectIsect r ⟨0, 0, width, height⟩).minX = r.minX ∧ (rectIsect r ⟨0, 0, width, height⟩).minY = r.minY :=
  ⟨umax_zero r.minX, umax_zero r.minY⟩

end Laws

/-! ## What the commands answer -/

section Answers
variable (s : State)

/-- The answer with a rectangle, by the numbers its fields stand for (R54, R160). -/
theorem answer_rect {r : Rect} {a b c d : Nat} (hminX : r.minX.toNat = a) (hminY : r.minY.toNat = b)
    (hmaxX : r.maxX.toNat = c) (hmaxY : r.maxY.toNat = d) :
    answer (packRect r) s
      = .next { s with outbox := s.outbox ++
          [[0, BitVec.ofNat 32 a, BitVec.ofNat 32 b, BitVec.ofNat 32 c, BitVec.ofNat 32 d]] } := by
  subst hminX hminY hmaxX hmaxY
  simp only [BitVec.ofNat_toNat, BitVec.setWidth_eq]
  rfl

/-- What `rct.isect` answers, whatever the bound kind (R167, R168). -/
theorem answer_rectIsect (r t : Rect) :
    answer (packRect (rectIsect r t)) s
      = .next { s with outbox := s.outbox ++
          [[0, BitVec.ofNat 32 (max r.minX.toNat t.minX.toNat),
            BitVec.ofNat 32 (max r.minY.toNat t.minY.toNat),
            BitVec.ofNat 32 (min r.maxX.toNat t.maxX.toNat),
            BitVec.ofNat 32 (min r.maxY.toNat t.maxY.toNat)]] } :=
  answer_rect s (toNat_rectIsect_minX r t) (toNat_rectIsect_minY r t) (toNat_rectIsect_maxX r t)
    (toNat_rectIsect_maxY r t)

/-- What `rct.union` answers, from what emptiness is (R169, R170). -/
theorem answer_rectUnion {k : BoundKind} {r t : Rect} {p q : Prop} [Decidable p] [Decidable q]
    (hr : rectEmpty k r = true ↔ p) (ht : rectEmpty k t = true ↔ q) :
    answer (packRect (rectUnion k r t)) s
      = .next { s with outbox := s.outbox ++
          [if p then [0, t.minX, t.minY, t.maxX, t.maxY]
            else if q then [0, r.minX, r.minY, r.maxX, r.maxY]
            else [0, BitVec.ofNat 32 (min r.minX.toNat t.minX.toNat),
              BitVec.ofNat 32 (min r.minY.toNat t.minY.toNat),
              BitVec.ofNat 32 (max r.maxX.toNat t.maxX.toNat),
              BitVec.ofNat 32 (max r.maxY.toNat t.maxY.toNat)]] } := by
  simp only [rectUnion, hr, ht]
  split_ifs
  · rfl
  · rfl
  · exact answer_rect s (toNat_umin ..) (toNat_umin ..) (toNat_umax ..) (toNat_umax ..)

/-- What `rct.contains` answers: the operands are whole words (R165, R166). -/
theorem answer_rectContains {k : BoundKind} {r : Rect} {x y : Word} {p : Prop} [Decidable p]
    (h : rectContains k r x y = true ↔ p) :
    answerBool (rectContains k r (scalar 32 x) (scalar 32 y)) s
      = .next { s with outbox := s.outbox ++ [[0, if p then 1 else 0]] } := by
  rw [scalar_word, scalar_word]
  exact answerBool_of_iff s h

end Answers

/-- A packet whose header has no row is illegal, whatever its operand words (R58, R59). -/
theorem decode_of_no_row {h : Word} (hr : findRow h = none) (ops : List Word) :
    decode (h :: ops) = .error .unknownHeader := by
  rw [decode, hr]

/-! ## The statements -/

/-- Settles O33, from the laws of R175 one by one. -/
theorem rctLaws : Obligations.RctLaws := fun _ r _ _ =>
  ⟨fun _ => rectIsect_self r,
    fun hr he => ⟨rectUnion_of_empty_right hr he, rectUnion_of_empty_left he⟩,
    rectEmpty_rectIsect_of_disjoint,
    fun width height => ⟨toNat_rectIsect_maxX .., toNat_rectIsect_maxY .., rectIsect_image_min r width height⟩⟩

/-- Settles O27: each packet is the encoding of its command, which answers whether either axis is empty. -/
theorem rctIsemptyAnswersEmptiness : Obligations.RctIsemptyAnswersEmptiness := fun s a b c d =>
  ⟨⟨decode_encode (.rctIsemptyIi32 ⟨a, b, c, d⟩) rfl, answerBool_of_iff s rectEmpty_ii_iff⟩,
    decode_encode (.rctIsemptyIe32 ⟨a, b, c, d⟩) rfl, answerBool_of_iff s rectEmpty_ie_iff⟩

/-- Settles O28: each packet is the encoding of its command, which answers whether its rectangles are equal. -/
theorem rctEqualsJoinsTheEmptyRectangles : Obligations.RctEqualsJoinsTheEmptyRectangles := fun s r t =>
  ⟨⟨decode_encode (.rctEqualsIi32 r t) rfl,
      answerBool_of_iff s (rectEquals_iff rectEmpty_ii_iff rectEmpty_ii_iff)⟩,
    decode_encode (.rctEqualsIe32 r t) rfl,
    answerBool_of_iff s (rectEquals_iff rectEmpty_ie_iff rectEmpty_ie_iff)⟩

/-- Settles O29: each packet is the encoding of its command, which answers whether both axes contain the point. -/
theorem rctContainsComparesThePoint : Obligations.RctContainsComparesThePoint := fun s r x y =>
  ⟨⟨decode_encode (.rctContainsIi32 r x y) rfl, answer_rectContains s rectContains_ii_iff⟩,
    decode_encode (.rctContainsIe32 r x y) rfl, answer_rectContains s rectContains_ie_iff⟩

/-- Settles O30: each packet is the encoding of its command, which answers the intersection's fields. -/
theorem rctIsectAnswersTheInnerBounds : Obligations.RctIsectAnswersTheInnerBounds := fun s r t =>
  ⟨⟨decode_encode (.rctIsectIi32 r t) rfl, answer_rectIsect s r t⟩,
    decode_encode (.rctIsectIe32 r t) rfl, answer_rectIsect s r t⟩

/-- Settles O31: each packet is the encoding of its command, which tests its rectangles for emptiness in their
order. -/
theorem rctUnionAnswersTheBoundingBox : Obligations.RctUnionAnswersTheBoundingBox := fun s r t =>
  ⟨⟨decode_encode (.rctUnionIi32 r t) rfl, answer_rectUnion s rectEmpty_ii_iff rectEmpty_ii_iff⟩,
    decode_encode (.rctUnionIe32 r t) rfl, answer_rectUnion s rectEmpty_ie_iff rectEmpty_ie_iff⟩

/-- Settles O32: each packet is the encoding of its command, which answers the length of its axis; the closed flavours
have no row. -/
theorem rctWidthAndHeightStopAtZero : Obligations.RctWidthAndHeightStopAtZero := fun s r =>
  ⟨⟨decode_encode (.rctWidthIe32 r) rfl, answer_narrow s (by decide) (toNat_rangeLength (xAxis r))⟩,
    decode_encode (.rctHeightIe32 r) rfl, answer_narrow s (by decide) (toNat_rangeLength (yAxis r)),
    decode_of_no_row rfl _, decode_of_no_row rfl _⟩

end Sys2Proof.Machine
end

section
/-! The PXF unit (`43_pixfmt.md`): what the accessors read of a format word, by its bits, and what each command of the
unit answers. -/

namespace Sys2Proof.Machine

/-! ## Validity, the index code and the plane count -/

/-- A format is indexed when bits 19:16 are not all 0 (R180, R186). -/
theorem isIndexed_iff (f : Word) : isIndexed f = true ↔ f.extractLsb' 16 4 ≠ 0 := by
  have hzero : f.extractLsb' 16 4 = 0 ↔ (f.extractLsb' 16 4).toNat = 0 := BitVec.toNat_eq
  rw [isIndexed, bne_iff_ne, pfIndexCode_eq, ne_eq, ne_eq, hzero]

/-- The plane count as a result word: 0 for the zero word, else one more than bits 21:20 (R180, R187). -/
theorem word_numPlanes (f : Word) :
    BitVec.ofNat 32 (numPlanes f) = if f = 0 then 0 else (f.extractLsb' 20 2).setWidth 32 + 1 := by
  rw [numPlanes, pfPlanesM1_eq]
  split
  · rfl
  · rw [BitVec.ofNat_add, BitVec.ofNat_toNat]
    rfl

/-! ## The depth of a channel -/

/-- `DEPTH_LUT` as result words (R183). -/
def depthWords : List Word := depthLut.map (BitVec.ofNat 32)

/-- The depth of channel `k` as a result word: the table's entry for bits `4k+3:4k` (R183, R188). -/
theorem word_chanDepth (f : Word) (k : Nat) :
    BitVec.ofNat 32 (chanDepth f k) = depthWords.getD (f.extractLsb' (4 * k) 4).toNat 0 := by
  rw [chanDepth, pfDepthCode_eq]
  exact (List.getD_map depthLut 0 (BitVec.ofNat 32)).symm

section Channel
variable {k : Nat} (hk : k < 4)
include hk

/-- A channel index is kept by the four bits of AUX (R51). -/
theorem toNat_aux_of_lt : (BitVec.ofNat 4 k).toNat = k := by
  rw [BitVec.toNat_ofNat, Nat.mod_eq_of_lt (by omega)]

/-- A channel index names a well-formed `pxf.depth`. -/
theorem wf_pxfDepth_of_lt (f : Word) : (Instr.pxfDepth (BitVec.ofNat 4 k) f).wf = true := by
  rw [Instr.wf, toNat_aux_of_lt hk]
  exact decide_eq_true hk

/-- The packet of `pxf.depth`: the channel index stands in header bits 13:12 (R51). -/
theorem encode_pxfDepth_of_lt (f : Word) :
    encode (.pxfDepth (BitVec.ofNat 4 k) f) = [BitVec.ofNat 32 (0x430 + 4096 * k), f] := by
  have hheader : (0x430 : Word) + ((BitVec.ofNat 4 k).setWidth 32 <<< 12) = BitVec.ofNat 32 (0x430 + 4096 * k) := by
    bv_omega
  rw [encode, hheader]

theorem decode_pxfDepth_of_lt (f : Word) :
    decode [BitVec.ofNat 32 (0x430 + 4096 * k), f] = .ok (.pxfDepth (BitVec.ofNat 4 k) f) :=
  encode_pxfDepth_of_lt hk f ▸ decode_encode _ (wf_pxfDepth_of_lt hk f)

/-- What `pxf.depth` answers: below 4, the AUX field is the channel whose depth it looks up (R188). -/
theorem execPxfDepth_of_lt (f : Word) (s : State) :
    execPxfDepth (BitVec.ofNat 4 k) f s
      = .next (s.emit [0, depthWords.getD (f.extractLsb' (4 * k) 4).toNat 0]) := by
  rw [execPxfDepth, toNat_aux_of_lt hk, Nat.mod_eq_of_lt hk, word_chanDepth]
  rfl

end Channel

/-! ## The statements -/

/-- Settles O34: each packet is the encoding of its command, which answers what its field says. -/
theorem pxfAnswersTheFormatFields : Obligations.PxfAnswersTheFormatFields := fun s f =>
  ⟨⟨decode_encode (.pxfIsvalid f) rfl, answerBool_of_iff s bne_iff_ne⟩,
    ⟨decode_encode (.pxfIsindexed f) rfl, answerBool_of_iff s (isIndexed_iff f)⟩,
    decode_encode (.pxfNumplanes f) rfl,
    word_numPlanes f ▸ answer_eq [BitVec.ofNat 32 (numPlanes f)] s⟩

/-- Settles O35: the packet is the encoding of its command, which answers the table's entry for its channel. -/
theorem pxfDepthAnswersTheTable : Obligations.PxfDepthAnswersTheTable := fun s f _ hk =>
  ⟨decode_pxfDepth_of_lt hk f, execPxfDepth_of_lt hk f s⟩

end Sys2Proof.Machine
end

section
/-! The pixel formats the swizzler admits (`44_swizzler.md` R203 to R206), by the bits of the format word: the common
conditions, the direct and the indexed formats, the supported triples, and the bytes of a pixel. -/

namespace Sys2Proof.Machine

/-! ## The fields of a format word -/

/-- A field holds a number exactly where its bits are the word of that number. -/
theorem toNat_eq_iff_eq_ofNat {w n : Nat} (x : BitVec w) (h : n < 2 ^ w) : x.toNat = n ↔ x = BitVec.ofNat w n :=
  BitVec.toNat_eq_nat.trans (and_iff_right h)

theorem pfModel_eq_iff {n : Nat} (f : Word) (h : n < 2 ^ 3) :
    pfModel f = n ↔ f.extractLsb' 28 3 = BitVec.ofNat 3 n := by
  rw [pfModel_eq, toNat_eq_iff_eq_ofNat _ h]

theorem pfTransp_eq_iff {n : Nat} (f : Word) (h : n < 2 ^ 2) :
    pfTransp f = n ↔ f.extractLsb' 24 2 = BitVec.ofNat 2 n := by
  rw [pfTransp_eq, toNat_eq_iff_eq_ofNat _ h]

theorem pfIndexCode_eq_iff {n : Nat} (f : Word) (h : n < 2 ^ 4) :
    pfIndexCode f = n ↔ f.extractLsb' 16 4 = BitVec.ofNat 4 n := by
  rw [pfIndexCode_eq, toNat_eq_iff_eq_ofNat _ h]

theorem pfDepthCode_eq_iff {n : Nat} (f : Word) (k : Nat) (h : n < 2 ^ 4) :
    pfDepthCode f k = n ↔ f.extractLsb' (4 * k) 4 = BitVec.ofNat 4 n := by
  rw [pfDepthCode_eq, toNat_eq_iff_eq_ofNat _ h]

/-- The number of channels, by the model and transparency bits (R203). -/
theorem nchan_eq (f : Word) :
    nchan f = (if (f.extractLsb' 28 3).toNat = 1 then 1 else 3) + (if f.extractLsb' 24 2 = 0 then 0 else 1) := by
  simp only [nchan, pfModel_eq, pfTransp_eq_iff f (show 0 < 2 ^ 2 by decide)]
  rfl

/-- The conditions R203 and R204 share, by the bits of the word. -/
theorem plainFormat_iff (f : Word) :
    plainFormat f = true ↔
      f ≠ 0 ∧ f.extractLsb' 31 1 = 0 ∧ f.extractLsb' 26 2 = 0 ∧ f.extractLsb' 23 1 = 0
        ∧ f.extractLsb' 22 1 = 0 ∧ f.extractLsb' 20 2 = 0 := by
  have hzero {w : Nat} (x : BitVec w) : x.toNat = 0 ↔ x = 0 := toNat_eq_iff_eq_ofNat x (Nat.two_pow_pos w)
  simp only [plainFormat, Bool.and_eq_true, bne_iff_ne, beq_iff_eq, pfRes_eq, pfBigEndian_eq, pfFloat_eq,
    pfPlanesM1_eq, Nat.add_eq_zero_iff, Nat.mul_eq_zero, OfNat.ofNat_ne_zero, or_false, hzero, and_assoc]

/-- A condition on each of the four channels. -/
theorem forall_channel_iff {P : Nat → Prop} : (∀ k, k < 4 → P k) ↔ P 0 ∧ P 1 ∧ P 2 ∧ P 3 := by
  constructor
  · intro h
    exact ⟨h 0 (by decide), h 1 (by decide), h 2 (by decide), h 3 (by decide)⟩
  · rintro ⟨h0, h1, h2, h3⟩ k hk
    match k, hk with
    | 0, _ => exact h0
    | 1, _ => exact h1
    | 2, _ => exact h2
    | 3, _ => exact h3

/-! ## The direct formats -/

/-- `direct_ok`, condition by condition (R203). -/
theorem directOk_iff (f : Word) :
    directOk f = true ↔
      plainFormat f = true ∧ pfIndexCode f = 0 ∧ (pfModel f = 1 ∨ pfModel f = 2 ∨ pfModel f = 3)
        ∧ (∀ k, k < 4 → chanOk f k = true) ∧ pixelBits f % 8 = 0 := by
  simp only [directOk, Bool.and_eq_true, Bool.or_eq_true, beq_iff_eq, forall_channel_iff, and_assoc, or_assoc]

/-- Where every channel passes its check, a pixel has as many bits as its depth codes add up to. -/
theorem pixelBits_of_chanOk {f : Word} (h : ∀ k, k < 4 → chanOk f k = true) :
    pixelBits f = pfDepthCode f 0 + pfDepthCode f 1 + pfDepthCode f 2 + pfDepthCode f 3 := by
  have hcode {k : Nat} (hk : k < 4) : chanDepth f k = pfDepthCode f k := (chanDepth_of_chanOk (h k hk)).1
  rw [pixelBits, hcode (by decide), hcode (by decide), hcode (by decide), hcode (by decide)]

section Direct
variable {f : Word} (h : directOk f = true)
include h

theorem pfModel_of_directOk : pfModel f = 1 ∨ pfModel f = 2 ∨ pfModel f = 3 := by
  obtain ⟨_, _, hmodel, _⟩ := (directOk_iff f).mp h
  exact hmodel

theorem chanOk_of_directOk {k : Nat} (hk : k < 4) : chanOk f k = true := by
  obtain ⟨_, _, _, hchan, _⟩ := (directOk_iff f).mp h
  exact hchan k hk

/-- The depth of a channel is its depth code, of at most 8 bits (R183, R203). -/
theorem chanDepth_of_directOk {k : Nat} (hk : k < 4) : chanDepth f k = pfDepthCode f k ∧ chanDepth f k ≤ 8 := by
  obtain ⟨hcode, hle⟩ := chanDepth_of_chanOk (chanOk_of_directOk h hk)
  exact ⟨hcode, hcode ▸ hle⟩

/-- A present channel has at least one bit and an absent one has none (R203). -/
theorem chanDepth_pos_iff_of_directOk {k : Nat} (hk : k < 4) : 1 ≤ chanDepth f k ↔ k < nchan f := by
  have hok := (chanOk_iff f k).mp (chanOk_of_directOk h hk)
  rw [(chanDepth_of_directOk h hk).1]
  split at hok <;> omega

/-- The bytes of a pixel hold its bits (R206). -/
theorem bpp_of_directOk : 8 * bpp f = pixelBits f := by
  obtain ⟨_, _, _, _, hbytes⟩ := (directOk_iff f).mp h
  rw [bpp, indexedOk_of_directOk h, if_neg Bool.false_ne_true]
  omega

/-- A pixel of a direct format has 1 to 4 bytes (R206): channel 0 is always present. -/
theorem bpp_bounds_of_directOk : 1 ≤ bpp f ∧ bpp f ≤ 4 := by
  have hbits := bpp_of_directOk h
  have hle := pixelBits_le_of_directOk h
  have hfirst : 1 ≤ chanDepth f 0 := by
    rw [chanDepth_pos_iff_of_directOk h (by decide), nchan]
    split <;> omega
  rw [pixelBits] at hbits hle
  omega

end Direct

/-! ## The supported triples -/

/-- `supported`, condition by condition (R205). -/
theorem supported_iff (sf df blend : Word) :
    supported sf df blend = true ↔
      (blend = 0 ∨ blend = 1) ∧ directOk df = true ∧ (directOk sf = true ∨ indexedOk sf = true)
        ∧ (pfModel df = 1 → pfModel sf = 1) := by
  simp only [supported, srcOk, Bool.and_eq_true, Bool.or_eq_true, beq_iff_eq, bne_iff_ne, and_assoc,
    imp_iff_not_or, ne_eq]

/-! ## The statements -/

/-- Settles O36: each condition of R203 is one on the bits of the word. -/
theorem directFormatsAdmitted : Obligations.DirectFormatsAdmitted := by
  intro f c model nch
  have hchan : (∀ k, k < 4 → chanOk f k = true) ↔
      ∀ k, k < 4 → if k < nch then 1 ≤ c k ∧ c k ≤ 8 else c k = 0 := by
    simp only [chanOk_iff, nchan_eq, pfDepthCode_eq]
    rfl
  have hbytes : ((∀ k, k < 4 → chanOk f k = true) ∧ pixelBits f % 8 = 0) ↔
      (∀ k, k < 4 → if k < nch then 1 ≤ c k ∧ c k ≤ 8 else c k = 0) ∧ (c 0 + c 1 + c 2 + c 3) % 8 = 0 := by
    rw [← hchan]
    refine and_congr_right fun hok => ?_
    simp only [pixelBits_of_chanOk hok, pfDepthCode_eq]
    rfl
  rw [directOk_iff, plainFormat_iff, pfIndexCode_eq_iff f (by decide), pfModel_eq, hbytes]
  simp only [and_assoc]
  rfl

/-- Settles O37: each condition of R204 is one on the bits of the word. -/
theorem indexedFormatsAdmitted : Obligations.IndexedFormatsAdmitted := by
  intro f
  have hlast : pfDepthCode f 3 = (if pfTransp f = 0 then 0 else 8) ↔
      f.extractLsb' 12 4 = if f.extractLsb' 24 2 = 0 then 0 else 8 := by
    have htransp : pfTransp f = 0 ↔ f.extractLsb' 24 2 = 0 := pfTransp_eq_iff f (by decide)
    by_cases h : f.extractLsb' 24 2 = 0
    · rw [if_pos (htransp.mpr h), if_pos h]
      exact pfDepthCode_eq_iff f 3 (by decide)
    · rw [if_neg (htransp.not.mpr h), if_neg h]
      exact pfDepthCode_eq_iff f 3 (by decide)
  simp only [indexedOk, Bool.and_eq_true, Bool.or_eq_true, beq_iff_eq, plainFormat_iff, hlast,
    pfIndexCode_eq_iff f (show 8 < 2 ^ 4 by decide), pfModel_eq_iff f (show 2 < 2 ^ 3 by decide),
    pfModel_eq_iff f (show 3 < 2 ^ 3 by decide), pfDepthCode_eq_iff f _ (show 8 < 2 ^ 4 by decide), and_assoc]
  rfl

/-- Settles O38: `supported` asks what R205 asks, and the bytes of a pixel are those of its channels' depth codes. -/
theorem supportedTriplesAndPixelWidths : Obligations.SupportedTriplesAndPixelWidths := by
  refine ⟨fun sf df blend => ?_, fun f => ⟨fun h => ⟨?_, bpp_bounds_of_directOk h⟩, fun h => if_pos h⟩⟩
  · rw [supported_iff, pfModel_eq_iff df (by decide), pfModel_eq_iff sf (by decide)]
    rfl
  · rw [bpp_of_directOk h, pixelBits_of_chanOk fun k hk => chanOk_of_directOk h hk]
    simp only [pfDepthCode_eq]

end Sys2Proof.Machine
end

section
/-! SWZ.PREPARE (`44_swizzler.md` R201 to R208): what the command answers at each of its checks, in their order, and
what it stores. -/

namespace Sys2Proof.Machine

/-! ## The checks -/

theorem paletteBytes_eq : params.paletteBytes = 1024 := rfl

theorem addrBits_eq : params.addrBits = 64 := rfl

/-- The palette length that R202 refuses, by the bits of the format word. -/
theorem badPaletteLength_iff (f : Word) (p : Slice) :
    badPaletteLength f p = true ↔ f.extractLsb' 16 4 ≠ 0 ∧ p.len ≠ 1024 := by
  have hlen : p.len.toNat = 1024 ↔ p.len = 1024 := toNat_eq_iff_eq_ofNat p.len (by decide)
  rw [badPaletteLength, Bool.and_eq_true, isIndexed_iff, bne_iff_ne, paletteBytes_eq, Ne, Ne, hlen]

theorem badPaletteLength_of_not_indexed {f : Word} (h : isIndexed f = false) (p : Slice) :
    badPaletteLength f p = false := by
  rw [badPaletteLength, h, Bool.false_and]

/-- The destination of a supported triple is a direct format: no palette goes with it (R202, R205). -/
theorem badPaletteLength_dst_of_supported {sf df bl : Word} (h : supported sf df bl = true) (p : Slice) :
    badPaletteLength df p = false := by
  obtain ⟨_, hdst, _⟩ := (supported_iff sf df bl).mp h
  exact badPaletteLength_of_not_indexed (isIndexed_of_directOk hdst) p

/-! ## What SWZ.PREPARE answers, check by check -/

section Answers
variable {df sf bl : Word} {dp sp : Slice} {s : State}

/-- The arm of the command. -/
theorem exec_swzPrepare (df sf bl : Word) (dp sp : Slice) (s : State) :
    exec (.swzPrepare df dp sf sp bl) s = execSwzPrepare df dp sf sp bl s := rfl

theorem execSwzPrepare_badLength (h : badPaletteLength df dp = true ∨ badPaletteLength sf sp = true) :
    execSwzPrepare df dp sf sp bl s = failPrepare .badPaletteLength s := by
  unfold execSwzPrepare
  rcases h with h | h
  · rw [if_pos h]
  · simp only [h, if_true, ite_self]

variable (hd : badPaletteLength df dp = false) (hs : badPaletteLength sf sp = false)
include hd hs

theorem execSwzPrepare_unsupported (h : supported sf df bl = false) :
    execSwzPrepare df dp sf sp bl s = failPrepare .unsupportedOption s := by
  simp [execSwzPrepare, hd, hs, h]

variable (hsup : supported sf df bl = true)
include hsup

theorem execSwzPrepare_direct (hi : isIndexed sf = false) :
    execSwzPrepare df dp sf sp bl s = answer [] (s.setSwz (preparedWith sf df bl s.swz.srcPal)) := by
  simp [execSwzPrepare, hd, hs, hsup, hi]

variable (hi : isIndexed sf = true)
include hi

theorem execSwzPrepare_wraps (h : sp.ptr.toNat + 1024 > 2 ^ 64) :
    execSwzPrepare df dp sf sp bl s = failPrepare .badArgument s := by
  simp only [execSwzPrepare, hd, hs, hsup, hi, paletteBytes_eq, addrBits_eq, h, Bool.not_true, Bool.false_eq_true,
    if_true, if_false]

variable (hfits : sp.ptr.toNat + 1024 ≤ 2 ^ 64)
include hfits

theorem execSwzPrepare_refused (h : s.mem.readBytes sp.ptr.toNat 1024 = none) :
    execSwzPrepare df dp sf sp bl s = failPrepare .memFault s := by
  simp only [execSwzPrepare, hd, hs, hsup, hi, paletteBytes_eq, addrBits_eq, Nat.not_lt.mpr hfits, h,
    Bool.not_true, Bool.false_eq_true, if_true, if_false]

theorem execSwzPrepare_captures {l : List Byte} (h : s.mem.readBytes sp.ptr.toNat 1024 = some l) :
    execSwzPrepare df dp sf sp bl s = answer [] (s.setSwz (preparedWith sf df bl (paletteOfBytes l))) := by
  simp only [execSwzPrepare, hd, hs, hsup, hi, paletteBytes_eq, addrBits_eq, Nat.not_lt.mpr hfits, h,
    Bool.not_true, Bool.false_eq_true, if_true, if_false]

end Answers

/-- The blend register of a supported triple (R201, R205). -/
theorem blendOfWord_of_supported {sf df bl : Word} (h : supported sf df bl = true) :
    blendOfWord bl = if bl = 1 then .srcOver else .src := by
  obtain ⟨hbl, _⟩ := (supported_iff sf df bl).mp h
  rcases hbl with rfl | rfl <;> rfl

/-- The registers that a successful SWZ.PREPARE writes, and its response (R201). -/
theorem answer_preparedWith {sf df bl : Word} (h : supported sf df bl = true) (pal : Palette) (s : State) :
    answer [] (s.setSwz (preparedWith sf df bl pal)) = .next
      { s with
        swz :=
          { state := .prepared, srcFmt := sf, dstFmt := df
            blend := if bl = 1 then .srcOver else .src
            sbpp := BitVec.ofNat 3 (bpp sf), dbpp := BitVec.ofNat 3 (bpp df)
            srcPal := pal }
        outbox := s.outbox ++ [[0]] } := by
  rw [← blendOfWord_of_supported h]
  rfl

/-! ## The statements -/

/-- Settles O39: a supported triple passes the checks of both lengths, and a direct source needs no palette. -/
theorem prepareStoresADirectTriple : Obligations.PrepareStoresADirectTriple := by
  intro s df sf blend dp sp hsup hsf
  have hi : isIndexed sf = false := by simp [← Bool.not_eq_true, isIndexed_iff, hsf]
  rw [exec_swzPrepare, execSwzPrepare_direct (badPaletteLength_dst_of_supported hsup dp)
    (badPaletteLength_of_not_indexed hi sp) hsup hi]
  exact answer_preparedWith hsup s.swz.srcPal s

/-- Settles O40: the palette is the bytes that were read. -/
theorem prepareCapturesThePalette : Obligations.PrepareCapturesThePalette := by
  intro s df sf blend dp sp hsup hsf hlen hfits hbacked
  obtain ⟨l, hl⟩ := Option.isSome_iff_exists.mp ((Memory.readBytes_isSome ..).mpr hbacked)
  have hs : badPaletteLength sf sp = false := by simp [← Bool.not_eq_true, badPaletteLength_iff, hlen]
  refine ⟨paletteOfBytes l, ?_, fun j hj => ?_⟩
  · rw [exec_swzPrepare, execSwzPrepare_captures (badPaletteLength_dst_of_supported hsup dp) hs hsup
      ((isIndexed_iff sf).mpr hsf) hfits hl]
    exact answer_preparedWith hsup (paletteOfBytes l) s
  · rw [paletteOfBytes_getElem, Memory.readBytes_getD hl hj]

/-- Settles O41: the checks in their order, each of which fails to the same Unprepared state. -/
theorem failedPrepareIsUnprepared : Obligations.FailedPrepareIsUnprepared := by
  intro s df sf blend dp sp indexed badLength failsWith
  have hbad : badLength ↔ badPaletteLength df dp = true ∨ badPaletteLength sf sp = true := by
    rw [badPaletteLength_iff, badPaletteLength_iff]
  have hlengths (h : ¬ badLength) : badPaletteLength df dp = false ∧ badPaletteLength sf sp = false := by
    rwa [hbad, not_or, Bool.not_eq_true, Bool.not_eq_true] at h
  have hfails {e : Status} (h : execSwzPrepare df dp sf sp blend s = failPrepare e s) : failsWith e.word :=
    ⟨_, h.trans (failPrepare_eq e s), rfl, rfl, rfl, rfl⟩
  refine ⟨fun h => hfails (execSwzPrepare_badLength (hbad.mp h)), fun h hsup => ?_, fun h hsup hi hwraps => ?_,
    fun h hsup hi hfits hnot => ?_⟩ <;> obtain ⟨hd, hs⟩ := hlengths h
  · exact hfails (execSwzPrepare_unsupported hd hs hsup)
  · exact hfails (execSwzPrepare_wraps hd hs hsup ((isIndexed_iff sf).mpr hi) hwraps)
  · rw [← Memory.readBytes_isSome, Option.not_isSome_iff_eq_none] at hnot
    exact hfails (execSwzPrepare_refused hd hs hsup ((isIndexed_iff sf).mpr hi) hfits hnot)

end Sys2Proof.Machine
end

section
/-! One pixel (`44_swizzler.md` R213 to R221): widening and narrowing, premultiplying and un-premultiplying, the two
blend modes, and how the canonical pixel stands to the channels of a format. -/

namespace Sys2Proof.Machine

/-! ## Widening and narrowing (R214) -/

/-- The closed form of widening at each depth: the pattern repeated from the top. -/
theorem widen8_closed_forms (v : Nat) :
    widen8 v 8 = v ∧ widen8 v 7 = v * 2 + v / 64 ∧ widen8 v 6 = v * 4 + v / 16 ∧ widen8 v 5 = v * 8 + v / 4
      ∧ widen8 v 4 = v * 17 ∧ widen8 v 3 = v * 73 / 2 ∧ widen8 v 2 = v * 85 ∧ widen8 v 1 = v * 255 := by
  refine ⟨?_, ?_, ?_, ?_, ?_, ?_, ?_, ?_⟩ <;> simp [widen8, widenLoop] <;> omega

/-- At every depth of 1 to 8 bits a widened value is a byte, narrowing undoes widening, and all zeros and all ones are
kept. -/
theorem widen8_spec {d v : Nat} (h1 : 1 ≤ d) (h8 : d ≤ 8) (hv : v < 2 ^ d) :
    widen8 v d ≤ 255 ∧ narrow (widen8 v d) d = v ∧ widen8 0 d = 0 ∧ widen8 (2 ^ d - 1) d = 255 := by
  have hvalue := widen8_closed_forms v
  have hzeros := widen8_closed_forms 0
  have hones := widen8_closed_forms (2 ^ d - 1)
  unfold narrow
  interval_cases d <;> omega

/-- A byte that some value of `d` bits is widened to. -/
def Widened (d : Nat) (c : Byte) : Prop := ∃ v, v < 2 ^ d ∧ c = BitVec.ofNat 8 (widen8 v d)

/-- Narrowing to a depth and widening again keeps what was widened from that depth. -/
theorem Widened.widen8_narrow {d : Nat} {c : Byte} (h : Widened d c) (h1 : 1 ≤ d) (h8 : d ≤ 8) :
    BitVec.ofNat 8 (widen8 (narrow c.toNat d) d) = c := by
  obtain ⟨v, hv, rfl⟩ := h
  obtain ⟨hbyte, hnarrow, _⟩ := widen8_spec h1 h8 hv
  rw [BitVec.toNat_ofNat, Nat.mod_eq_of_lt (by omega), hnarrow]

/-- Settles O51: the closed forms, and what they give at each depth. -/
theorem narrowUndoesWiden : Obligations.NarrowUndoesWiden := by
  refine ⟨fun d v h1 h8 hv => widen8_spec h1 h8 hv, fun _ _ _ => rfl, fun v _ => ?_, fun v _ => ?_, fun v _ => ?_,
    fun v _ => ?_, fun v _ => ?_, fun v _ => ?_, fun v _ => ?_, fun v _ => ?_⟩ <;>
    simp only [widen8_closed_forms v]

/-! ## Premultiplying and un-premultiplying (R216 to R219) -/

/-- The product of two bytes over 255 is a byte (R217). -/
theorem div255r_mul_lt (c a : Byte) : div255r (c.toNat * a.toNat) < 256 := by
  have hle : c.toNat * a.toNat ≤ 255 * 255 :=
    Nat.mul_le_mul (Nat.le_of_lt_succ c.isLt) (Nat.le_of_lt_succ a.isLt)
  unfold div255r
  omega

theorem toNat_premul (c a : Byte) : (premul c a).toNat = div255r (c.toNat * a.toNat) := by
  rw [premul, BitVec.toNat_ofNat, Nat.mod_eq_of_lt (div255r_mul_lt c a)]

/-- Rounding a multiple of 255 is exact. -/
theorem div255r_mul_255 (n : Nat) : div255r (n * 255) = n := by
  unfold div255r
  omega

theorem div255r_mul_zero (n : Nat) : div255r (n * 0) = 0 := by
  rw [Nat.mul_zero]
  rfl

theorem premul_255 (c : Byte) : premul c 255 = c :=
  BitVec.eq_of_toNat_eq ((toNat_premul c 255).trans (div255r_mul_255 c.toNat))

theorem premul_zero (c : Byte) : premul c 0 = 0 :=
  BitVec.eq_of_toNat_eq ((toNat_premul c 0).trans (div255r_mul_zero c.toNat))

theorem premul_comm (c a : Byte) : premul c a = premul a c := by
  rw [premul, premul, Nat.mul_comm]

/-- The alpha kind, by the transparency bits (R216). -/
theorem alphaKind_eq (f : Word) :
    alphaKind f
      = if f.extractLsb' 24 2 = 2 then .nonpremul else if f.extractLsb' 24 2 = 3 then .premul else .opaqueKind := by
  simp only [alphaKind, pfTransp_eq_iff f (show 2 < 2 ^ 2 by decide), pfTransp_eq_iff f (show 3 < 2 ^ 2 by decide)]
  rfl

/-- Settles O52: rounding to the nearest by arithmetic, the identities by what a product of bytes is, and the table of
R219 by its rows. -/
theorem premulRoundsToNearest : Obligations.PremulRoundsToNearest := by
  refine ⟨fun t => ?_, fun c a => ⟨toNat_premul c a, premul_255 c, premul_zero c, ?_⟩, alphaKind_eq, fun p =>
    ⟨fun dk => ?_, rfl, rfl, rfl, rfl, rfl, rfl⟩⟩
  · unfold div255r
    omega
  · rw [premul_comm, premul_255]
  · cases dk <;> rfl

theorem toNat_unpremul {c a : Byte} (h : a ≠ 0) :
    (unpremul c a).toNat = min 255 ((c.toNat * 255 + a.toNat / 2) / a.toNat) := by
  rw [unpremul, if_neg h, BitVec.toNat_ofNat]
  exact Nat.mod_eq_of_lt (lt_of_le_of_lt (Nat.min_le_left ..) (by decide))

theorem unpremul_255 (c : Byte) : unpremul c 255 = c := by
  apply BitVec.eq_of_toNat_eq
  have hc := c.isLt
  rw [toNat_unpremul (by decide), show (255 : Byte).toNat = 255 from rfl]
  omega

theorem unpremulPx_of_alpha_255 {p : Pixel} (h : p.a = 255) : unpremulPx p = p := by
  simp only [unpremulPx, h, unpremul_255]
  rw [← h]

/-! ## SRC_OVER (R220) -/

theorem premultiplied_eq (p : Pixel) (k : AlphaKind) :
    premultiplied p k = if k = .nonpremul then premulPx p else p := by
  cases k <;> rfl

/-- The composited pixel of premultiplied pixels. -/
def overPx (p q : Pixel) : Pixel :=
  ⟨overChan p.r q.r (255 - p.a), overChan p.g q.g (255 - p.a), overChan p.b q.b (255 - p.a),
    overChan p.a q.a (255 - p.a)⟩

/-- SRC_OVER composites the premultiplied pixels, and un-premultiplies for a NONPREMUL destination. -/
theorem srcOver_eq (p d : Pixel) (sk dk : AlphaKind) :
    srcOver p sk d dk
      = if dk = .nonpremul then unpremulPx (overPx (premultiplied p sk) (premultiplied d dk))
        else overPx (premultiplied p sk) (premultiplied d dk) := by
  cases dk <;> rfl

/-- Settles O53: the quotient of R218, and each composited channel by its number. -/
theorem unpremulRoundsAndClamps : Obligations.UnpremulRoundsAndClamps := by
  refine ⟨fun c a => ⟨rfl, unpremul_255 c, toNat_unpremul⟩, ?_⟩
  intro p d sk dk s q mix r
  have hs : premultiplied p sk = s := premultiplied_eq p sk
  have hq : premultiplied d dk = q := premultiplied_eq d dk
  have hr : overPx s q = r := by
    simp only [overPx, overChan_eq]
    rfl
  rw [srcOver_eq, hs, hq, hr]
  rfl

/-- An opaque source hides the destination: its weight is 0. -/
theorem overChan_zero (p q : Byte) : overChan p q 0 = p := by
  have hzero : BitVec.ofNat 8 (div255r (q.toNat * (0 : Byte).toNat)) = 0 :=
    congrArg (BitVec.ofNat 8) (div255r_mul_zero q.toNat)
  rw [overChan, hzero]
  exact satAdd_zero p

theorem overPx_of_alpha_255 {p : Pixel} (h : p.a = 255) (q : Pixel) : overPx p q = p := by
  have hweight : 255 - p.a = 0 := by rw [h]; rfl
  simp only [overPx, hweight, overChan_zero]

/-- SRC_OVER of a source pixel of an OPAQUE format stores the source pixel (R220, R226 (c)). -/
theorem srcOver_of_opaque {p : Pixel} (h : p.a = 255) (d : Pixel) (dk : AlphaKind) :
    srcOver p .opaqueKind d dk = p := by
  have hp : premultiplied p .opaqueKind = p := rfl
  rw [srcOver_eq, hp, overPx_of_alpha_255 h, unpremulPx_of_alpha_255 h, ite_self]

/-- Pixels of equal alpha kinds pass SRC unchanged (R219). -/
theorem srcConvert_same (p : Pixel) (k : AlphaKind) : srcConvert p k k = p := by
  cases k <;> rfl

theorem srcConvert_of_opaque (p : Pixel) (dk : AlphaKind) : srcConvert p .opaqueKind dk = p := by
  cases dk <;> rfl

/-! ## The canonical pixel and the channels of a format (R213, R215, R221) -/

theorem alphaKind_eq_opaque_iff (f : Word) :
    alphaKind f = .opaqueKind ↔ ¬ (pfTransp f = 2 ∨ pfTransp f = 3) := by
  unfold alphaKind
  split_ifs <;> simp_all

theorem pfTransp_lt (f : Word) : pfTransp f < 4 := by
  rw [pfTransp_eq]
  exact (f.extractLsb' 24 2).isLt

/-- The alpha of a pixel of a format: the extra channel where it is the alpha, else 255 (R215, R221). -/
def alphaOf (f : Word) (x : Byte) : Byte := if pfTransp f = 2 ∨ pfTransp f = 3 then x else 255

theorem alphaOf_of_alpha {f : Word} (h : pfTransp f = 2 ∨ pfTransp f = 3) (x : Byte) : alphaOf f x = x := if_pos h

theorem alphaOf_of_opaque {f : Word} (h : ¬ (pfTransp f = 2 ∨ pfTransp f = 3)) (x : Byte) : alphaOf f x = 255 :=
  if_neg h

/-- The canonical pixel, by the colour model (R215). -/
theorem canon_eq (f : Word) (ch : Nat → Byte) :
    canon f ch =
      if pfModel f = 1 then ⟨ch 0, ch 0, ch 0, alphaOf f (ch 1)⟩
      else if pfModel f = 2 then ⟨ch 2, ch 1, ch 0, alphaOf f (ch 3)⟩
      else ⟨ch 0, ch 1, ch 2, alphaOf f (ch 3)⟩ := rfl

/-- The stored channels, by the colour model (R221). -/
theorem storeChan_eq (f : Word) (p : Pixel) (k : Nat) :
    storeChan f p k =
      if pfModel f = 1 then [p.r, alphaOf f p.a].getD k 0
      else if pfModel f = 2 then [p.b, p.g, p.r, alphaOf f p.a].getD k 0
      else [p.r, p.g, p.b, alphaOf f p.a].getD k 0 := rfl

/-- A format with an alpha has the extra channel. -/
theorem nchan_of_alpha {f : Word} (h : pfTransp f = 2 ∨ pfTransp f = 3) :
    nchan f = if pfModel f = 1 then 2 else 4 := by
  have hx : pfTransp f ≠ 0 := by omega
  rw [nchan, if_neg hx]
  split <;> rfl

theorem nchan_le (f : Word) : nchan f ≤ if pfModel f = 1 then 2 else 4 := by
  unfold nchan
  split <;> split <;> decide

theorem lt_four_of_lt_nchan {f : Word} {k : Nat} (hk : k < nchan f) : k < 4 := by
  have := nchan_le f
  split at this <;> omega

/-- A format with neither an alpha nor an `X` channel has its colours only. -/
theorem nchan_of_opaque {f : Word} (h : ¬ (pfTransp f = 2 ∨ pfTransp f = 3)) (hx : pfTransp f ≠ 1) :
    nchan f = if pfModel f = 1 then 1 else 3 := by
  have hlt := pfTransp_lt f
  rw [nchan, if_pos (show pfTransp f = 0 by omega), Nat.add_zero]

/-- The canonical pixel looks at no channel past those of the format (R215). -/
theorem canon_congr {f : Word} {ch ch' : Nat → Byte} (h : ∀ k, k < nchan f → ch k = ch' k) :
    canon f ch = canon f ch' := by
  have hleast : (if pfModel f = 1 then 1 else 3) ≤ nchan f := Nat.le_add_right ..
  have halpha {k : Nat} (hk : k < if pfModel f = 1 then 2 else 4) : alphaOf f (ch k) = alphaOf f (ch' k) := by
    by_cases ha : pfTransp f = 2 ∨ pfTransp f = 3
    · rw [h k (by rwa [nchan_of_alpha ha])]
    · rw [alphaOf_of_opaque ha, alphaOf_of_opaque ha]
  rw [canon_eq, canon_eq]
  by_cases hm : pfModel f = 1 <;> simp only [hm, if_true, if_false] at hleast halpha ⊢
  · rw [h 0 (by omega), halpha (by decide)]
  · rw [h 0 (by omega), h 1 (by omega), h 2 (by omega), halpha (by decide)]

/-- A pixel read from an OPAQUE format has alpha 255 (R215, R216). -/
theorem canon_alpha_of_opaque {f : Word} (h : alphaKind f = .opaqueKind) (ch : Nat → Byte) :
    (canon f ch).a = 255 := by
  rw [alphaKind_eq_opaque_iff] at h
  rw [canon_eq]
  split_ifs <;> exact alphaOf_of_opaque h _

/-- A pixel read from a gray format has equal colours (R215). -/
theorem canon_gray {f : Word} (h : pfModel f = 1) (ch : Nat → Byte) :
    (canon f ch).g = (canon f ch).r ∧ (canon f ch).b = (canon f ch).r := by
  rw [canon_eq, if_pos h]
  exact ⟨rfl, rfl⟩

/-- Where channel `k` of format `b` stands in format `a`: in the same place, or with the outer colours exchanged where one
is BGR and the other RGB. -/
def colourPlace (a b : Word) (k : Nat) : Nat :=
  if pfModel a = pfModel b then k else if k = 0 then 2 else if k = 2 then 0 else k

/-- The channel that format `b` stores of a pixel read from format `a`, for formats with the same alpha and no `X` channel
(R215, R221). -/
theorem storeChan_canon {a b : Word} (ha : pfModel a = 1 ∨ pfModel a = 2 ∨ pfModel a = 3)
    (hb : pfModel b = 1 ∨ pfModel b = 2 ∨ pfModel b = 3) (hgray : pfModel a = 1 ↔ pfModel b = 1)
    (hx : pfTransp a ≠ 1) (ht : pfTransp a = pfTransp b) (ch : Nat → Byte) {k : Nat} (hk : k < nchan b) :
    storeChan b (canon a ch) k = ch (colourPlace a b k) := by
  have halpha (x : Byte) : alphaOf a x = alphaOf b x := by rw [alphaOf, ht, alphaOf]
  have hfew := hk.trans_le (nchan_le b)
  have hlast (hk' : k = if pfModel b = 1 then 1 else 3) (x : Byte) : alphaOf b x = x := by
    by_cases h : pfTransp b = 2 ∨ pfTransp b = 3
    · exact alphaOf_of_alpha h x
    · rw [nchan_of_opaque h (ht ▸ hx)] at hk
      omega
  rw [storeChan_eq, canon_eq, colourPlace]
  simp only [halpha]
  by_cases hm : pfModel b = 1
  · simp only [hm, hgray.mpr hm, if_true] at hfew hlast ⊢
    interval_cases k
    · rfl
    · simp [hlast]
  · have hm' := hgray.not.mpr hm
    simp only [hm, if_false] at hfew hlast
    -- BGR or RGB on either side; of the four channels only the extra one needs `hlast`.
    rcases ha.resolve_left hm' with ha | ha <;> rcases hb.resolve_left hm with hb | hb <;>
      simp only [ha, hb] <;> interval_cases k <;> simp [hlast]

theorem Pixel.eq_of_channels {p q : Pixel} (hr : p.r = q.r) (hg : p.g = q.g) (hb : p.b = q.b) (ha : p.a = q.a) :
    p = q := by
  cases p
  cases q
  simp_all only

/-- Reading back what a format stores of a pixel gives the pixel, where the format can hold it. -/
theorem canon_storeChan {f : Word} {p : Pixel} (halpha : alphaKind f = .opaqueKind → p.a = 255)
    (hgray : pfModel f = 1 → p.g = p.r ∧ p.b = p.r) : canon f (storeChan f p) = p := by
  have ha : alphaOf f (alphaOf f p.a) = p.a := by
    by_cases h : pfTransp f = 2 ∨ pfTransp f = 3
    · rw [alphaOf_of_alpha h, alphaOf_of_alpha h]
    · rw [alphaOf_of_opaque h, halpha ((alphaKind_eq_opaque_iff f).mpr h)]
  simp only [canon_eq, storeChan_eq]
  split_ifs with hm
  · obtain ⟨hg, hb⟩ := hgray hm
    exact Pixel.eq_of_channels rfl hg.symm hb.symm ha
  · exact Pixel.eq_of_channels rfl rfl rfl ha
  · exact Pixel.eq_of_channels rfl rfl rfl ha

/-! ## The pixel word of a direct format (R203, R206, R213, R221) -/

/-- The pixel word is made of its channels: a number whose fields are the narrowed channels is that number. -/
theorem packChans_of_fields {f : Word} {p : Pixel} {w n : Nat}
    (h : ∀ k, k < n → narrow (storeChan f p k).toNat (chanDepth f k) = w / 2 ^ chanOffset f k % 2 ^ chanDepth f k) :
    packChans f p n = w % 2 ^ chanOffset f n := by
  induction n with
  | zero => exact (Nat.mod_one w).symm
  | succ n ih =>
    rw [packChans, ih fun k hk => h k (by omega), h n (by omega), chanOffset, Nat.pow_add, Nat.mod_mul, Nat.mul_comm]

theorem unpack_widened {f : Word} {k : Nat} (hk : k < nchan f) (w : Nat) :
    Widened (chanDepth f k) (unpack f w k) :=
  ⟨_, Nat.mod_lt _ (Nat.two_pow_pos _), if_pos hk⟩

section Direct
variable {f : Word} (h : directOk f = true)
include h

/-- A present channel has 1 to 8 bits (R203). -/
theorem chanDepth_bounds {k : Nat} (hk : k < nchan f) : 1 ≤ chanDepth f k ∧ chanDepth f k ≤ 8 := by
  have hk4 := lt_four_of_lt_nchan hk
  exact ⟨(chanDepth_pos_iff_of_directOk h hk4).mpr hk, (chanDepth_of_directOk h hk4).2⟩

/-- The channels fill the bytes of the pixel (R203, R206). -/
theorem chanOffset_nchan : chanOffset f (nchan f) = 8 * bpp f := by
  have habsent {k : Nat} (hk : k < 4) (hn : nchan f ≤ k) : chanDepth f k = 0 := by
    have := (chanDepth_pos_iff_of_directOk h hk).not.mpr (by omega)
    omega
  have hbound : 1 ≤ nchan f ∧ nchan f ≤ 4 := by
    unfold nchan
    split <;> split <;> decide
  rw [bpp_of_directOk h, pixelBits]
  obtain ⟨h1, h4⟩ := hbound
  generalize hn : nchan f = n at *
  interval_cases n <;> simp [chanOffset, habsent]

/-- The pixel word of a direct format is below the range of its bytes. -/
theorem pack_lt (p : Pixel) : pack f p < 256 ^ bpp f := by
  have hlt := packChans_lt p fun k hk => (chanDepth_bounds h hk).2
  rwa [chanOffset_nchan h, Nat.pow_mul] at hlt

/-- Unpacking a packed pixel narrows each stored channel and widens it again (R213, R221). -/
theorem unpack_pack (p : Pixel) {k : Nat} (hk : k < nchan f) :
    unpack f (pack f p) k = BitVec.ofNat 8 (widen8 (narrow (storeChan f p k).toNat (chanDepth f k)) (chanDepth f k)) := by
  rw [unpack, if_pos hk, pack, packChans_field p (fun k hk => (chanDepth_bounds h hk).2) hk]

end Direct

/-- The bytes of a stored pixel make its pixel word (R221). -/
theorem leNat_storedBytes {z : Swizzler} (h : directOk z.dstFmt = true) (hw : z.dbpp.toNat = bpp z.dstFmt) (p : Pixel) :
    leNat (storedBytes z p) = pack z.dstFmt p := by
  rw [storedBytes, leNat_leBytes, hw, Nat.mod_eq_of_lt (pack_lt h p)]

/-! ## There and back again (R226 (b)) -/

/-- Two direct formats of the same alpha kind without an `X` channel hold the same channels at equal depths: in the same
order, or the colours of one BGR and of the other RGB. -/
structure SameChannels (a b : Word) : Prop where
  direct_left : directOk a = true
  direct_right : directOk b = true
  transp_ne : pfTransp a ≠ 1
  transp_eq : pfTransp a = pfTransp b
  depths : (pfModel a = pfModel b ∧ ∀ k : Nat, k < 4 → chanDepth a k = chanDepth b k)
      ∨ (pfModel a ≠ 1 ∧ pfModel b ≠ 1 ∧ pfModel a ≠ pfModel b
          ∧ chanDepth a 0 = chanDepth b 2 ∧ chanDepth a 1 = chanDepth b 1
          ∧ chanDepth a 2 = chanDepth b 0 ∧ chanDepth a 3 = chanDepth b 3)

namespace SameChannels
variable {a b : Word} (h : SameChannels a b)
include h

theorem gray_iff : pfModel a = 1 ↔ pfModel b = 1 := by
  rcases h.depths with ⟨hm, _⟩ | ⟨ha, hb, _⟩
  · rw [hm]
  · exact iff_of_false ha hb

theorem nchan_eq : nchan a = nchan b := by
  simp only [nchan, h.gray_iff, h.transp_eq]

/-- A channel of the second format stands in the first at the same depth. -/
theorem chanDepth_colourPlace {k : Nat} (hk : k < nchan b) :
    colourPlace a b k < nchan a ∧ chanDepth a (colourPlace a b k) = chanDepth b k := by
  have hk4 := lt_four_of_lt_nchan hk
  rw [colourPlace, h.nchan_eq]
  rcases h.depths with ⟨hm, hd⟩ | ⟨_, hb, hm, h0, h1, h2, h3⟩
  · rw [if_pos hm]
    exact ⟨hk, hd k hk4⟩
  · have hleast : 3 ≤ nchan b := by
      rw [nchan, if_neg hb]
      omega
    rw [if_neg hm]
    interval_cases k
    · exact ⟨show 2 < nchan b by omega, h2⟩
    · exact ⟨hk, h1⟩
    · exact ⟨show 0 < nchan b by omega, h0⟩
    · exact ⟨hk, h3⟩

theorem storeChan_canon (ch : Nat → Byte) {k : Nat} (hk : k < nchan b) :
    storeChan b (canon a ch) k = ch (colourPlace a b k) :=
  Machine.storeChan_canon (pfModel_of_directOk h.direct_left) (pfModel_of_directOk h.direct_right) h.gray_iff
    h.transp_ne h.transp_eq ch hk

/-- Storing a pixel of the first format in the second loses nothing (R226 (b)). -/
theorem canon_unpack_pack (w : Nat) :
    canon b (unpack b (pack b (canon a (unpack a w)))) = canon a (unpack a w) := by
  have hkept {k : Nat} (hk : k < nchan b) :
      unpack b (pack b (canon a (unpack a w))) k = storeChan b (canon a (unpack a w)) k := by
    obtain ⟨h1, h8⟩ := chanDepth_bounds h.direct_right hk
    obtain ⟨hplace, hdepth⟩ := h.chanDepth_colourPlace hk
    have hwide : Widened (chanDepth b k) (storeChan b (canon a (unpack a w)) k) := by
      rw [h.storeChan_canon _ hk, ← hdepth]
      exact unpack_widened hplace w
    rw [unpack_pack h.direct_right _ hk, hwide.widen8_narrow h1 h8]
  rw [canon_congr fun k hk => hkept hk]
  refine canon_storeChan (fun hopaque => canon_alpha_of_opaque ?_ _) fun hgray => canon_gray (h.gray_iff.mpr hgray) _
  rwa [alphaKind, h.transp_eq]

end SameChannels

/-- Packing what was unpacked from a pixel word of as many bytes as the format has gives the word again. -/
theorem pack_canon_unpack {f : Word} (h : directOk f = true) (hx : pfTransp f ≠ 1) {w : Nat} (hw : w < 256 ^ bpp f) :
    pack f (canon f (unpack f w)) = w := by
  have hsame : SameChannels f f := ⟨h, h, hx, rfl, .inl ⟨rfl, fun _ _ => rfl⟩⟩
  have hfield {k : Nat} (hk : k < nchan f) :
      narrow (storeChan f (canon f (unpack f w)) k).toNat (chanDepth f k)
        = w / 2 ^ chanOffset f k % 2 ^ chanDepth f k := by
    obtain ⟨h1, h8⟩ := chanDepth_bounds h hk
    obtain ⟨hbyte, hnarrow, _⟩ :=
      widen8_spec h1 h8 (Nat.mod_lt (w / 2 ^ chanOffset f k) (Nat.two_pow_pos (chanDepth f k)))
    rw [hsame.storeChan_canon _ hk, colourPlace, if_pos rfl, unpack, if_pos hk, BitVec.toNat_ofNat,
      Nat.mod_eq_of_lt (by omega), hnarrow]
  rw [pack, packChans_of_fields fun k hk => hfield hk, chanOffset_nchan h, Nat.pow_mul]
  exact Nat.mod_eq_of_lt hw

theorem leNat_lt (l : List Byte) : leNat l < 256 ^ l.length := by
  have := leNat_leBytes (leNat l) l.length
  rw [leBytes_leNat] at this
  rw [this]
  exact Nat.mod_lt _ (by positivity)

/-- What SRC stores between formats of the same alpha kind: the source pixel, packed (R219, R221). -/
theorem converted_same_kind {z : Swizzler} (hb : z.blend = .src) (hs : directOk z.srcFmt = true)
    (hk : alphaKind z.srcFmt = alphaKind z.dstFmt) (sb db : List Byte) :
    converted z sb db = storedBytes z (canon z.srcFmt (unpack z.srcFmt (leNat sb))) := by
  simp only [converted, hb, hk, srcConvert_same, sourcePixel, isIndexed_of_directOk hs, Bool.false_eq_true, if_false]

/-- Settles O55: the second format keeps the pixel, and the first packs it into the bytes it came from. -/
theorem roundTripKeepsThePixel : Obligations.RoundTripKeepsThePixel := by
  intro z z' bytes db db' a b hblend hblend' hsrc hdst ha hb hwidth hwidth' hx ht hdepths hlen
  have hsame : SameChannels a b := ⟨ha, hb, hx, ht, hdepths⟩
  have hkind : alphaKind a = alphaKind b := by rw [alphaKind, ht, alphaKind]
  have hthere := converted_same_kind hblend ha hkind bytes db
  have hback := converted_same_kind hblend' (hsrc ▸ hb) (by rw [hsrc, hdst, hkind]) (converted z bytes db) db'
  rw [hback, hthere, hsrc, leNat_storedBytes hb hwidth, hsame.canon_unpack_pack, storedBytes, hdst, hwidth',
    pack_canon_unpack ha hx (hlen ▸ leNat_lt bytes), ← hlen, leBytes_leNat]

/-! ## The conversion by the bits of the format words -/

/-- The stored channels, one by one (R221). -/
theorem storeChan_of_lt_nchan {f : Word} (p : Pixel) {k : Nat} (hk : k < nchan f) :
    storeChan f p k =
      if pfModel f = 1 then (if k = 0 then p.r else alphaOf f p.a)
      else if k = 0 then (if pfModel f = 2 then p.b else p.r)
      else if k = 1 then p.g
      else if k = 2 then (if pfModel f = 2 then p.r else p.b)
      else alphaOf f p.a := by
  have hfew := hk.trans_le (nchan_le f)
  rw [storeChan_eq]
  by_cases hm : pfModel f = 1 <;> simp only [hm, if_true, if_false] at hfew ⊢
  · interval_cases k <;> rfl
  · by_cases hm' : pfModel f = 2 <;> simp only [hm', if_true, if_false] <;> interval_cases k <;> rfl

/-- In a direct format a channel stands above the depth codes of the channels below it (R183, R213). -/
theorem chanOffset_eq_sum_codes {f : Word} (h : directOk f = true) {k : Nat} (hk : k ≤ 4) :
    chanOffset f k = ((List.range k).map (pfDepthCode f)).sum := by
  have hcode : (List.range k).map (chanDepth f) = (List.range k).map (pfDepthCode f) :=
    List.map_congr_left fun j hj => (chanDepth_of_directOk h (by have := List.mem_range.mp hj; omega)).1
  rw [chanOffset_eq_sum, hcode]

/-- A direct pixel is the channels at their places in its pixel word, widened (R213). -/
theorem canon_unpack {f : Word} (h : directOk f = true) (w : Nat) :
    canon f (unpack f w) = canon f fun k => BitVec.ofNat 8
      (widen8 (w / 2 ^ ((List.range k).map (pfDepthCode f)).sum % 2 ^ pfDepthCode f k) (pfDepthCode f k)) := by
  refine canon_congr fun k hk => ?_
  have hk4 := lt_four_of_lt_nchan hk
  rw [unpack, if_pos hk, chanOffset_eq_sum_codes h hk4.le, (chanDepth_of_directOk h hk4).1]

/-- An indexed pixel is the four bytes of its palette entry (R213). -/
theorem canon_paletteChan (f : Word) (pal : Palette) (idx : Byte) :
    canon f (paletteChan pal idx) = canon f fun k =>
      if h : k < 4 then pal[4 * idx.toNat + k]'(by have := idx.isLt; omega) else 0 := by
  refine canon_congr fun k hk => ?_
  have hk4 := lt_four_of_lt_nchan hk
  have hidx : 4 * idx.toNat + k < 1024 := by have := idx.isLt; omega
  rw [dif_pos hk4, paletteChan, List.getD_eq_getElem _ _ (by rwa [Vector.length_toList]), Vector.getElem_toList]

/-- The pixel that SWZ.SWIZZLE stores, before it is packed. -/
theorem converted_eq (z : Swizzler) (sb db : List Byte) :
    converted z sb db = storedBytes z
      (if z.blend = .src then srcConvert (sourcePixel z sb) (alphaKind z.srcFmt) (alphaKind z.dstFmt)
      else srcOver (sourcePixel z sb) (alphaKind z.srcFmt) (destPixel z db) (alphaKind z.dstFmt)) := by
  rw [converted]
  cases z.blend <;> rfl

/-- In the word of a stored pixel each channel stands at its place, narrowed (R214, R221). -/
theorem field_storedBytes {z : Swizzler} (h : directOk z.dstFmt = true) (hw : z.dbpp.toNat = bpp z.dstFmt) (p : Pixel)
    {k : Nat} (hk : k < nchan z.dstFmt) :
    leNat (storedBytes z p) / 2 ^ ((List.range k).map (pfDepthCode z.dstFmt)).sum % 2 ^ pfDepthCode z.dstFmt k
      = (storeChan z.dstFmt p k).toNat / 2 ^ (8 - pfDepthCode z.dstFmt k) := by
  have hk4 := lt_four_of_lt_nchan hk
  rw [leNat_storedBytes h hw, ← chanOffset_eq_sum_codes h hk4.le, ← (chanDepth_of_directOk h hk4).1]
  exact packChans_field p (fun k hk => (chanDepth_bounds h hk).2) hk

/-- A source pixel of an OPAQUE format has alpha 255 (R215, R216). -/
theorem sourcePixel_alpha_of_opaque {z : Swizzler} (h : alphaKind z.srcFmt = .opaqueKind) (sb : List Byte) :
    (sourcePixel z sb).a = 255 := by
  unfold sourcePixel
  split <;> exact canon_alpha_of_opaque h _

/-- A source pixel of an OPAQUE format is stored as it is, in either blend mode (R219, R220). -/
theorem converted_of_opaque {z : Swizzler} (h : alphaKind z.srcFmt = .opaqueKind) (sb db : List Byte) :
    converted z sb db = storedBytes z (sourcePixel z sb) := by
  rw [converted_eq, h, srcConvert_of_opaque, srcOver_of_opaque (sourcePixel_alpha_of_opaque h sb), ite_self]

end Sys2Proof.Machine
end

section
/-! SWZ.SWIZZLE (`44_swizzler.md` R209 to R226): its refusals, what it completes, the order of its pixels, its
footprint, and SRC_OVER from an opaque source. -/

namespace Sys2Proof.Machine

/-! ## Runs of bytes -/

/-- A run whose bytes are known reads as those bytes. -/
theorem Memory.readBytes_of_read {m : Memory} {a : Nat} {l : List Byte}
    (h : ∀ j, j < l.length → m.read (a + j) = some (l.getD j 0)) : m.readBytes a l.length = some l := by
  have hbacked : m.backed a l.length := fun j hj => by rw [h j hj]; rfl
  obtain ⟨l', hl'⟩ := Option.isSome_iff_exists.mp ((Memory.readBytes_isSome ..).mpr hbacked)
  have hlen := Memory.readBytes_length hl'
  rw [hl', Option.some.injEq]
  refine List.ext_getElem hlen fun j hj' hj => ?_
  have hbyte := (Memory.readBytes_getD hl' hj).symm.trans (h j hj)
  rwa [Option.some.injEq, List.getD_eq_getElem _ _ hj', List.getD_eq_getElem _ _ hj] at hbyte

/-- Memories that back a run alike accept a write of it alike, and agree after it wherever they agreed before. -/
theorem Memory.writeBytes_alike {m m' : Memory} {a : Nat} {l : List Byte} (h : m.backedAlike m' a l.length) :
    (m.writeBytes a l).2 = (m'.writeBytes a l).2
      ∧ ∀ x, m.read x = m'.read x → (m.writeBytes a l).1.read x = (m'.writeBytes a l).1.read x := by
  induction l generalizing m m' a with
  | nil => exact ⟨rfl, fun _ hx => hx⟩
  | cons b bs ih =>
    have hfirst : (m.write a b).isSome = (m'.write a b).isSome := by
      rw [Memory.write_isSome, Memory.write_isSome]
      exact h 0 (Nat.succ_pos _)
    cases hw : m.write a b with
    | none =>
      have hw' : m'.write a b = none := by simpa [hw] using hfirst
      simp only [Memory.writeBytes, hw, hw']
      exact ⟨trivial, fun _ hx => hx⟩
    | some m1 =>
      obtain ⟨m1', hw'⟩ := Option.isSome_iff_exists.mp (hfirst.symm.trans (by rw [hw]; rfl))
      have hrest : m1.backedAlike m1' (a + 1) bs.length := fun j hj => by
        have hnext := h (j + 1) (Nat.succ_lt_succ hj)
        rw [Memory.read_write hw, Memory.read_write hw', if_neg (by omega), if_neg (by omega)]
        rwa [show a + 1 + j = a + (j + 1) by omega]
      obtain ⟨hok, hread⟩ := ih hrest
      simp only [Memory.writeBytes, hw, hw']
      refine ⟨hok, fun x hx => hread x ?_⟩
      rw [Memory.read_write hw, Memory.read_write hw', hx]

/-- What holds of every byte of `n` pixels holds of every byte of one of them. -/
theorem forall_pixel_of_forall_run {P : Nat → Prop} {a w n : Nat} (h : ∀ j, j < n * w → P (a + j)) {k : Nat}
    (hk : k < n) : ∀ j, j < w → P (a + k * w + j) := by
  intro j hj
  have hle : (k + 1) * w ≤ n * w := Nat.mul_le_mul_right w hk
  rw [Nat.succ_mul] at hle
  rw [Nat.add_assoc]
  exact h (k * w + j) (by omega)

theorem Memory.sameOn_pixel {m m' : Memory} {a w n k : Nat} (h : m.sameOn m' a (n * w)) (hk : k < n) :
    m.sameOn m' (a + k * w) w :=
  forall_pixel_of_forall_run (P := fun x => m.read x = m'.read x) h hk

theorem Memory.backedAlike_pixel {m m' : Memory} {a w n k : Nat} (h : m.backedAlike m' a (n * w)) (hk : k < n) :
    m.backedAlike m' (a + k * w) w :=
  forall_pixel_of_forall_run (P := fun x => (m.read x).isSome = (m'.read x).isSome) h hk

/-! ## One pixel of a run -/

section Run
variable {z : Swizzler} {dst src : Nat} {i : Nat} {m m' : Memory} {sb db : List Byte}

/-- A pixel whose source and destination bytes can be read is converted, and its destination then holds the conversion. -/
theorem convertPixel_stores (hs : m.readBytes (srcAddr z src i) z.sbpp.toNat = some sb)
    (hd : m.readBytes (dstAddr z dst i) z.dbpp.toNat = some db) :
    (convertPixel z dst src i m).2 = true
      ∧ (convertPixel z dst src i m).1.readBytes (dstAddr z dst i) z.dbpp.toNat = some (converted z sb db) := by
  have hok : (convertPixel z dst src i m).2 = true := by
    rw [convertPixel_ok, ← Memory.readBytes_isSome, ← Memory.readBytes_isSome, hs, hd]
    exact ⟨rfl, rfl⟩
  refine ⟨hok, ?_⟩
  rw [convertPixel_of_bytes hs hd] at hok ⊢
  have hread := Memory.readBytes_of_read fun j hj => Memory.read_writeBytes_inside hok hj
  rwa [length_converted] at hread

/-- A run of `k + 1` pixels is the run of `k` pixels and then pixel `k`. -/
theorem convertPixels_last {k : Nat} (h : convertPixels z dst src k 0 m = (m', none))
    (hok : (convertPixel z dst src k m').2 = true) :
    convertPixels z dst src (k + 1) 0 m = ((convertPixel z dst src k m').1, none) := by
  rw [convertPixels_append 1 h, convertPixels_succ, Nat.zero_add, if_pos hok]
  rfl

theorem dstAddr_succ (z : Swizzler) (dst i : Nat) : dstAddr z dst (i + 1) = dstAddr z dst i + z.dbpp.toNat := by
  rw [dstAddr, dstAddr, Nat.succ_mul, Nat.add_assoc]

theorem dstAddr_mono (z : Swizzler) (dst : Nat) {i k : Nat} (h : i ≤ k) : dstAddr z dst i ≤ dstAddr z dst k :=
  Nat.add_le_add_left (Nat.mul_le_mul_right _ h) _

/-- After a whole run, destination pixel `i` is the conversion of the bytes that the `i` pixels before it left (R212). -/
theorem readBytes_of_run {n : Nat} {mi : Memory} (h : convertPixels z dst src n 0 m = (m', none)) (hi : i < n)
    (hbefore : convertPixels z dst src i 0 m = (mi, none))
    (hs : mi.readBytes (srcAddr z src i) z.sbpp.toNat = some sb)
    (hd : mi.readBytes (dstAddr z dst i) z.dbpp.toNat = some db) :
    m'.readBytes (dstAddr z dst i) z.dbpp.toNat = some (converted z sb db) := by
  obtain ⟨hok, hstored⟩ := convertPixel_stores hs hd
  obtain ⟨k, rfl⟩ : ∃ k, n = i + 1 + k := ⟨n - (i + 1), by omega⟩
  rw [convertPixels_append k (convertPixels_last hbefore hok), Nat.zero_add] at h
  rw [← hstored]
  refine Memory.readBytes_congr fun j hj => ?_
  have hlater := convertPixels_outside z dst src k (i + 1) (convertPixel z dst src i mi).1 (dstAddr z dst i + j)
  rw [h, dstAddr_succ] at hlater
  exact hlater (.inl (by omega))

/-- Where source and destination bytes do not meet, a run does not change the source pixels, nor a destination pixel before
its turn. -/
theorem readBytes_of_run_apart {n : Nat} (hi : i < n) (h : convertPixels z dst src i 0 m = (m', none))
    (hapart : dst + n * z.dbpp.toNat ≤ src ∨ src + n * z.sbpp.toNat ≤ dst) :
    m'.readBytes (srcAddr z src i) z.sbpp.toNat = m.readBytes (srcAddr z src i) z.sbpp.toNat
      ∧ m'.readBytes (dstAddr z dst i) z.dbpp.toNat = m.readBytes (dstAddr z dst i) z.dbpp.toNat := by
  refine ⟨Memory.readBytes_congr fun j hj => read_of_run_outside h ?_,
    Memory.readBytes_congr fun j _ => read_of_run_outside h (.inr (Nat.le_add_right ..))⟩
  have hdst : dstAddr z dst i ≤ dst + n * z.dbpp.toNat := dstAddr_mono z dst hi.le
  have hsrc : (i + 1) * z.sbpp.toNat ≤ n * z.sbpp.toNat := Nat.mul_le_mul_right _ hi
  rw [Nat.succ_mul] at hsrc
  rw [srcAddr]
  omega

/-- With source and destination apart, a whole run converts pixel `i` from the bytes it held before (R212). -/
theorem readBytes_of_whole_run {n : Nat} (hsb : m.backed src (n * z.sbpp.toNat)) (hdb : m.backed dst (n * z.dbpp.toNat))
    (hapart : dst + n * z.dbpp.toNat ≤ src ∨ src + n * z.sbpp.toNat ≤ dst)
    (h : convertPixels z dst src n 0 m = (m', none)) (hi : i < n)
    (hs : m.readBytes (srcAddr z src i) z.sbpp.toNat = some sb)
    (hd : m.readBytes (dstAddr z dst i) z.dbpp.toNat = some db) :
    m'.readBytes (dstAddr z dst i) z.dbpp.toNat = some (converted z sb db) := by
  have hfirst {a w : Nat} (hb : m.backed a (n * w)) : m.backed a (i * w) := fun j hj =>
    hb j (hj.trans_le (Nat.mul_le_mul_right w hi.le))
  obtain ⟨mi, hbefore⟩ := convertPixels_of_backed (hfirst hsb) (hfirst hdb)
  obtain ⟨hsrc, hdst⟩ := readBytes_of_run_apart hi hbefore hapart
  exact readBytes_of_run h hi hbefore (hsrc.trans hs) (hdst.trans hd)

/-! ## What a run reads (R211) -/

/-- Two memories that the conversion of pixel `k` cannot tell apart: alike on the source bytes and in what they back of the
destination bytes, and under SRC_OVER on the destination bytes too. -/
structure PixelAlike (z : Swizzler) (dst src : Nat) (m m' : Memory) (k : Nat) : Prop where
  source : m.sameOn m' (srcAddr z src k) z.sbpp.toNat
  backing : m.backedAlike m' (dstAddr z dst k) z.dbpp.toNat
  dest : z.blend = .src ∨ m.sameOn m' (dstAddr z dst k) z.dbpp.toNat

/-- On two such memories pixel `i` is refused before anything is stored, or the same bytes are stored. -/
theorem PixelAlike.convertPixel_cases (h : PixelAlike z dst src m m' i) :
    (convertPixel z dst src i m = (m, false) ∧ convertPixel z dst src i m' = (m', false))
      ∨ ∃ l : List Byte, l.length = z.dbpp.toNat ∧ convertPixel z dst src i m = m.writeBytes (dstAddr z dst i) l
          ∧ convertPixel z dst src i m' = m'.writeBytes (dstAddr z dst i) l := by
  have hsrc := Memory.readBytes_congr h.source
  cases hs : m.readBytes (srcAddr z src i) z.sbpp.toNat with
  | none =>
    have hrefused {m : Memory} (hs : m.readBytes (srcAddr z src i) z.sbpp.toNat = none) :
        convertPixel z dst src i m = (m, false) :=
      convertPixel_of_source_refused (by rw [← Memory.readBytes_isSome, hs]; decide)
    exact .inl ⟨hrefused hs, hrefused (hsrc ▸ hs)⟩
  | some sb =>
    cases hb : z.blend with
    | src =>
      exact .inr ⟨converted z sb [], length_converted .., convertPixel_src hb hs [],
        convertPixel_src hb (hsrc ▸ hs) []⟩
    | srcOver =>
      have hdst := Memory.readBytes_congr (h.dest.resolve_left (by rw [hb]; decide))
      cases hd : m.readBytes (dstAddr z dst i) z.dbpp.toNat with
      | none =>
        have hrefused {m : Memory} (hd : m.readBytes (dstAddr z dst i) z.dbpp.toNat = none) :
            convertPixel z dst src i m = (m, false) :=
          convertPixel_of_over_refused hb (by rw [← Memory.readBytes_isSome, hd]; decide)
        exact .inl ⟨hrefused hd, hrefused (hdst ▸ hd)⟩
      | some db =>
        exact .inr ⟨converted z sb db, length_converted .., convertPixel_of_bytes hs hd,
          convertPixel_of_bytes (hsrc ▸ hs) (hdst ▸ hd)⟩

/-- Two such memories accept pixel `i` alike; after it they agree wherever they agreed before, and on its destination bytes
where it was converted whole. -/
theorem PixelAlike.convertPixel_alike (h : PixelAlike z dst src m m' i) :
    (convertPixel z dst src i m).2 = (convertPixel z dst src i m').2
      ∧ (∀ x, m.read x = m'.read x → (convertPixel z dst src i m).1.read x = (convertPixel z dst src i m').1.read x)
      ∧ ((convertPixel z dst src i m).2 = true → ∀ x, dstAddr z dst i ≤ x → x < dstAddr z dst (i + 1) →
          (convertPixel z dst src i m).1.read x = (convertPixel z dst src i m').1.read x) := by
  rcases h.convertPixel_cases with ⟨he, he'⟩ | ⟨l, hl, he, he'⟩ <;> rw [he, he']
  · exact ⟨rfl, fun _ hx => hx, nofun⟩
  · obtain ⟨hok, hread⟩ := Memory.writeBytes_alike (hl ▸ h.backing)
    refine ⟨hok, hread, fun hwhole x hlo hhi => ?_⟩
    obtain ⟨j, rfl⟩ := Nat.exists_eq_add_of_le hlo
    have hj : j < l.length := by rw [dstAddr_succ] at hhi; omega
    rw [Memory.read_writeBytes_inside hwhole hj, Memory.read_writeBytes_inside (hok ▸ hwhole) hj]

/-- The conversion of pixel `i` leaves two memories alike for pixel `k` that were so before it. -/
theorem PixelAlike.after {k : Nat} (hi : PixelAlike z dst src m m' i) (hk : PixelAlike z dst src m m' k) :
    PixelAlike z dst src (convertPixel z dst src i m).1 (convertPixel z dst src i m').1 k := by
  obtain ⟨_, hread, _⟩ := hi.convertPixel_alike
  refine ⟨fun j hj => hread _ (hk.source j hj), fun j hj => ?_, hk.dest.imp_right fun hd j hj => hread _ (hd j hj)⟩
  rw [convertPixel_isSome, convertPixel_isSome]
  exact hk.backing j hj

/-- Two memories that no pixel of a run can tell apart are refused at the same pixel, if at any; they agree after the run
wherever they agreed before, and on the destination bytes where the run is whole (R211). -/
theorem convertPixels_alike {n : Nat} (h : ∀ k, i ≤ k → k < i + n → PixelAlike z dst src m m' k) :
    (convertPixels z dst src n i m).2 = (convertPixels z dst src n i m').2
      ∧ (∀ x, m.read x = m'.read x →
          (convertPixels z dst src n i m).1.read x = (convertPixels z dst src n i m').1.read x)
      ∧ ((convertPixels z dst src n i m).2 = none → ∀ x, dstAddr z dst i ≤ x → x < dstAddr z dst (i + n) →
          (convertPixels z dst src n i m).1.read x = (convertPixels z dst src n i m').1.read x) := by
  induction n generalizing i m m' with
  | zero => exact ⟨rfl, fun _ hx => hx, fun _ x hlo hhi => absurd hlo (Nat.not_le.mpr hhi)⟩
  | succ n ih =>
    have hi := h i le_rfl (by omega)
    obtain ⟨hok, hread, hwhole⟩ := hi.convertPixel_alike
    rw [convertPixels_succ, convertPixels_succ, ← hok]
    by_cases hc : (convertPixel z dst src i m).2 = true
    · rw [if_pos hc, if_pos hc]
      obtain ⟨hres, hread', hwhole'⟩ := ih (i := i + 1) fun k hlo hhi => hi.after (h k (by omega) (by omega))
      refine ⟨hres, fun x hx => hread' x (hread x hx), fun hnone x hlo hhi => ?_⟩
      rcases Nat.lt_or_ge x (dstAddr z dst (i + 1)) with hx | hx
      · exact hread' x (hwhole hc x hlo hx)
      · exact hwhole' hnone x hx (by rwa [Nat.add_assoc, Nat.add_comm 1])
    · rw [if_neg hc, if_neg hc]
      exact ⟨rfl, hread, nofun⟩

/-! ## SRC_OVER from an opaque source (R226 (c)) -/

/-- The registers with another blend mode. -/
def Swizzler.setBlend (z : Swizzler) (b : BlendMode) : Swizzler := { z with blend := b }

theorem convertPixel_setBlend (h : alphaKind z.srcFmt = .opaqueKind) (b : BlendMode)
    (hs : m.backed (srcAddr z src i) z.sbpp.toNat) (hd : m.backed (dstAddr z dst i) z.dbpp.toNat) :
    convertPixel (z.setBlend b) dst src i m = convertPixel z dst src i m := by
  obtain ⟨sb, hsb⟩ := Option.isSome_iff_exists.mp ((Memory.readBytes_isSome ..).mpr hs)
  obtain ⟨db, hdb⟩ := Option.isSome_iff_exists.mp ((Memory.readBytes_isSome ..).mpr hd)
  rw [convertPixel_of_bytes hsb hdb, convertPixel_of_bytes (z := z.setBlend b) hsb hdb, converted_of_opaque h,
    converted_of_opaque (z := z.setBlend b) h]
  rfl

/-- From an opaque source format a run on backed bytes leaves the same memory in either blend mode. -/
theorem convertPixels_setBlend {n : Nat} (h : alphaKind z.srcFmt = .opaqueKind) (b : BlendMode)
    (hbacked : ∀ k, i ≤ k → k < i + n →
      m.backed (srcAddr z src k) z.sbpp.toNat ∧ m.backed (dstAddr z dst k) z.dbpp.toNat) :
    convertPixels (z.setBlend b) dst src n i m = convertPixels z dst src n i m := by
  induction n generalizing i m with
  | zero => rfl
  | succ n ih =>
    obtain ⟨hs, hd⟩ := hbacked i le_rfl (by omega)
    have hkeep := Memory.backed_congr (convertPixel_isSome z dst src i m)
    rw [convertPixels_succ, convertPixels_succ, convertPixel_setBlend h b hs hd, ih fun k hlo hhi => ?_]
    rw [hkeep, hkeep]
    exact hbacked k (by omega) (by omega)

end Run

/-! ## What SWZ.SWIZZLE answers -/

section Answers
variable {s t : State} {dst dp src : Slice}

theorem exec_swzSwizzle_unprepared (h : s.swz.state = .unprepared) :
    exec (.swzSwizzle dst dp src) s = .next { s with outbox := s.outbox ++ [[0x85000000, 0, 0]] } := by
  rcases execSwzSwizzle_cases dst dp src s with ⟨_, he⟩ | ⟨hp, _⟩ | ⟨hp, _⟩
  · exact he
  · cases h.symm.trans hp
  · cases h.symm.trans hp

theorem exec_swzSwizzle_wraps (hp : s.swz.state = .prepared) (h : ¬ sliceFits dst ∨ ¬ sliceFits src) :
    exec (.swzSwizzle dst dp src) s = .next { s with outbox := s.outbox ++ [[0x82000000, 0, 0]] } := by
  rcases execSwzSwizzle_cases dst dp src s with ⟨hu, _⟩ | ⟨_, _, he⟩ | ⟨_, hfit, _⟩
  · cases hu.symm.trans hp
  · exact he
  · rw [Bool.or_eq_false_iff, sliceWraps_eq_false, sliceWraps_eq_false] at hfit
    exact absurd hfit (not_and_or.mpr h)

/-- A SWZ.SWIZZLE that answered OK ran over all its pixels. -/
theorem run_of_exec_ok {results : List Word} (h : exec (.swzSwizzle dst dp src) s = .next t)
    (hok : t.outbox = s.outbox ++ [0 :: results]) :
    convertPixels s.swz dst.ptr.toNat src.ptr.toNat (pixelCount s.swz dst src) 0 s.mem = (t.mem, none) := by
  have hstatus {status : Word} {l : List Word} (hne : status ≠ 0) :
      s.outbox ++ [status :: l] ≠ s.outbox ++ [0 :: results] := fun heq =>
    hne (List.cons.inj (List.cons.inj (List.append_cancel_left heq)).1).1
  rw [exec_swzSwizzle] at h
  rcases execSwzSwizzle_cases dst dp src s with ⟨_, he⟩ | ⟨_, _, he⟩ | ⟨_, _, m, r, hr, he⟩ <;>
    rw [he] at h <;> cases h
  · exact absurd hok (hstatus (by decide))
  · exact absurd hok (hstatus (by decide))
  · cases r with
    | none => exact hr
    | some i => exact absurd hok (hstatus (by decide))

end Answers

/-! ## The statements -/

/-- Settles O42: the Unprepared state is the first thing SWZ.SWIZZLE looks at. -/
theorem swizzleUnpreparedIsRefused : Obligations.SwizzleUnpreparedIsRefused :=
  fun _ _ _ _ h => exec_swzSwizzle_unprepared h

/-- Settles O43: a Prepared swizzler looks at the slices before any pixel. -/
theorem swizzleOfAWrappingSliceIsRefused : Obligations.SwizzleOfAWrappingSliceIsRefused :=
  fun _ _ _ _ hp h => exec_swzSwizzle_wraps hp h

/-- Settles O44: a run on backed bytes is whole, and writes its destination bytes only. -/
theorem swizzleCompletesOnBackedPixels : Obligations.SwizzleCompletesOnBackedPixels := by
  intro s dst dp src n hp hd hs hsb hdb
  obtain ⟨m, hrun⟩ := convertPixels_of_backed (z := s.swz) (i := n) hsb hdb
  exact ⟨m, exec_swzSwizzle_completes hp hd hs hrun, fun x hx => read_of_run_outside hrun hx⟩

/-- Settles O45: the run converts every pixel from the bytes it held, and the conversion is the one of the spec's tables by
the bits of the two format words. -/
theorem swizzleConvertsEveryPixel : Obligations.SwizzleConvertsEveryPixel := by
  refine ⟨?_, ?_⟩
  · intro s t dst dp src i sb db n sw dw hp hd hs hsb hdb hapart hexec hi hsrc hdst
    obtain ⟨m, hrun⟩ := convertPixels_of_backed (z := s.swz) (i := n) hsb hdb
    rw [exec_swzSwizzle_completes hp hd hs hrun] at hexec
    cases hexec
    exact readBytes_of_whole_run hsb hdb hapart hrun hi hsrc hdst
  · intro z sb db model transp channels depth offset alpha ordered sample stored o
    have hmodel (f : Word) : model f = pfModel f := (pfModel_eq f).symm
    have htransp (f : Word) : transp f = pfTransp f := (pfTransp_eq f).symm
    have hdepth : depth = pfDepthCode := funext fun f => funext fun k => (pfDepthCode_eq f k).symm
    have hchannels (f : Word) : channels f = nchan f := by simp only [channels, hmodel, htransp, nchan]
    have halpha (f : Word) (x : Byte) : alpha f x = alphaOf f x := by simp only [alpha, htransp, alphaOf]
    have hordered (f : Word) (ch : Nat → Byte) : ordered f ch = canon f ch := by
      simp only [ordered, hmodel, halpha, canon_eq]
    have hsample {f : Word} (hf : directOk f = true) (bytes : List Byte) :
        canon f (unpack f (leNat bytes)) = ordered f (sample f bytes) := by
      simp only [hordered, sample, offset, hdepth, canon_unpack hf]
    refine ⟨fun h => ?_, fun idx h hsb => ?_, fun h => hsample h db,
      fun h hw => ⟨length_converted .., ?_, fun k hk => ?_⟩⟩
    · rw [sourcePixel, isIndexed_of_directOk h, if_neg Bool.false_ne_true, hsample h]
    · rw [sourcePixel, isIndexed_of_indexedOk h, if_pos rfl, hsb]
      exact (canon_paletteChan ..).trans (hordered ..).symm
    · simp only [offset, hdepth, hchannels]
      rw [← chanOffset_eq_sum_codes h ((nchan_le _).trans (by split <;> decide)), chanOffset_nchan h, hw]
    · rw [hchannels] at hk
      simp only [stored, hmodel, halpha, ← storeChan_of_lt_nchan o hk, offset, hdepth]
      rw [converted_eq]
      exact field_storedBytes h hw o hk

/-- Settles O46: the run of one pixel more goes on from what the shorter run left. -/
theorem swizzleConvertsInAscendingOrder : Obligations.SwizzleConvertsInAscendingOrder := by
  intro s t dst dst' dp src src' k sb db sw dw hp hd hs hdptr hsptr hk hk' hexec hok hsb hdb
  have hrun := run_of_exec_ok hexec hok
  rw [show pixelCount s.swz dst src = k from hk] at hrun
  obtain ⟨hwhole, hstored⟩ := convertPixel_stores hsb hdb
  have hcount : pixelCount s.swz dst' src' = k + 1 := hk'
  have hexec' := exec_swzSwizzle_completes (dp := dp) hp hd hs
    (by rw [hcount, hdptr, hsptr]; exact convertPixels_last hrun hwhole)
  rw [hcount] at hexec'
  refine ⟨_, hexec', hstored, fun x hx => convertPixel_outside _ _ _ _ _ _ (hx.imp_right fun hhi => ?_)⟩
  rwa [← dstAddr_succ]

/-- Settles O47: whole pixels lie inside the slices, and a run writes its destination bytes only. -/
theorem swizzleWritesOnlyItsPixels : Obligations.SwizzleWritesOnlyItsPixels := by
  intro s t dst dp src n hexec
  refine ⟨(Nat.mul_le_mul_right _ (Nat.min_le_left ..)).trans (Nat.div_mul_le_self ..),
    (Nat.mul_le_mul_right _ (Nat.min_le_right ..)).trans (Nat.div_mul_le_self ..), fun x hx => ?_⟩
  rw [exec_swzSwizzle] at hexec
  rcases execSwzSwizzle_cases dst dp src s with ⟨_, he⟩ | ⟨_, _, he⟩ | ⟨_, _, m, r, hr, he⟩ <;>
    rw [he] at hexec <;> cases hexec
  · rfl
  · rfl
  · exact read_of_run_outside hr hx

/-- Settles O48: memories alike on the pixels' bytes cannot be told apart by the run. -/
theorem swizzleReadsOnlyItsPixels : Obligations.SwizzleReadsOnlyItsPixels := by
  intro s m m' dst dp src n hsrc hdst
  have halike (k : Nat) (hk : k < n) : PixelAlike s.swz dst.ptr.toNat src.ptr.toNat m m' k := by
    have hdstk := Memory.sameOn_pixel hdst hk
    exact ⟨Memory.sameOn_pixel hsrc hk, fun j hj => congrArg _ (hdstk j hj), .inr hdstk⟩
  obtain ⟨hres, hread, _⟩ := convertPixels_alike (i := 0) (n := n) fun k _ hk => halike k (by omega)
  cases hp : s.swz.state with
  | unprepared =>
    exact ⟨_, _, exec_swzSwizzle_unprepared (s := { s with mem := m }) hp,
      exec_swzSwizzle_unprepared (s := { s with mem := m' }) hp, rfl, hdst⟩
  | prepared =>
    by_cases hfit : sliceFits dst ∧ sliceFits src
    · obtain ⟨hd, hs⟩ := hfit
      exact ⟨_, _, exec_swzSwizzle_of_run (s := { s with mem := m }) hp hd hs rfl,
        exec_swzSwizzle_of_run (s := { s with mem := m' }) hp hd hs rfl,
        congrArg (fun r => s.outbox ++ [runResponse n r]) hres, fun j hj => hread _ (hdst j hj)⟩
    · exact ⟨_, _, exec_swzSwizzle_wraps (s := { s with mem := m }) hp (not_and_or.mp hfit),
        exec_swzSwizzle_wraps (s := { s with mem := m' }) hp (not_and_or.mp hfit), rfl, hdst⟩

/-- Settles O49: under SRC the run cannot tell apart memories alike on the source bytes that back the same destination
bytes, and a whole run leaves the destination bytes alike. -/
theorem srcReadsNoDestinationByte : Obligations.SrcReadsNoDestinationByte := by
  intro s m m' dst dp src n hp hd hs hb hsrc hdst
  have halike (k : Nat) (hk : k < n) : PixelAlike s.swz dst.ptr.toNat src.ptr.toNat m m' k :=
    ⟨Memory.sameOn_pixel hsrc hk, Memory.backedAlike_pixel hdst hk, .inl hb⟩
  obtain ⟨hres, _, hwhole⟩ := convertPixels_alike (i := 0) (n := n) fun k _ hk => halike k (by omega)
  have hexec := exec_swzSwizzle_of_run (s := { s with mem := m }) (dp := dp) hp hd hs rfl
  refine ⟨_, _, hexec, exec_swzSwizzle_of_run (s := { s with mem := m' }) hp hd hs rfl,
    congrArg (fun r => s.outbox ++ [runResponse n r]) hres, fun hok j hj => ?_⟩
  have hnone := congrArg Prod.snd (run_of_exec_ok hexec hok)
  refine hwhole hnone _ ?_ ?_
  · rw [dstAddr]
    omega
  · rw [dstAddr, Nat.zero_add]
    exact Nat.add_lt_add_left hj _

/-- From an opaque source format, on backed bytes, the response and the memory do not depend on the blend mode. -/
theorem exec_swzSwizzle_setBlend {s : State} {dst dp src : Slice} (h : alphaKind s.swz.srcFmt = .opaqueKind)
    (hsb : s.mem.backed src.ptr.toNat (pixelCount s.swz dst src * s.swz.sbpp.toNat))
    (hdb : s.mem.backed dst.ptr.toNat (pixelCount s.swz dst src * s.swz.dbpp.toNat)) :
    ∃ (m : Memory) (p : Packet), ∀ b : BlendMode,
      exec (.swzSwizzle dst dp src) { s with swz := s.swz.setBlend b }
        = .next { s with swz := s.swz.setBlend b, mem := m, outbox := s.outbox ++ [p] } := by
  cases hp : s.swz.state with
  | unprepared => exact ⟨_, _, fun b => exec_swzSwizzle_unprepared (s := { s with swz := s.swz.setBlend b }) hp⟩
  | prepared =>
    by_cases hfit : sliceFits dst ∧ sliceFits src
    · obtain ⟨hd, hs⟩ := hfit
      obtain ⟨m, hrun⟩ := convertPixels_of_backed hsb hdb
      have hrun' (b : BlendMode) := (convertPixels_setBlend (n := pixelCount s.swz dst src) h b fun k _ hk =>
        ⟨(backed_pixels_iff ..).mp hsb k (by omega), (backed_pixels_iff ..).mp hdb k (by omega)⟩).trans hrun
      exact ⟨m, 0 :: wordsOf (pixelCount s.swz dst src), fun b =>
        exec_swzSwizzle_completes (s := { s with swz := s.swz.setBlend b }) hp hd hs (hrun' b)⟩
    · exact ⟨_, _, fun b =>
        exec_swzSwizzle_wraps (s := { s with swz := s.swz.setBlend b }) hp (not_and_or.mp hfit)⟩

/-- Settles O54: the two modes are the same registers with the blend mode set. -/
theorem opaqueSrcOverIsSrc : Obligations.OpaqueSrcOverIsSrc := by
  intro s dst dp src n h hsb hdb
  obtain ⟨m, p, hexec⟩ := exec_swzSwizzle_setBlend (dp := dp) h hsb hdb
  exact ⟨_, _, hexec .srcOver, hexec .src, rfl, rfl⟩

end Sys2Proof.Machine
end

section
/-! Error responses (`60_exceptions.md`): the block has no trap, so every step answers a next state (R262, R263, R265). -/

namespace Sys2Proof.Machine

/-- Settles O11: the idle step, the host's moves and an illegal packet name their next state, and a command has one by
its effect. -/
theorem everyStepAnswersANextState : Obligations.EveryStepAnswersANextState := by
  intro s
  rcases step_cases s with ⟨_, he⟩ | ⟨_, _, _, _, he⟩ | ⟨_, _, he⟩ | ⟨_, rest, _, ⟨i, he⟩ | he⟩
  case inr.inr.inr.inl =>
    obtain ⟨t, ht, _⟩ := exec_effect i (s.setInbox rest)
    exact ⟨t, he.trans ht⟩
  all_goals exact ⟨_, he⟩

end Sys2Proof.Machine
end
